-- ==== Sys2Proof/Word.lean ====
section
/-! DEFINITION. The byte, the byte string, and reduction modulo 256 (00_scope.md R8, R9). -/

namespace Sys2Proof

/-- R8: "A byte is an unsigned 8-bit value 0..255"; bit 0 is the least significant bit. -/
abbrev Byte := BitVec 8

/-- R9: "A byte string is a finite list of bytes", indexed from 0. -/
abbrev Bytes := List Byte

/-- R8: `mod 256`, which reduces a natural to a byte. -/
def byteOf (n : Nat) : Byte := BitVec.ofNat 8 n

end Sys2Proof
end

