-- ==== Sys2Proof/Values.lean ====
section
/-! DEFINITION. The value types that the state, the operands and the ports carry
(10_state.md section 3 and section 4, 30_encoding.md sections 1 and 4). -/

namespace Sys2Proof

/-- R30: "the closed six-element enumeration", in the spec's order. -/
inductive NakReason where
  | unknownCmd | checksumError | parityError | bufferOverrun | framingError | timeout
deriving DecidableEq, Repr

/-- R30: a set of `NakReason`; membership is its only observable property, so it is one Bool for
each element and two equal sets are equal data (log 15). -/
structure NakSet where
  unknownCmd : Bool := false
  checksumError : Bool := false
  parityError : Bool := false
  bufferOverrun : Bool := false
  framingError : Bool := false
  timeout : Bool := false
deriving DecidableEq, Repr

/-- R5, R30: `P_STATUS_FLAGS`, a finite set that "contains at least `PLAY`, `RECORD`, `SERVO_LOCK` and
`CASSETTE_OUT`"; `other n` is the n-th flag beyond those four (how many there are: `StatusLayout`). -/
inductive StatusFlag where
  | play | record | servoLock | cassetteOut | other (n : Nat)
deriving DecidableEq, Repr

/-- R30: `Timecode`, "hours, minutes, seconds, frames: natural 0..99" and two booleans. -/
structure Timecode where
  hours : Fin 100
  minutes : Fin 100
  seconds : Fin 100
  frames : Fin 100
  dropFrame : Bool
  colorFrame : Bool
deriving DecidableEq, Repr

/-- R147: the operand of TC_ENCODE: four naturals (not limited to 99: the encoder clamps) and two
booleans that "default to false when the caller gives none". -/
structure TimecodeInput where
  hours : Nat := 0
  minutes : Nat := 0
  seconds : Nat := 0
  frames : Nat := 0
  dropFrame : Bool := false
  colorFrame : Bool := false
deriving DecidableEq, Repr

/-- R122: the four wire bytes of a timecode, `[F, S, M, H]`. -/
structure TimecodeBytes where
  f : Byte := 0
  s : Byte := 0
  m : Byte := 0
  h : Byte := 0
deriving DecidableEq, Repr

/-- R28: an event, "exactly six forms". `raw`'s `cmd1` is the packet's whole header byte. -/
inductive Event where
  | ack
  | nak (reasons : NakSet)
  | deviceType (value : BitVec 16)
  | status (flags : List StatusFlag)
  | timecode (tc : Timecode)
  | raw (cmd1 cmd2 : Byte) (data : Bytes)
deriving DecidableEq, Repr

/-- R143: the fields of a parsed packet. -/
structure Packet where
  hdr : Byte
  cls : Byte
  cmd2 : Byte
  data : Bytes
deriving DecidableEq, Repr

/-- R72: the command classes the spec names. -/
inductive CommandClass where
  | systemControl | systemControlReturn | transportControl | presetSelect | senseRequest | senseReturn
deriving DecidableEq, Repr

/-- R120: the current-time-sense flag values. -/
inductive TimeSense where
  | ltcTc | vitcTc | auto | timer1 | timer2 | ltcUb | vitcUb
deriving DecidableEq, Repr

/-- R5: `LinkConfig`, "link path or address, baud rate, data bits, parity, stop bits", an opaque record
that no rule reads; it is only passed to the link (log 16). -/
structure LinkConfig where
  path : Bytes := []
  baudRate : Nat := 0
  dataBits : Nat := 0
  parity : Nat := 0
  stopBits : Nat := 0
deriving DecidableEq, Repr

/-- R34: the link's synchronous answer to an open or close request, a draw. -/
inductive LinkAnswer where
  | ok | fail
deriving DecidableEq, Repr

/-- R34: what the block asks of the link. -/
inductive LinkRequest where
  | openLink (cfg : LinkConfig)
  | closeLink
  | write (bytes : Bytes)
deriving DecidableEq, Repr

/-- R273: the five transport causes, "the complete set". -/
inductive TransportCause where
  | openFailed | writeFailed | closeFailed | notOpen | alreadyOpen
deriving DecidableEq, Repr

/-- R29: the outcome of one host request. -/
inductive Result where
  | ok
  | acked
  | nakked (reasons : NakSet)
  | timedOut
  | errTransport (cause : TransportCause)
deriving DecidableEq, Repr

/-- R37: the operation a result names. -/
inductive HostOp where
  | openLink | closeLink | send | sendAwait
deriving DecidableEq, Repr

/-- R271: the error outputs of the pure codec functions. -/
inductive CodecError where
  | invalidArgument | notAPacket | tcMalformed
deriving DecidableEq, Repr

/-- R38: what a codec function answers on its port, one form for each kind of output. -/
inductive CodecValue where
  | checksum (b : Byte)
  | packet (bytes : Bytes)
  | fields (p : Packet)
  | bcd (b : Byte)
  | unbcd (n : Nat)
  | clamped (n : Nat)
  | timecodeWire (w : TimecodeBytes)
  | timecode (tc : Timecode)
  | reasons (s : NakSet)
  | flags (fs : List StatusFlag)
  | senseByte (b : Byte)
  | matchLength (l : Option Nat)
  | event (e : Event)
  | error (e : CodecError)
deriving DecidableEq, Repr

/-- R32: a request on the host request port; an open or close carries the link's answer, the draw of
R34. -/
inductive Request where
  | openLink (cfg : LinkConfig) (answer : LinkAnswer)
  | closeLink (answer : LinkAnswer)
  | send (bytes : Bytes)
  | sendAwait (bytes : Bytes) (timeoutMs : Nat)
deriving DecidableEq, Repr

/-- R21. -/
inductive Session where
  | closed | opened
deriving DecidableEq, Repr

/-- R22. -/
inductive Transmitter where
  | idle | busyPlain | busyAwait
deriving DecidableEq, Repr

/-- R24: `ARMED(limit, elapsed)`, two naturals counted in ticks. -/
inductive AckWait where
  | idle
  | armed (limit elapsed : Nat)
deriving DecidableEq, Repr

/-- Where an input arrives (10_state.md section 4). `command` is a catalogue name called by the host
(R127), or another `(cmd1, cmd2)` pair that it encodes (R88), `framed` a packet the resynchronizer has framed (R80), `internal` an operation of the block
itself (R128), `reset` the reset of R292. -/
inductive Port where
  | host | codec | command | linkTx | linkRx | timeBase | framed | internal | reset
deriving DecidableEq, Repr

/-- The operand ports beside an operation code (R128 gives an operation an 8-bit code and no operand
layout: log 2). Each field is named as opcode_table.json names the operand. -/
structure Operands where
  cfg : LinkConfig := {}
  answer : LinkAnswer := .ok
  bytes : Bytes := []
  timeoutMs : Nat := 0
  cmd1 : Byte := 0
  cmd2 : Byte := 0
  v : Nat := 0
  b : Byte := 0
  tc : TimecodeInput := {}
  wire : TimecodeBytes := {}
  start : Nat := 0
  size : Nat := 0
  offset : Nat := 0
  event : Event := .ack
  reasons : NakSet := {}
deriving DecidableEq, Repr

/-- One input of the block (R6): the port it comes on, its bytes (one operation code, or a whole wire
packet), its operands, and the draw that says whether it is looked at before a waiting host request
that has become ready (R278; log 6). -/
structure Input where
  port : Port
  bytes : Bytes
  operands : Operands := {}
  beforeHeld : Bool := false
deriving DecidableEq, Repr

/-- Why the decoder gives no instruction, by name. -/
inductive DecodeError where
  /-- An operation word is one byte (R128). -/
  | notOneCode
  /-- "No other code is used" (R128). -/
  | noSuchOperation (code : Byte)
  /-- The code is another port's; "the host cannot select an internal operation" (R128). -/
  | wrongPort (code : Byte)
  /-- The bytes are not a well-formed packet (R76). -/
  | notAPacket
  /-- A chunk is non-empty (R35, R287 (c)). -/
  | emptyChunk
  /-- The operand of DELIVER is no value of type `Event` (R28). -/
  | notAnEvent
  /-- `timeoutMs` does not fit in `P_TIMEOUT_BITS` bits: "The width must hold every `limit` the host can
  give" (R231). -/
  | limitTooWide (limit : Nat)
  /-- Reset is no instruction (R292). -/
  | resetLine
deriving DecidableEq, Repr

end Sys2Proof
end

