-- ==== Sys2Proof/Config.lean ====
section
/-! DEFINITION. The implementation parameters of 00_scope.md R5, and the values the spec leaves open.
"A model takes each as an argument of its machine": `Machine.machine P` is the block built for `P`; `exec`,
`step` and `core` are the one built for the defaults, `Machine.params` (log 9). -/

namespace Sys2Proof

/-- R154: the place of one status flag, "a pair `(i, k)` with byte index `0 <= i <= 4` and bit
`0 <= k <= 7`". -/
structure BitPos where
  byte : Fin 5
  bit : Fin 8
deriving DecidableEq, Repr, Inhabited

/-- R154: `P_STATUS_TABLE` together with `P_STATUS_FLAGS`: the place of each of the four named flags and
of every further flag (`others[n]` is the place of `StatusFlag.other n`). -/
structure StatusLayout where
  play : BitPos
  record : BitPos
  servoLock : BitPos
  cassetteOut : BitPos
  others : List BitPos
deriving DecidableEq, Repr, Inhabited

/-- R152: `P_NAK_TABLE`; each reason's mask is a single bit, held as its bit number. -/
structure NakTable where
  unknownCmd : Fin 8
  checksumError : Fin 8
  parityError : Fin 8
  bufferOverrun : Fin 8
  framingError : Fin 8
  timeout : Fin 8
deriving DecidableEq, Repr

/-- R5: the implementation parameters. (`LinkConfig` is the operand of OPEN: log 16.) -/
structure Params where
  /-- `P_MAX_LEN`. -/
  maxLen : Nat
  /-- `P_ACC_CAP`; `none` is `INF`. -/
  accCap : Option Nat
  /-- `P_NAK_TABLE`. -/
  nakTable : NakTable
  /-- `P_STATUS_FLAGS` and `P_STATUS_TABLE`. -/
  status : StatusLayout
  /-- `P_TIMEOUT_BITS`; `none` is the model's "unbounded naturals" (log 17). -/
  timeoutBits : Option Nat
  /-- `P_TICK`, in microseconds. No input reads it; it gives a tick its real time (R231, log 22). -/
  tick : Nat
deriving DecidableEq, Repr

/-- R154: the table is OPEN; nothing is known of it but its form (log 11). -/
opaque Config.statusLayout : StatusLayout

/-- R144: `bcd(v)` is given for `0 <= v <= 99` only; what BCD_PACK answers above 99 is a free value, a
function of its operand (log 12). -/
opaque Config.freeBcd : Nat → Byte

end Sys2Proof
end

