-- ==== Sys2Proof/Machine/Flags.lean ====
section
/-! DEFINITION. The flag-like values of the protocol (10_state.md R31: there are no condition codes):
NAK reasons, status flags, the codes of the result port, and the closed machine's parameters. -/

namespace Sys2Proof.Machine

/-! ### NAK reasons -/

/-- R151: the bit number `P_NAK_TABLE` gives a reason. -/
def nakBit (t : NakTable) : NakReason → Fin 8
  | .unknownCmd => t.unknownCmd
  | .checksumError => t.checksumError
  | .parityError => t.parityError
  | .bufferOverrun => t.bufferOverrun
  | .framingError => t.framingError
  | .timeout => t.timeout

/-- R152: the reason's one-bit mask. -/
def nakMask (t : NakTable) (r : NakReason) : Byte := 1#8 <<< (nakBit t r).val

/-- R151: whether the reason byte signals a reason: `(b & P_NAK_TABLE(r)) != 0`. -/
def nakSignalled (t : NakTable) (b : Byte) (r : NakReason) : Bool := (b &&& nakMask t r) != 0#8

/-- R151 NAK_DECODE: the set of the reasons signalled; bits no reason uses are ignored. -/
def decodeNak (t : NakTable) (b : Byte) : NakSet where
  unknownCmd := nakSignalled t b .unknownCmd
  checksumError := nakSignalled t b .checksumError
  parityError := nakSignalled t b .parityError
  bufferOverrun := nakSignalled t b .bufferOverrun
  framingError := nakSignalled t b .framingError
  timeout := nakSignalled t b .timeout

/-- Membership in a reason set (R30). -/
def nakHas (s : NakSet) : NakReason → Bool
  | .unknownCmd => s.unknownCmd
  | .checksumError => s.checksumError
  | .parityError => s.parityError
  | .bufferOverrun => s.bufferOverrun
  | .framingError => s.framingError
  | .timeout => s.timeout

/-- R271: a reason set on the result port, "a 6-bit vector in `NakReason` order. Bit 0 is `UNKNOWN_CMD`
and bit 5 is `TIMEOUT`". -/
def nakVector (s : NakSet) : BitVec 6 :=
  BitVec.ofBool s.timeout ++ BitVec.ofBool s.framingError ++ BitVec.ofBool s.bufferOverrun
    ++ BitVec.ofBool s.parityError ++ BitVec.ofBool s.checksumError ++ BitVec.ofBool s.unknownCmd

/-- R152: the default `P_NAK_TABLE`. Only `CHECKSUM_ERROR = 0x04` is the source's; the other five are
the spec's default from general knowledge (log 10). -/
def defaultNakTable : NakTable where
  unknownCmd := 0
  checksumError := 2
  parityError := 4
  bufferOverrun := 5
  framingError := 6
  timeout := 7

/-! ### Status flags -/

/-- R154: each flag with its place, in a fixed order: the four named flags, then the others. -/
def statusTable (l : StatusLayout) : List (StatusFlag × BitPos) :=
  [(.play, l.play), (.record, l.record), (.servoLock, l.servoLock), (.cassetteOut, l.cassetteOut)]
    ++ l.others.zipIdx.map fun (p, n) => (.other n, p)

/-- R153: whether the data bytes signal a place: `i < len(data)` and bit `k` of `data[i]` is 1. -/
def statusBit (data : Bytes) (p : BitPos) : Bool :=
  match data[p.byte.val]? with
  | some b => (b >>> p.bit.val) &&& 1#8 == 1#8
  | none => false

/-- R153 STATUS_DECODE: the flags whose bit is 1, in the table's order. Bytes at index 5 and above and
bits the table does not name are ignored (R124). -/
def decodeStatus (l : StatusLayout) (data : Bytes) : List StatusFlag :=
  ((statusTable l).filter fun e => statusBit data e.2).map Prod.fst

/-- The place of a flag in the fixed order of `statusTable`. -/
def flagRank : StatusFlag → Nat
  | .play => 0
  | .record => 1
  | .servoLock => 2
  | .cassetteOut => 3
  | .other n => 4 + n

/-- Whether a flag is one of `P_STATUS_FLAGS`. -/
def isStatusFlag (l : StatusLayout) : StatusFlag → Bool
  | .other n => decide (n < l.others.length)
  | .play | .record | .servoLock | .cassetteOut => true

/-- Whether a list stands for a set of flags of `P_STATUS_FLAGS`: each one a flag of the table, in the
table's order, none twice (log 15). -/
def isFlagSet (l : StatusLayout) (fs : List StatusFlag) : Bool :=
  fs.all (isStatusFlag l) && decide ((fs.map flagRank).Pairwise (· < ·))

/-! ### Result codes -/

/-- R271: the numeric code of a result. -/
def resultCode : Result → Nat
  | .ok => 0
  | .acked => 1
  | .nakked _ => 2
  | .timedOut => 3
  | .errTransport .openFailed => 5
  | .errTransport .writeFailed => 6
  | .errTransport .closeFailed => 7
  | .errTransport .notOpen => 8
  | .errTransport .alreadyOpen => 9

/-- R271: the numeric code of a codec error. -/
def codecErrorCode : CodecError → Nat
  | .invalidArgument => 4
  | .notAPacket => 10
  | .tcMalformed => 11

/-! ### The closed machine's parameters -/

/-- R5: the defaults `P_MAX_LEN = 18`, `P_ACC_CAP = INF`, the NAK table of R152, unbounded naturals for a
limit and `P_TICK` = 1 ms; the status table is OPEN (log 9, log 10, log 11). -/
def params : Params where
  maxLen := 18
  accCap := none
  nakTable := defaultNakTable
  status := Config.statusLayout
  timeoutBits := none
  tick := 1000

end Sys2Proof.Machine
end

