-- ==== Sys2Proof/Machine/Operands.lean ====
section
/-! DEFINITION. The packet format and the operand formats carried in packet data
(30_encoding.md sections 1 and 4, 40_codec.md sections 1 to 4 and 6). All functions are pure (R140). -/

namespace Sys2Proof.Machine

/-! ### Checksum and packet layout -/

/-- R141 CSUM: `sum(bs) mod 256`. -/
def checksum (bs : Bytes) : Byte := byteOf (bs.map BitVec.toNat).sum

/-- R71: the class nibble, kept in place: `hdr & 0xF0`. -/
def classBits (hdr : Byte) : Byte := hdr &&& 0xF0#8

/-- R71: the length nibble `hdr[3:0]`, written by the encoder and read by no decoder (R73). -/
def lengthNibble (hdr : Byte) : BitVec 4 := hdr.setWidth 4

/-- R70: byte 0 of an encoded packet, `(cmd1 & 0xF0) | (n & 0x0F)`. -/
def header (cmd1 : Byte) (n : Nat) : Byte := (cmd1 &&& 0xF0#8) ||| (byteOf n &&& 0x0F#8)

/-- R71: a header byte of class `0x7` with a given length nibble. -/
def senseReturnHeader (len : BitVec 4) : Byte := 0x7#4 ++ len

/-- R70, R74: header, `cmd2`, data, and the checksum of all bytes before it. -/
def wirePacket (hdr cmd2 : Byte) (data : Bytes) : Bytes :=
  let body := hdr :: cmd2 :: data
  body ++ [checksum body]

/-- R72: the class a class nibble names, if any. -/
def commandClass (hdr : Byte) : Option CommandClass :=
  match (classBits hdr).toNat with
  | 0x00 => some .systemControl
  | 0x10 => some .systemControlReturn
  | 0x20 => some .transportControl
  | 0x40 => some .presetSelect
  | 0x60 => some .senseRequest
  | 0x70 => some .senseReturn
  | _ => none

/-- R72: whether packets of a class go from the host to the device. -/
def hostToDevice : CommandClass → Bool
  | .systemControl | .transportControl | .presetSelect | .senseRequest => true
  | .systemControlReturn | .senseReturn => false

/-- R142 ENCODE. The only input it rejects is more than 15 data bytes (R88, R272). -/
def encodePacket (cmd1 cmd2 : Byte) (data : Bytes) : Except CodecError Bytes :=
  if data.length > 15 then .error .invalidArgument
  else .ok (wirePacket (header cmd1 data.length) cmd2 data)

/-- R76: a well-formed packet: `3 <= len(p) <= P_MAX_LEN`, and the last byte is the checksum of the
bytes before it. The length nibble and the key are not looked at (R73, R87). -/
def wellFormedPacket (P : Params) (p : Bytes) : Bool :=
  decide (3 ≤ p.length ∧ p.length ≤ P.maxLen ∧ p[p.length - 1]? = some (checksum (p.take (p.length - 1))))

/-- R143 PARSE. -/
def parse (P : Params) (p : Bytes) : Except CodecError Packet :=
  if wellFormedPacket P p then
    .ok { hdr := p.getD 0 0, cls := classBits (p.getD 0 0), cmd2 := p.getD 1 0,
          data := (p.take (p.length - 1)).drop 2 }
  else .error .notAPacket

/-! ### BCD -/

/-- R146 CLAMP99: `min(v, 99)`. -/
def clampTo99 (v : Nat) : Nat := min v 99

/-- R144 BCD_PACK: `((v / 10) << 4) | (v % 10)` for `0 <= v <= 99`. Above 99 the spec gives no value:
`Config.freeBcd` (log 12). -/
def bcd (v : Nat) : Byte :=
  if v ≤ 99 then byteOf (((v / 10) <<< 4) ||| (v % 10)) else Config.freeBcd v

/-- R145 BCD_UNPACK: `(b >> 4) * 10 + (b & 0x0F)`; nibbles A to F count as 10 to 15. -/
def unbcd (b : Byte) : Nat := (b >>> 4).toNat * 10 + (b &&& 0x0F#8).toNat

/-! ### Timecode -/

/-- R147 TC_ENCODE. The flags are OR-ed in, not masked (R304). -/
def encodeTimecode (tc : TimecodeInput) : TimecodeBytes where
  f := bcd (clampTo99 tc.frames) ||| (if tc.dropFrame then 0x40#8 else 0#8)
        ||| (if tc.colorFrame then 0x80#8 else 0#8)
  s := bcd (clampTo99 tc.seconds)
  m := bcd (clampTo99 tc.minutes)
  h := bcd (clampTo99 tc.hours)

/-- R148 `decodeTimecodeFields`: the six fields before the validity check. -/
def decodeTimecodeFields (w : TimecodeBytes) : TimecodeInput where
  hours := unbcd w.h
  minutes := unbcd w.m
  seconds := unbcd w.s
  frames := unbcd (w.f &&& 0x3F#8)
  dropFrame := (w.f &&& 0x40#8) != 0#8
  colorFrame := (w.f &&& 0x80#8) != 0#8

/-- R149: "valid when each of `hours`, `minutes`, `seconds` and `frames` is at most 99". -/
def checkTimecode (t : TimecodeInput) : Except CodecError Timecode :=
  if h : t.hours < 100 ∧ t.minutes < 100 ∧ t.seconds < 100 ∧ t.frames < 100 then
    .ok { hours := ⟨t.hours, h.1⟩, minutes := ⟨t.minutes, h.2.1⟩, seconds := ⟨t.seconds, h.2.2.1⟩,
          frames := ⟨t.frames, h.2.2.2⟩, dropFrame := t.dropFrame, colorFrame := t.colorFrame }
  else .error .tcMalformed

/-- R148 TC_DECODE: the fields, or `TC_MALFORMED` where one is above 99. -/
def decodeTimecode (w : TimecodeBytes) : Except CodecError Timecode :=
  checkTimecode (decodeTimecodeFields w)

/-- R54, R122: a timecode's wire bytes in order, least significant field first. -/
def timecodeWire (w : TimecodeBytes) : Bytes := [w.f, w.s, w.m, w.h]

/-- R193: the first four data bytes of a timecode reply, `data[0..3]`, if there are four. -/
def timecodeBytes? : Bytes → Option TimecodeBytes
  | f :: s :: m :: h :: _ => some ⟨f, s, m, h⟩
  | _ => none

/-! ### Single-byte operands and the device type -/

/-- R121, R155 STATUS_SENSE_BYTE: `((start & 0xF) << 4) | (size & 0xF)`. -/
def senseByte (start size : Nat) : Byte := byteOf (((start &&& 0xF) <<< 4) ||| (size &&& 0xF))

/-- R120: the current-time-sense flag byte. -/
def timeSenseByte : TimeSense → Byte
  | .ltcTc => 0x01
  | .vitcTc => 0x02
  | .auto => 0x03
  | .timer1 => 0x04
  | .timer2 => 0x08
  | .ltcUb => 0x10
  | .vitcUb => 0x20

/-- R53, R125: the device type, big-endian: `(data[0] << 8) | data[1]`. -/
def deviceTypeValue (d0 d1 : Byte) : BitVec 16 := (d0.setWidth 16 <<< 8) ||| d1.setWidth 16

/-- R85: the eight `cmd2` values of the timecode replies. -/
def timecodeReplyCmd2 : List Byte := [0x04, 0x06, 0x08, 0x10, 0x11, 0x14, 0x16, 0x31]

end Sys2Proof.Machine
end

