-- ==== Sys2Proof/Machine/State.lean ====
section
/-! DEFINITION. The machine's state, its stops, and the state after reset (10_state.md, R290). -/

namespace Sys2Proof.Machine

/-- The seven state elements of the block (R20 to R27), the logs of its output ports (R33, R34, R37,
R38; log 8), the host requests that wait on the request port (R32; log 5) and the inputs still to come
(R6; log 1). -/
structure State where
  /-- R21 `SESS`. -/
  sess : Session
  /-- R22 `TX`. -/
  tx : Transmitter
  /-- R23 `ACC`, front first. -/
  acc : Bytes
  /-- R24 `AW`. -/
  aw : AckWait
  /-- R25 `LAST_STATUS`; `none` is `NONE`. -/
  lastStatus : Option (List StatusFlag)
  /-- R26 `LAST_TC`. -/
  lastTc : Option Timecode
  /-- R27 `LAST_DEVTYPE`. -/
  lastDevType : Option (BitVec 16)
  /-- R33: the events written to the event port, oldest first. -/
  events : List Event
  /-- R37: the results written to the result port, oldest first. -/
  results : List (HostOp × Result)
  /-- R34: the requests made of the link, oldest first. -/
  link : List LinkRequest
  /-- R38: the values the codec functions answered, oldest first. -/
  codec : List CodecValue
  /-- R32: the requests that wait on the host request port, oldest first. -/
  held : List Request
  /-- R6: the inputs still to come, in the order they are looked at. -/
  inputs : List Input
deriving DecidableEq, Repr

/-- The block never stops because of an error: "there is no fault state" (R270). No meaning raises a
fault, so there is none. -/
inductive Fault
deriving DecidableEq, Repr

/-- Why a step answers no next state. -/
inductive Refusal where
  /-- Raised by `exec` for an instruction that has no meaning yet (none is left). Safe: the model stops
  where the block goes on. -/
  | notModelled (mnemonic : String)
  /-- Raised by `step` for an input that is no instruction of the block: a code R128 does not use or that is
  another port's, operands outside an operation's domain (R28, R35, R231), or bytes handed over as a packet
  that are none (R76, R143). Safe: no claim is made about such an input (log 14). -/
  | undecodable (why : DecodeError)
  /-- Raised by WRITE_DONE and WRITE_ERROR while `TX = IDLE`: "there is no write to answer" (R287 (a),
  (b)); the spec gives the link no such move. Unsafe only for a link that breaks its duty: the spec says
  it "errs toward proving" (log 13). -/
  | noWriteOutstanding
  /-- Raised by RX with an empty chunk (R287 (c)). As for `noWriteOutstanding` (log 13). -/
  | emptyChunk
deriving DecidableEq, Repr

/-- R290: every element at its reset value, every port empty. The last two fields are the model's own:
nothing waits and no input is placed (log 1, log 5). -/
def State.reset : State where
  sess := .closed
  tx := .idle
  acc := []
  aw := .idle
  lastStatus := none
  lastTc := none
  lastDevType := none
  events := []
  results := []
  link := []
  codec := []
  held := []
  inputs := []

end Sys2Proof.Machine
end

