-- ==== Sys2Proof/Machine/Ops.lean ====
section
/-! DEFINITION. The named operations over the state that the meanings share: writing to a port (R10),
settling a wait (R232), delivering an event (R195), the host request port (R32, R221) and reset (R292).
The block has no traps: what a processor does by taking an exception, it does by writing a result and
going on (R270, R280), so `emitResult` and `settle` stand in that place. -/

namespace Sys2Proof.Machine

/-! ### Ports -/

/-- R10 `emit_event(e)`. -/
def emitEvent (e : Event) (s : State) : State := { s with events := s.events ++ [e] }

/-- R10 `emit_result(op, r)`. -/
def emitResult (op : HostOp) (r : Result) (s : State) : State :=
  { s with results := s.results ++ [(op, r)] }

/-- R10 `link_open`, `link_close`, `link_write`: a request to the link. -/
def askLink (q : LinkRequest) (s : State) : State := { s with link := s.link ++ [q] }

/-- R38: a codec function's answer on its port; no state element is written (R140). -/
def answerCodec (v : CodecValue) (s : State) : State := { s with codec := s.codec ++ [v] }

/-! ### The acknowledgement wait -/

/-- R232: an armed wait settles: `AW <- IDLE` and exactly one result for SEND_AWAIT; an idle wait gives
none. -/
def settle (r : Result) (s : State) : State :=
  match s.aw with
  | .armed _ _ => emitResult .sendAwait r { s with aw := .idle }
  | .idle => s

/-- R229 ARBITER_ACK. -/
def arbiterAck (s : State) : State := settle .acked s

/-- R230 ARBITER_NAK. -/
def arbiterNak (reasons : NakSet) (s : State) : State := settle (.nakked reasons) s

/-- R24: the number of the tick at which a wait of this limit ends, `max(limit, 1)` (R228). -/
def waitTicks (limit : Nat) : Nat := max limit 1

/-! ### Delivery -/

/-- R195, R196: the cache of the event's kind is overwritten, no other. -/
def updateCache (e : Event) (s : State) : State :=
  match e with
  | .status fs => { s with lastStatus := some fs }
  | .timecode tc => { s with lastTc := some tc }
  | .deviceType v => { s with lastDevType := some v }
  | .ack | .nak _ | .raw _ _ _ => s

/-- R195: the arbiter action of an event. An ACK or NAK settles whatever wait is armed, also one whose first
bytes came before the wait was armed (R62, R229, R232, R233, D18; the machine of R236's last clause, with the mark
that R20 keeps out of the block, is `markedMachine`: log 28). -/
def arbitrate (e : Event) (s : State) : State :=
  match e with
  | .ack => arbiterAck s
  | .nak rs => arbiterNak rs s
  | .status _ | .timecode _ | .deviceType _ | .raw _ _ _ => s

/-- R195 DELIVER: the cache, then the event, then the arbiter. -/
def deliver (e : Event) (s : State) : State := arbitrate e (emitEvent e (updateCache e s))

/-! ### The host request port -/

/-- R221: the ready condition of a request. -/
def ready (s : State) : Request → Bool
  | .openLink _ _ => true
  | .closeLink _ => s.tx == .idle
  | .send _ => s.tx == .idle
  | .sendAwait _ _ => s.tx == .idle && s.aw == .idle

/-- R222 OPEN. -/
def takeOpen (cfg : LinkConfig) (answer : LinkAnswer) (s : State) : State :=
  match s.sess with
  | .opened => emitResult .openLink (.errTransport .alreadyOpen) s
  | .closed =>
    let s := askLink (.openLink cfg) s
    match answer with
    | .fail => emitResult .openLink (.errTransport .openFailed) s
    | .ok => emitResult .openLink .ok
        { s with sess := .opened, acc := [], lastStatus := none, lastTc := none, lastDevType := none }

/-- R223 CLOSE. -/
def takeClose (answer : LinkAnswer) (s : State) : State :=
  match s.sess with
  | .closed => emitResult .closeLink (.errTransport .notOpen) s
  | .opened =>
    let s := askLink .closeLink s
    match answer with
    | .fail => emitResult .closeLink (.errTransport .closeFailed) s
    | .ok => emitResult .closeLink .ok { s with sess := .closed }

/-- R224 SEND. The bytes are written unchanged and unchecked. -/
def takeSend (bytes : Bytes) (s : State) : State :=
  match s.sess with
  | .closed => emitResult .send (.errTransport .notOpen) s
  | .opened => { askLink (.write bytes) s with tx := .busyPlain }

/-- R225 SEND_AWAIT: the wait is armed before the write is issued (R236, first two sentences). Arming does
not mark the bytes already in `ACC` (R20, R180; `remark` does, beside the state: log 28). -/
def takeSendAwait (bytes : Bytes) (limit : Nat) (s : State) : State :=
  match s.sess with
  | .closed => emitResult .sendAwait (.errTransport .notOpen) s
  | .opened => { askLink (.write bytes) { s with aw := .armed limit 0 } with tx := .busyAwait }

/-- Take a request whose ready condition holds (R222 to R225). -/
def take : Request → State → State
  | .openLink cfg answer => takeOpen cfg answer
  | .closeLink answer => takeClose answer
  | .send bytes => takeSend bytes
  | .sendAwait bytes limit => takeSendAwait bytes limit

/-- R32: a request that is not ready "waits on the port, with no effect, until the condition holds". -/
def hold (r : Request) (s : State) : State := { s with held := s.held ++ [r] }

/-- A request presented on the port: taken if it is ready, else held (R221). -/
def present (r : Request) (s : State) : State := if ready s r then take r s else hold r s

/-! ### Reset -/

/-- R292: reset in any state gives the state of R290 at once; the inputs still to come are the outside
world's (log 19). -/
def applyReset (rest : List Input) : State := { State.reset with inputs := rest }

end Sys2Proof.Machine
end

