-- ==== Sys2Proof/Machine/Codec.lean ====
section
/-! DEFINITION. The meanings of the eleven pure codec functions (40_codec.md). Each answers a value or an
error on the codec port and writes no state element (R38, R140). A meaning that reads a parameter of R5 is
written for every `Params` (`exec…In`); the arm of `exec` takes it at the defaults (log 9). -/

namespace Sys2Proof.Machine

/-- An answer or an error on the codec port (R10 "returns error `E` instead of a value"). -/
def answerOr {α : Type} (form : α → CodecValue) (r : Except CodecError α) (s : State) : State :=
  match r with
  | .ok a => answerCodec (form a) s
  | .error e => answerCodec (.error e) s

/-- CSUM (R141). -/
def execCsum (bytes : Bytes) (s : State) : Host.Outcome State Fault Refusal :=
  .next (answerCodec (.checksum (checksum bytes)) s)

/-- ENCODE (R142). -/
def execEncode (cmd1 cmd2 : Byte) (data : Bytes) (s : State) : Host.Outcome State Fault Refusal :=
  .next (answerOr .packet (encodePacket cmd1 cmd2 data) s)

/-- PARSE (R143), in the block built for `P`. -/
def execParseIn (P : Params) (bytes : Bytes) (s : State) : Host.Outcome State Fault Refusal :=
  .next (answerOr .fields (parse P bytes) s)

/-- PARSE (R143). -/
def execParse (bytes : Bytes) (s : State) : Host.Outcome State Fault Refusal := execParseIn params bytes s

/-- BCD_PACK (R144). -/
def execBcdPack (v : Nat) (s : State) : Host.Outcome State Fault Refusal :=
  .next (answerCodec (.bcd (bcd v)) s)

/-- BCD_UNPACK (R145). -/
def execBcdUnpack (b : Byte) (s : State) : Host.Outcome State Fault Refusal :=
  .next (answerCodec (.unbcd (unbcd b)) s)

/-- CLAMP99 (R146). -/
def execClamp99 (v : Nat) (s : State) : Host.Outcome State Fault Refusal :=
  .next (answerCodec (.clamped (clampTo99 v)) s)

/-- TC_ENCODE (R147). -/
def execTcEncode (tc : TimecodeInput) (s : State) : Host.Outcome State Fault Refusal :=
  .next (answerCodec (.timecodeWire (encodeTimecode tc)) s)

/-- TC_DECODE (R148). -/
def execTcDecode (wire : TimecodeBytes) (s : State) : Host.Outcome State Fault Refusal :=
  .next (answerOr .timecode (decodeTimecode wire) s)

/-- NAK_DECODE (R151), in the block built for `P`. -/
def execNakDecodeIn (P : Params) (b : Byte) (s : State) : Host.Outcome State Fault Refusal :=
  .next (answerCodec (.reasons (decodeNak P.nakTable b)) s)

/-- NAK_DECODE (R151). -/
def execNakDecode (b : Byte) (s : State) : Host.Outcome State Fault Refusal := execNakDecodeIn params b s

/-- STATUS_DECODE (R153), in the block built for `P`. -/
def execStatusDecodeIn (P : Params) (data : Bytes) (s : State) : Host.Outcome State Fault Refusal :=
  .next (answerCodec (.flags (decodeStatus P.status data)) s)

/-- STATUS_DECODE (R153). -/
def execStatusDecode (data : Bytes) (s : State) : Host.Outcome State Fault Refusal :=
  execStatusDecodeIn params data s

/-- STATUS_SENSE_BYTE (R155). -/
def execStatusSenseByte (start size : Nat) (s : State) : Host.Outcome State Fault Refusal :=
  .next (answerCodec (.senseByte (senseByte start size)) s)

end Sys2Proof.Machine
end

