-- ==== Sys2Proof/Machine/Command.lean ====
section
/-! DEFINITION. The meanings of the 29 catalogue commands (R90 to R119). "Each catalogue name … stands for
`ENC` with that command's `cmd1` and `cmd2`" (R127): the command's packet on the codec port, or
INVALID_ARGUMENT for more than 15 data bytes (R142). What a device does with it is outside the block
(R89). -/

namespace Sys2Proof.Machine

/-- R127: `NAME [..]` means `ENC cmd1, cmd2, [..]`. -/
def callCommand (cmd1 cmd2 : Byte) (data : Bytes) (s : State) : Host.Outcome State Fault Refusal :=
  .next (answerOr .packet (encodePacket cmd1 cmd2 data) s)

/-- LOCAL_DISABLE (R90). -/
def execLocalDisable (data : Bytes) (s : State) : Host.Outcome State Fault Refusal :=
  callCommand 0x00#8 0x0C#8 data s

/-- DEVICE_TYPE (R91). -/
def execDeviceType (data : Bytes) (s : State) : Host.Outcome State Fault Refusal :=
  callCommand 0x00#8 0x11#8 data s

/-- LOCAL_ENABLE (R92). -/
def execLocalEnable (data : Bytes) (s : State) : Host.Outcome State Fault Refusal :=
  callCommand 0x00#8 0x1D#8 data s

/-- STOP (R93). -/
def execStop (data : Bytes) (s : State) : Host.Outcome State Fault Refusal :=
  callCommand 0x20#8 0x00#8 data s

/-- PLAY (R94). -/
def execPlay (data : Bytes) (s : State) : Host.Outcome State Fault Refusal :=
  callCommand 0x20#8 0x01#8 data s

/-- RECORD (R95). -/
def execRecord (data : Bytes) (s : State) : Host.Outcome State Fault Refusal :=
  callCommand 0x20#8 0x02#8 data s

/-- STANDBY_OFF (R96). -/
def execStandbyOff (data : Bytes) (s : State) : Host.Outcome State Fault Refusal :=
  callCommand 0x20#8 0x04#8 data s

/-- STANDBY_ON (R97). -/
def execStandbyOn (data : Bytes) (s : State) : Host.Outcome State Fault Refusal :=
  callCommand 0x20#8 0x05#8 data s

/-- EJECT (R98). -/
def execEject (data : Bytes) (s : State) : Host.Outcome State Fault Refusal :=
  callCommand 0x20#8 0x0F#8 data s

/-- FAST_FWD (R99). -/
def execFastFwd (data : Bytes) (s : State) : Host.Outcome State Fault Refusal :=
  callCommand 0x20#8 0x10#8 data s

/-- JOG_FWD (R100). -/
def execJogFwd (data : Bytes) (s : State) : Host.Outcome State Fault Refusal :=
  callCommand 0x20#8 0x11#8 data s

/-- VAR_FWD (R101). -/
def execVarFwd (data : Bytes) (s : State) : Host.Outcome State Fault Refusal :=
  callCommand 0x20#8 0x12#8 data s

/-- SHUTTLE_FWD (R102). -/
def execShuttleFwd (data : Bytes) (s : State) : Host.Outcome State Fault Refusal :=
  callCommand 0x20#8 0x13#8 data s

/-- FRAME_STEP_FWD (R103). -/
def execFrameStepFwd (data : Bytes) (s : State) : Host.Outcome State Fault Refusal :=
  callCommand 0x20#8 0x14#8 data s

/-- REWIND (R104). -/
def execRewind (data : Bytes) (s : State) : Host.Outcome State Fault Refusal :=
  callCommand 0x20#8 0x20#8 data s

/-- JOG_REV (R105). -/
def execJogRev (data : Bytes) (s : State) : Host.Outcome State Fault Refusal :=
  callCommand 0x20#8 0x21#8 data s

/-- VAR_REV (R106). -/
def execVarRev (data : Bytes) (s : State) : Host.Outcome State Fault Refusal :=
  callCommand 0x20#8 0x22#8 data s

/-- SHUTTLE_REV (R107). -/
def execShuttleRev (data : Bytes) (s : State) : Host.Outcome State Fault Refusal :=
  callCommand 0x20#8 0x23#8 data s

/-- FRAME_STEP_REV (R108). -/
def execFrameStepRev (data : Bytes) (s : State) : Host.Outcome State Fault Refusal :=
  callCommand 0x20#8 0x24#8 data s

/-- PREROLL (R109). -/
def execPreroll (data : Bytes) (s : State) : Host.Outcome State Fault Refusal :=
  callCommand 0x20#8 0x30#8 data s

/-- CUE_UP_WITH_DATA (R110). -/
def execCueUpWithData (data : Bytes) (s : State) : Host.Outcome State Fault Refusal :=
  callCommand 0x20#8 0x31#8 data s

/-- SYNC_PLAY (R111). -/
def execSyncPlay (data : Bytes) (s : State) : Host.Outcome State Fault Refusal :=
  callCommand 0x20#8 0x34#8 data s

/-- PREVIEW (R112). -/
def execPreview (data : Bytes) (s : State) : Host.Outcome State Fault Refusal :=
  callCommand 0x20#8 0x40#8 data s

/-- REVIEW (R113). -/
def execReview (data : Bytes) (s : State) : Host.Outcome State Fault Refusal :=
  callCommand 0x20#8 0x41#8 data s

/-- TC_GEN_SENSE (R115). -/
def execTcGenSense (data : Bytes) (s : State) : Host.Outcome State Fault Refusal :=
  callCommand 0x60#8 0x0A#8 data s

/-- CURRENT_TIME_SENSE (R116). -/
def execCurrentTimeSense (data : Bytes) (s : State) : Host.Outcome State Fault Refusal :=
  callCommand 0x60#8 0x0C#8 data s

/-- IN_DATA_SENSE (R117). -/
def execInDataSense (data : Bytes) (s : State) : Host.Outcome State Fault Refusal :=
  callCommand 0x60#8 0x10#8 data s

/-- OUT_DATA_SENSE (R118). -/
def execOutDataSense (data : Bytes) (s : State) : Host.Outcome State Fault Refusal :=
  callCommand 0x60#8 0x11#8 data s

/-- STATUS_SENSE (R119). -/
def execStatusSense (data : Bytes) (s : State) : Host.Outcome State Fault Refusal :=
  callCommand 0x60#8 0x20#8 data s

end Sys2Proof.Machine
end

