-- ==== Sys2Proof/Machine/Resync.lean ====
section
/-! DEFINITION. The stream resynchronizer (41_resync.md): framing by checksum search, interpretation,
the receive input, and the meanings of RX, EXTRACT, FRONT_MATCH, INTERPRET, DELIVER, ARBITER_ACK and
ARBITER_NAK. -/

namespace Sys2Proof.Machine

/-! ### Framing -/

/-- R184: whether the first `l` bytes of `a` end in the checksum of the bytes before. -/
def matchesAt (a : Bytes) (l : Nat) : Bool := a[l - 1]? == some (checksum (a.take (l - 1)))

/-- R184: the candidate lengths at the front of a string of `n` bytes, `3 .. min(P_MAX_LEN, n)`. -/
def candidates (P : Params) (n : Nat) : List Nat := List.range' 3 (min P.maxLen n - 2)

/-- R184 FRONT_MATCH: the smallest candidate length at offset `o` whose last byte matches. -/
def frontMatch (P : Params) (a : Bytes) (o : Nat) : Option Nat :=
  (candidates P (a.length - o)).find? (matchesAt (a.drop o))

/-- R185: whether some offset `1 .. n-3` holds a match. -/
def laterMatch (P : Params) (a : Bytes) : Bool :=
  (List.range' 1 (a.length - 3)).any fun o => (frontMatch P a o).isSome

/-- What one turn of the extraction loop does (R183): stop at (a) or (e), accept a packet (b), drop the
front byte (c, d). -/
inductive Turn where
  | stop
  | accept (l : Nat)
  | drop
deriving DecidableEq, Repr

/-- R183: one turn of the loop, as a function of `ACC`. -/
def turn (P : Params) (acc : Bytes) : Turn :=
  if acc.length < 3 then .stop
  else match frontMatch P acc 0 with
    | some l => .accept l
    | none =>
      if acc.length ≥ P.maxLen then .drop
      else if laterMatch P acc then .drop
      else .stop

/-! ### Interpretation -/

/-- R193: the event of a timecode-keyed packet: `Timecode` when there are four data bytes and they decode,
else `Raw`. -/
def timecodeEvent (hdr cmd2 : Byte) (data : Bytes) : Event :=
  match timecodeBytes? data with
  | none => .raw hdr cmd2 data
  | some w =>
    match decodeTimecode w with
    | .ok tc => .timecode tc
    | .error _ => .raw hdr cmd2 data

/-- R191: the event of a device-type-keyed packet. -/
def deviceTypeEvent (hdr cmd2 : Byte) (data : Bytes) : Event :=
  match data with
  | d0 :: d1 :: _ => .deviceType (deviceTypeValue d0 d1)
  | _ => .raw hdr cmd2 data

/-- R190: the event of a NAK packet; empty data reads as `0x00`. -/
def nakEvent (P : Params) (data : Bytes) : Event := .nak (decodeNak P.nakTable (data.headD 0x00#8))

/-- R192: the event of a status packet. -/
def statusEvent (P : Params) (data : Bytes) : Event := .status (decodeStatus P.status data)

/-- R188: the rows in their order; the first that holds gives the event. -/
def classify (P : Params) (p : Packet) : Event :=
  if p.hdr = 0x10#8 ∧ p.cmd2 = 0x01#8 then .ack
  else if p.hdr = 0x10#8 ∧ p.cmd2 = 0x12#8 then nakEvent P p.data
  else if p.hdr = 0x12#8 ∧ p.cmd2 = 0x11#8 then deviceTypeEvent p.hdr p.cmd2 p.data
  else if p.cls = 0x70#8 ∧ p.cmd2 = 0x20#8 then statusEvent P p.data
  else if p.cls = 0x70#8 ∧ p.cmd2 ∈ timecodeReplyCmd2 then timecodeEvent p.hdr p.cmd2 p.data
  else .raw p.hdr p.cmd2 p.data

/-- R188 INTERPRET. On a string that is no well-formed packet its `parse` raises NOT_A_PACKET, which
never happens to a framed packet (R143; log 20). -/
def interpret (P : Params) (p : Bytes) : Except CodecError Event := (parse P p).map (classify P)

/-! ### Extraction and receiving -/

/-- R183 (b): interpret and deliver one framed packet. -/
def deliverPacket (P : Params) (p : Bytes) (s : State) : State :=
  match interpret P p with
  | .ok e => deliver e s
  | .error _ => s

/-- R183: the loop. Each turn but the last shortens `ACC`, so as many turns as `ACC` has bytes are
enough. -/
def extractLoop (P : Params) : Nat → State → State
  | 0, s => s
  | k + 1, s =>
    match turn P s.acc with
    | .stop => s
    | .accept l => extractLoop P k (deliverPacket P (s.acc.take l) { s with acc := s.acc.drop l })
    | .drop => extractLoop P k { s with acc := s.acc.drop 1 }

/-- R183 EXTRACT. -/
def extract (P : Params) (s : State) : State := extractLoop P s.acc.length s

/-- R181, R182: one received byte; a full accumulator is extracted from first. -/
def receiveByte (P : Params) (s : State) (b : Byte) : State :=
  let s := if P.accCap = some s.acc.length then extract P s else s
  { s with acc := s.acc ++ [b] }

/-- R181 RX; while closed the chunk is discarded (R198). -/
def receive (P : Params) (chunk : Bytes) (s : State) : State :=
  match s.sess with
  | .closed => s
  | .opened => extract P (chunk.foldl (receiveByte P) s)

/-! ### Meanings -/

/-- RX (R181), in the block built for `P`. An empty chunk is no input of the block (R287 (c); log 13). -/
def execRxIn (P : Params) (chunk : Bytes) (s : State) : Host.Outcome State Fault Refusal :=
  match chunk with
  | [] => .refused .emptyChunk
  | _ :: _ => .next (receive P chunk s)

/-- RX (R181). -/
def execRx (chunk : Bytes) (s : State) : Host.Outcome State Fault Refusal := execRxIn params chunk s

/-- EXTRACT (R183), run on its own (log 7), in the block built for `P`. -/
def execExtractIn (P : Params) (s : State) : Host.Outcome State Fault Refusal := .next (extract P s)

/-- EXTRACT (R183). -/
def execExtract (s : State) : Host.Outcome State Fault Refusal := execExtractIn params s

/-- FRONT_MATCH (R184) on `ACC`, in the block built for `P`; a pure function, its value on the codec port
(log 7). -/
def execFrontMatchIn (P : Params) (offset : Nat) (s : State) : Host.Outcome State Fault Refusal :=
  .next (answerCodec (.matchLength (frontMatch P s.acc offset)) s)

/-- FRONT_MATCH (R184). -/
def execFrontMatch (offset : Nat) (s : State) : Host.Outcome State Fault Refusal :=
  execFrontMatchIn params offset s

/-- INTERPRET (R188), in the block built for `P`; pure, its value on the codec port (log 7, log 20). -/
def execInterpretIn (P : Params) (packet : Bytes) (s : State) : Host.Outcome State Fault Refusal :=
  match interpret P packet with
  | .ok e => .next (answerCodec (.event e) s)
  | .error e => .next (answerCodec (.error e) s)

/-- INTERPRET (R188). -/
def execInterpret (packet : Bytes) (s : State) : Host.Outcome State Fault Refusal :=
  execInterpretIn params packet s

/-- DELIVER (R195). -/
def execDeliver (event : Event) (s : State) : Host.Outcome State Fault Refusal :=
  .next (deliver event s)

/-- ARBITER_ACK (R229). -/
def execArbiterAck (s : State) : Host.Outcome State Fault Refusal := .next (arbiterAck s)

/-- ARBITER_NAK (R230). -/
def execArbiterNak (reasons : NakSet) (s : State) : Host.Outcome State Fault Refusal :=
  .next (arbiterNak reasons s)

end Sys2Proof.Machine
end

