-- ==== Sys2Proof/Machine/Reply.lean ====
section
/-! DEFINITION. The meanings of the 13 reply rows (R81 to R86, R189 to R194): a packet with the row's key
has been framed, and its event is delivered (R188, R195). RX reaches the same events through
`extract`; a row run on its own is one turn of that loop (log 7). -/

namespace Sys2Proof.Machine

/-- ACK (R189): `Ack`, whatever its data. -/
def execAck (_data : Bytes) (s : State) : Host.Outcome State Fault Refusal := .next (deliver .ack s)

/-- NAK (R190), in the block built for `P`: `Nak` of the first data byte's reasons. -/
def execNakIn (P : Params) (data : Bytes) (s : State) : Host.Outcome State Fault Refusal :=
  .next (deliver (nakEvent P data) s)

/-- NAK (R190). -/
def execNak (data : Bytes) (s : State) : Host.Outcome State Fault Refusal := execNakIn params data s

/-- DEVICE_TYPE_REPLY (R191): the big-endian value, or `Raw` with fewer than two data bytes. -/
def execDeviceTypeReply (data : Bytes) (s : State) : Host.Outcome State Fault Refusal :=
  .next (deliver (deviceTypeEvent 0x12#8 0x11#8 data) s)

/-- STATUS_REPLY (R192), in the block built for `P`: the flags of the data bytes, for any length nibble and
data length. -/
def execStatusReplyIn (P : Params) (_len : BitVec 4) (data : Bytes) (s : State) :
    Host.Outcome State Fault Refusal :=
  .next (deliver (statusEvent P data) s)

/-- STATUS_REPLY (R192). -/
def execStatusReply (len : BitVec 4) (data : Bytes) (s : State) : Host.Outcome State Fault Refusal :=
  execStatusReplyIn params len data s

/-- R193: a packet of class `0x7` with a timecode `cmd2`. -/
def timecodeReply (cmd2 : Byte) (len : BitVec 4) (data : Bytes) (s : State) :
    Host.Outcome State Fault Refusal :=
  .next (deliver (timecodeEvent (senseReturnHeader len) cmd2 data) s)

/-- TIMECODE_REPLY_04 (R193). -/
def execTimecodeReply04 (len : BitVec 4) (data : Bytes) (s : State) : Host.Outcome State Fault Refusal :=
  timecodeReply 0x04#8 len data s

/-- TIMECODE_REPLY_06 (R193). -/
def execTimecodeReply06 (len : BitVec 4) (data : Bytes) (s : State) : Host.Outcome State Fault Refusal :=
  timecodeReply 0x06#8 len data s

/-- TIMECODE_REPLY_08 (R193). -/
def execTimecodeReply08 (len : BitVec 4) (data : Bytes) (s : State) : Host.Outcome State Fault Refusal :=
  timecodeReply 0x08#8 len data s

/-- TIMECODE_REPLY_10 (R193). -/
def execTimecodeReply10 (len : BitVec 4) (data : Bytes) (s : State) : Host.Outcome State Fault Refusal :=
  timecodeReply 0x10#8 len data s

/-- TIMECODE_REPLY_11 (R193). -/
def execTimecodeReply11 (len : BitVec 4) (data : Bytes) (s : State) : Host.Outcome State Fault Refusal :=
  timecodeReply 0x11#8 len data s

/-- TIMECODE_REPLY_14 (R193). -/
def execTimecodeReply14 (len : BitVec 4) (data : Bytes) (s : State) : Host.Outcome State Fault Refusal :=
  timecodeReply 0x14#8 len data s

/-- TIMECODE_REPLY_16 (R193). -/
def execTimecodeReply16 (len : BitVec 4) (data : Bytes) (s : State) : Host.Outcome State Fault Refusal :=
  timecodeReply 0x16#8 len data s

/-- TIMECODE_REPLY_31 (R193). -/
def execTimecodeReply31 (len : BitVec 4) (data : Bytes) (s : State) : Host.Outcome State Fault Refusal :=
  timecodeReply 0x31#8 len data s

/-- RAW_REPLY (R194): `Raw` with the whole header byte. -/
def execRawReply (hdr cmd2 : Byte) (data : Bytes) (s : State) : Host.Outcome State Fault Refusal :=
  .next (deliver (.raw hdr cmd2 data) s)

end Sys2Proof.Machine
end

