-- ==== Sys2Proof/Machine/Session.lean ====
section
/-! DEFINITION. The session (42_session.md): the meanings of OPEN, CLOSE, SEND, SEND_AWAIT, WRITE_DONE,
WRITE_ERROR and TICK. -/

namespace Sys2Proof.Machine

/-- OPEN (R222); always ready. -/
def execOpen (cfg : LinkConfig) (answer : LinkAnswer) (s : State) : Host.Outcome State Fault Refusal :=
  .next (present (.openLink cfg answer) s)

/-- CLOSE (R223); held while a write is in progress. -/
def execClose (answer : LinkAnswer) (s : State) : Host.Outcome State Fault Refusal :=
  .next (present (.closeLink answer) s)

/-- SEND (R224); held while a write is in progress. -/
def execSend (bytes : Bytes) (s : State) : Host.Outcome State Fault Refusal :=
  .next (present (.send bytes) s)

/-- SEND_AWAIT (R225); held while a write is in progress or a wait is armed. -/
def execSendAwait (bytes : Bytes) (timeoutMs : Nat) (s : State) : Host.Outcome State Fault Refusal :=
  .next (present (.sendAwait bytes timeoutMs) s)

/-- WRITE_DONE (R226). With `TX = IDLE` it is no input of the block (R287 (a); log 13). -/
def execWriteDone (s : State) : Host.Outcome State Fault Refusal :=
  match s.tx with
  | .idle => .refused .noWriteOutstanding
  | .busyPlain => .next (emitResult .send .ok { s with tx := .idle })
  | .busyAwait => .next { s with tx := .idle }

/-- WRITE_ERROR (R227). With `TX = IDLE` it is no input of the block (R287 (a); log 13). -/
def execWriteError (s : State) : Host.Outcome State Fault Refusal :=
  match s.tx with
  | .idle => .refused .noWriteOutstanding
  | .busyPlain => .next (emitResult .send (.errTransport .writeFailed) { s with tx := .idle })
  | .busyAwait => .next (settle (.errTransport .writeFailed) { s with tx := .idle })

/-- R228: one tick of the time base. -/
def countTick (s : State) : State :=
  match s.aw with
  | .idle => s
  | .armed limit elapsed =>
    if elapsed + 1 ≥ waitTicks limit then settle .timedOut s
    else { s with aw := .armed limit (elapsed + 1) }

/-- TICK (R228); it counts in every state. -/
def execTick (s : State) : Host.Outcome State Fault Refusal := .next (countTick s)

end Sys2Proof.Machine
end

