-- ==== Sys2Proof/Syntax.lean ====
section
/-! DEFINITION. The instructions: one constructor for each of the 67 rows of spec/opcode_table.json. -/

namespace Sys2Proof

/-- COMMAND rows carry the caller's data bytes (R79, R89). REPLY rows carry the packet's fields that the
key leaves free: the length nibble where the mask is 0xF0FF, and the data. OPERATION rows carry their
operands. -/
inductive Instr where
  -- COMMAND rows (R90 to R119)
  | localDisable (data : Bytes)
  | deviceType (data : Bytes)
  | localEnable (data : Bytes)
  | stop (data : Bytes)
  | play (data : Bytes)
  | record (data : Bytes)
  | standbyOff (data : Bytes)
  | standbyOn (data : Bytes)
  | eject (data : Bytes)
  | fastFwd (data : Bytes)
  | jogFwd (data : Bytes)
  | varFwd (data : Bytes)
  | shuttleFwd (data : Bytes)
  | frameStepFwd (data : Bytes)
  | rewind (data : Bytes)
  | jogRev (data : Bytes)
  | varRev (data : Bytes)
  | shuttleRev (data : Bytes)
  | frameStepRev (data : Bytes)
  | preroll (data : Bytes)
  | cueUpWithData (data : Bytes)
  | syncPlay (data : Bytes)
  | preview (data : Bytes)
  | review (data : Bytes)
  | tcGenSense (data : Bytes)
  | currentTimeSense (data : Bytes)
  | inDataSense (data : Bytes)
  | outDataSense (data : Bytes)
  | statusSense (data : Bytes)
  -- REPLY rows (R81 to R86, R189 to R194)
  | ack (data : Bytes)
  | nak (data : Bytes)
  | deviceTypeReply (data : Bytes)
  | statusReply (len : BitVec 4) (data : Bytes)
  | timecodeReply04 (len : BitVec 4) (data : Bytes)
  | timecodeReply06 (len : BitVec 4) (data : Bytes)
  | timecodeReply08 (len : BitVec 4) (data : Bytes)
  | timecodeReply10 (len : BitVec 4) (data : Bytes)
  | timecodeReply11 (len : BitVec 4) (data : Bytes)
  | timecodeReply14 (len : BitVec 4) (data : Bytes)
  | timecodeReply16 (len : BitVec 4) (data : Bytes)
  | timecodeReply31 (len : BitVec 4) (data : Bytes)
  | rawReply (hdr cmd2 : Byte) (data : Bytes)
  -- OPERATION rows (R128)
  | openLink (cfg : LinkConfig) (answer : LinkAnswer)
  | closeLink (answer : LinkAnswer)
  | send (bytes : Bytes)
  | sendAwait (bytes : Bytes) (timeoutMs : Nat)
  | rx (chunk : Bytes)
  | writeDone
  | writeError
  | tick
  | csum (bytes : Bytes)
  | encodePkt (cmd1 cmd2 : Byte) (data : Bytes)
  | parsePkt (bytes : Bytes)
  | bcdPack (v : Nat)
  | bcdUnpack (b : Byte)
  | clamp99 (v : Nat)
  | tcEncode (tc : TimecodeInput)
  | tcDecode (wire : TimecodeBytes)
  | nakDecode (b : Byte)
  | statusDecode (data : Bytes)
  | statusSenseByte (start size : Nat)
  | extract
  | frontMatch (offset : Nat)
  | interpret (packet : Bytes)
  | deliver (event : Event)
  | arbiterAck
  | arbiterNak (reasons : NakSet)
deriving DecidableEq, Repr

end Sys2Proof
end

