-- ==== Sys2Proof/Machine/Dispatch.lean ====
section
/-! DEFINITION. Each instruction to its meaning. -/

namespace Sys2Proof.Machine

-- One arm per constructor of Instr.
def exec (i : Instr) (s : State) : Host.Outcome State Fault Refusal :=
  match i with
  | .localDisable data => Sys2Proof.Machine.execLocalDisable data s
  | .deviceType data => Sys2Proof.Machine.execDeviceType data s
  | .localEnable data => Sys2Proof.Machine.execLocalEnable data s
  | .stop data => Sys2Proof.Machine.execStop data s
  | .play data => Sys2Proof.Machine.execPlay data s
  | .record data => Sys2Proof.Machine.execRecord data s
  | .standbyOff data => Sys2Proof.Machine.execStandbyOff data s
  | .standbyOn data => Sys2Proof.Machine.execStandbyOn data s
  | .eject data => Sys2Proof.Machine.execEject data s
  | .fastFwd data => Sys2Proof.Machine.execFastFwd data s
  | .jogFwd data => Sys2Proof.Machine.execJogFwd data s
  | .varFwd data => Sys2Proof.Machine.execVarFwd data s
  | .shuttleFwd data => Sys2Proof.Machine.execShuttleFwd data s
  | .frameStepFwd data => Sys2Proof.Machine.execFrameStepFwd data s
  | .rewind data => Sys2Proof.Machine.execRewind data s
  | .jogRev data => Sys2Proof.Machine.execJogRev data s
  | .varRev data => Sys2Proof.Machine.execVarRev data s
  | .shuttleRev data => Sys2Proof.Machine.execShuttleRev data s
  | .frameStepRev data => Sys2Proof.Machine.execFrameStepRev data s
  | .preroll data => Sys2Proof.Machine.execPreroll data s
  | .cueUpWithData data => Sys2Proof.Machine.execCueUpWithData data s
  | .syncPlay data => Sys2Proof.Machine.execSyncPlay data s
  | .preview data => Sys2Proof.Machine.execPreview data s
  | .review data => Sys2Proof.Machine.execReview data s
  | .tcGenSense data => Sys2Proof.Machine.execTcGenSense data s
  | .currentTimeSense data => Sys2Proof.Machine.execCurrentTimeSense data s
  | .inDataSense data => Sys2Proof.Machine.execInDataSense data s
  | .outDataSense data => Sys2Proof.Machine.execOutDataSense data s
  | .statusSense data => Sys2Proof.Machine.execStatusSense data s
  | .ack data => Sys2Proof.Machine.execAck data s
  | .nak data => Sys2Proof.Machine.execNak data s
  | .deviceTypeReply data => Sys2Proof.Machine.execDeviceTypeReply data s
  | .statusReply len data => Sys2Proof.Machine.execStatusReply len data s
  | .timecodeReply04 len data => Sys2Proof.Machine.execTimecodeReply04 len data s
  | .timecodeReply06 len data => Sys2Proof.Machine.execTimecodeReply06 len data s
  | .timecodeReply08 len data => Sys2Proof.Machine.execTimecodeReply08 len data s
  | .timecodeReply10 len data => Sys2Proof.Machine.execTimecodeReply10 len data s
  | .timecodeReply11 len data => Sys2Proof.Machine.execTimecodeReply11 len data s
  | .timecodeReply14 len data => Sys2Proof.Machine.execTimecodeReply14 len data s
  | .timecodeReply16 len data => Sys2Proof.Machine.execTimecodeReply16 len data s
  | .timecodeReply31 len data => Sys2Proof.Machine.execTimecodeReply31 len data s
  | .rawReply hdr cmd2 data => Sys2Proof.Machine.execRawReply hdr cmd2 data s
  | .openLink cfg answer => Sys2Proof.Machine.execOpen cfg answer s
  | .closeLink answer => Sys2Proof.Machine.execClose answer s
  | .send bytes => Sys2Proof.Machine.execSend bytes s
  | .sendAwait bytes timeoutMs => Sys2Proof.Machine.execSendAwait bytes timeoutMs s
  | .rx chunk => Sys2Proof.Machine.execRx chunk s
  | .writeDone => Sys2Proof.Machine.execWriteDone s
  | .writeError => Sys2Proof.Machine.execWriteError s
  | .tick => Sys2Proof.Machine.execTick s
  | .csum bytes => Sys2Proof.Machine.execCsum bytes s
  | .encodePkt cmd1 cmd2 data => Sys2Proof.Machine.execEncode cmd1 cmd2 data s
  | .parsePkt bytes => Sys2Proof.Machine.execParse bytes s
  | .bcdPack v => Sys2Proof.Machine.execBcdPack v s
  | .bcdUnpack b => Sys2Proof.Machine.execBcdUnpack b s
  | .clamp99 v => Sys2Proof.Machine.execClamp99 v s
  | .tcEncode tc => Sys2Proof.Machine.execTcEncode tc s
  | .tcDecode wire => Sys2Proof.Machine.execTcDecode wire s
  | .nakDecode b => Sys2Proof.Machine.execNakDecode b s
  | .statusDecode data => Sys2Proof.Machine.execStatusDecode data s
  | .statusSenseByte start size => Sys2Proof.Machine.execStatusSenseByte start size s
  | .extract => Sys2Proof.Machine.execExtract s
  | .frontMatch offset => Sys2Proof.Machine.execFrontMatch offset s
  | .interpret packet => Sys2Proof.Machine.execInterpret packet s
  | .deliver event => Sys2Proof.Machine.execDeliver event s
  | .arbiterAck => Sys2Proof.Machine.execArbiterAck s
  | .arbiterNak reasons => Sys2Proof.Machine.execArbiterNak reasons s

end Sys2Proof.Machine
end

