-- ==== Sys2Proof/WellFormed.lean ====
section
/-! DEFINITION. Which terms are instructions the spec gives: the bounds on a reply packet, the
reply keys, the non-empty chunk, the limit's width and the values an `Event` can take. -/

namespace Sys2Proof

/-- R81 to R85: whether one of the twelve named reply rows has this key (with its data-length condition
left aside: the named row itself falls through to `Raw`, R191, R193). -/
def namedReplyKey (hdr cmd2 : Byte) : Bool :=
  (hdr == 0x10#8 && (cmd2 == 0x01#8 || cmd2 == 0x12#8))
    || (hdr == 0x12#8 && cmd2 == 0x11#8)
    || (hdr &&& 0xF0#8 == 0x70#8
        && [0x20#8, 0x04#8, 0x06#8, 0x08#8, 0x10#8, 0x11#8, 0x14#8, 0x16#8, 0x31#8].contains cmd2)

/-- R28, R30: whether a value is one the type `Event` of the spec has: a set of status flags of
`P_STATUS_FLAGS`, raw data of at most `P_MAX_LEN - 3` bytes. -/
def validEvent (P : Params) : Event → Bool
  | .status fs => Machine.isFlagSet P.status fs
  | .raw _ _ data => decide (data.length + 3 ≤ P.maxLen)
  | .ack | .nak _ | .deviceType _ | .timecode _ => true

/-- R231: whether a limit fits in `P_TIMEOUT_BITS` bits; every limit does in unbounded naturals. -/
def limitFits (P : Params) (limit : Nat) : Bool :=
  match P.timeoutBits with
  | none => true
  | some w => decide (limit < 2 ^ w)

/-- A COMMAND is a call of ENCODE, which takes any data (R127, R142). A REPLY is a packet of at most
`P_MAX_LEN` bytes (R75); RAW_REPLY is one that no named row matches (R86). A chunk is non-empty (R35), a
limit fits its width (R231), an event is an `Event` (R28). -/
def wellFormedIn (P : Params) : Instr → Bool
  | .localDisable _ | .deviceType _ | .localEnable _ | .stop _ | .play _
  | .record _ | .standbyOff _ | .standbyOn _ | .eject _ | .fastFwd _
  | .jogFwd _ | .varFwd _ | .shuttleFwd _ | .frameStepFwd _ | .rewind _
  | .jogRev _ | .varRev _ | .shuttleRev _ | .frameStepRev _ | .preroll _
  | .cueUpWithData _ | .syncPlay _ | .preview _ | .review _ | .tcGenSense _
  | .currentTimeSense _ | .inDataSense _ | .outDataSense _ | .statusSense _ => true
  | .ack data | .nak data | .deviceTypeReply data => decide (data.length + 3 ≤ P.maxLen)
  | .statusReply _ data | .timecodeReply04 _ data | .timecodeReply06 _ data
  | .timecodeReply08 _ data | .timecodeReply10 _ data | .timecodeReply11 _ data
  | .timecodeReply14 _ data | .timecodeReply16 _ data | .timecodeReply31 _ data =>
    decide (data.length + 3 ≤ P.maxLen)
  | .rawReply hdr cmd2 data => decide (data.length + 3 ≤ P.maxLen) && !namedReplyKey hdr cmd2
  | .rx chunk => !chunk.isEmpty
  | .sendAwait _ timeoutMs => limitFits P timeoutMs
  | .deliver event => validEvent P event
  | .openLink _ _ | .closeLink _ | .send _ | .writeDone | .writeError | .tick
  | .csum _ | .encodePkt _ _ _ | .parsePkt _ | .bcdPack _ | .bcdUnpack _ | .clamp99 _
  | .tcEncode _ | .tcDecode _ | .nakDecode _ | .statusDecode _ | .statusSenseByte _ _ | .extract
  | .frontMatch _ | .interpret _ | .arbiterAck | .arbiterNak _ => true

/-- Well-formed for the block built with the default parameters (log 9). -/
def wellFormed (i : Instr) : Bool := wellFormedIn Machine.params i

end Sys2Proof
end

