-- ==== Sys2Proof/Decode.lean ====
section
/-! DEFINITION. The decoder, total on any input and rejecting by name, and after it the encoder
(30_encoding.md, spec/opcode_table.json). A COMMAND or REPLY is a whole wire packet; an OPERATION is its
8-bit code with its operands on the operand ports (log 2, log 23). -/

namespace Sys2Proof

open Machine

/-! ### The tables -/

/-- R89: one row of the command catalogue. -/
structure CommandRow where
  cmd1 : Byte
  cmd2 : Byte
  build : Bytes → Instr

/-- R90 to R119: the catalogue, in the table's order. -/
def catalogue : List CommandRow :=
  [⟨0x00#8, 0x0C#8, .localDisable⟩, ⟨0x00#8, 0x11#8, .deviceType⟩, ⟨0x00#8, 0x1D#8, .localEnable⟩] ++
  [⟨0x20#8, 0x00#8, .stop⟩, ⟨0x20#8, 0x01#8, .play⟩, ⟨0x20#8, 0x02#8, .record⟩,
   ⟨0x20#8, 0x04#8, .standbyOff⟩, ⟨0x20#8, 0x05#8, .standbyOn⟩, ⟨0x20#8, 0x0F#8, .eject⟩,
   ⟨0x20#8, 0x10#8, .fastFwd⟩] ++
  [⟨0x20#8, 0x11#8, .jogFwd⟩, ⟨0x20#8, 0x12#8, .varFwd⟩, ⟨0x20#8, 0x13#8, .shuttleFwd⟩,
   ⟨0x20#8, 0x14#8, .frameStepFwd⟩, ⟨0x20#8, 0x20#8, .rewind⟩, ⟨0x20#8, 0x21#8, .jogRev⟩,
   ⟨0x20#8, 0x22#8, .varRev⟩] ++
  [⟨0x20#8, 0x23#8, .shuttleRev⟩, ⟨0x20#8, 0x24#8, .frameStepRev⟩, ⟨0x20#8, 0x30#8, .preroll⟩,
   ⟨0x20#8, 0x31#8, .cueUpWithData⟩, ⟨0x20#8, 0x34#8, .syncPlay⟩, ⟨0x20#8, 0x40#8, .preview⟩,
   ⟨0x20#8, 0x41#8, .review⟩] ++
  [⟨0x60#8, 0x0A#8, .tcGenSense⟩, ⟨0x60#8, 0x0C#8, .currentTimeSense⟩,
   ⟨0x60#8, 0x10#8, .inDataSense⟩, ⟨0x60#8, 0x11#8, .outDataSense⟩, ⟨0x60#8, 0x20#8, .statusSense⟩]

/-- R78: the row that the class nibble and `cmd2` select; the length nibble is free. -/
def commandOf (cls cmd2 : Byte) : Option CommandRow :=
  catalogue.find? fun r => r.cmd1 == cls && r.cmd2 == cmd2

/-- R80 to R86: the reply row a framed packet's header, `cmd2` and data select. The first three rows
compare the whole header, the next nine its class nibble. -/
def replyOf (hdr cmd2 : Byte) (data : Bytes) : Instr :=
  if hdr = 0x10#8 ∧ cmd2 = 0x01#8 then .ack data
  else if hdr = 0x10#8 ∧ cmd2 = 0x12#8 then .nak data
  else if hdr = 0x12#8 ∧ cmd2 = 0x11#8 then .deviceTypeReply data
  else if classBits hdr = 0x70#8 then
    match cmd2.toNat with
    | 0x20 => .statusReply (lengthNibble hdr) data
    | 0x04 => .timecodeReply04 (lengthNibble hdr) data
    | 0x06 => .timecodeReply06 (lengthNibble hdr) data
    | 0x08 => .timecodeReply08 (lengthNibble hdr) data
    | 0x10 => .timecodeReply10 (lengthNibble hdr) data
    | 0x11 => .timecodeReply11 (lengthNibble hdr) data
    | 0x14 => .timecodeReply14 (lengthNibble hdr) data
    | 0x16 => .timecodeReply16 (lengthNibble hdr) data
    | 0x31 => .timecodeReply31 (lengthNibble hdr) data
    | _ => .rawReply hdr cmd2 data
  else .rawReply hdr cmd2 data

/-- R128: the operation a code names, with its operands. -/
def operationOf (code : Byte) (o : Operands) : Option Instr :=
  match code.toNat with
  | 0x01 => some (.openLink o.cfg o.answer)
  | 0x02 => some (.closeLink o.answer)
  | 0x03 => some (.send o.bytes)
  | 0x04 => some (.sendAwait o.bytes o.timeoutMs)
  | 0x08 => some (.rx o.bytes)
  | 0x09 => some .writeDone
  | 0x0A => some .writeError
  | 0x0B => some .tick
  | 0x10 => some (.csum o.bytes)
  | 0x11 => some (.encodePkt o.cmd1 o.cmd2 o.bytes)
  | 0x12 => some (.parsePkt o.bytes)
  | 0x13 => some (.bcdPack o.v)
  | 0x14 => some (.bcdUnpack o.b)
  | 0x15 => some (.clamp99 o.v)
  | 0x16 => some (.tcEncode o.tc)
  | 0x17 => some (.tcDecode o.wire)
  | 0x18 => some (.nakDecode o.b)
  | 0x19 => some (.statusDecode o.bytes)
  | 0x1A => some (.statusSenseByte o.start o.size)
  | 0x20 => some .extract
  | 0x21 => some (.frontMatch o.offset)
  | 0x22 => some (.interpret o.bytes)
  | 0x23 => some (.deliver o.event)
  | 0x24 => some .arbiterAck
  | 0x25 => some (.arbiterNak o.reasons)
  | _ => none

/-- R128, 10_state.md section 4: the port that takes an operation. -/
def operationPort (code : Byte) : Port :=
  if code.toNat ≤ 0x04 then .host
  else if code.toNat = 0x08 then .linkRx
  else if code.toNat ≤ 0x0A then .linkTx
  else if code.toNat = 0x0B then .timeBase
  else if code.toNat ≤ 0x1A then .codec
  else .internal

/-! ### The decoder -/

/-- An operation: one code byte that is a code of R128, on that operation's port, with operands of the
operation's domain. -/
def decodeOperation (P : Params) (port : Port) (bytes : Bytes) (o : Operands) : Except DecodeError Instr :=
  match bytes with
  | [code] =>
    match operationOf code o with
    | none => .error (.noSuchOperation code)
    | some i =>
      if operationPort code ≠ port then .error (.wrongPort code)
      else if wellFormedIn P i then .ok i
      else match i with
        | .rx _ => .error .emptyChunk
        | .sendAwait _ limit => .error (.limitTooWide limit)
        | _ => .error .notAnEvent
  | _ => .error .notOneCode

/-- A command: a packet with any data, of which ENCODE rejects more than 15 bytes itself (R142). A key of
the catalogue is that command; any other is ENCODE of the packet's own `cmd1` and `cmd2`, for "the encoder
does not check `cmd1` or `cmd2` against the catalogue" (R88, R114). The length nibble is not compared with
the data length (R73). -/
def decodeCommand (bytes : Bytes) : Except DecodeError Instr :=
  match parse { params with maxLen := bytes.length } bytes with
  | .error _ => .error .notAPacket
  | .ok p =>
    match commandOf p.cls p.cmd2 with
    | some r => .ok (r.build p.data)
    | none => .ok (.encodePkt p.hdr p.cmd2 p.data)

/-- A framed packet: every well-formed packet is some reply row (R87). -/
def decodeReply (P : Params) (bytes : Bytes) : Except DecodeError Instr :=
  match parse P bytes with
  | .error _ => .error .notAPacket
  | .ok p => .ok (replyOf p.hdr p.cmd2 p.data)

/-- The instruction an input gives a block built for `P`, or why it gives none. -/
def decodeIn (P : Params) (x : Input) : Except DecodeError Instr :=
  match x.port with
  | .command => decodeCommand x.bytes
  | .framed => decodeReply P x.bytes
  | .reset => .error .resetLine
  | .host | .codec | .linkTx | .linkRx | .timeBase | .internal =>
    decodeOperation P x.port x.bytes x.operands

/-- The decoder of the block with the default parameters (log 9). -/
def decode (x : Input) : Except DecodeError Instr := decodeIn params x

/-! ### The encoder -/

/-- The three shapes an instruction's input has. -/
inductive Shape where
  | command (cmd1 cmd2 : Byte) (data : Bytes)
  | reply (hdr cmd2 : Byte) (data : Bytes)
  | operation (code : Byte) (operands : Operands)

/-- Each instruction's key, or its operation code and operands (spec/opcode_table.json). -/
def shape : Instr → Shape
  | .localDisable data => .command 0x00#8 0x0C#8 data
  | .deviceType data => .command 0x00#8 0x11#8 data
  | .localEnable data => .command 0x00#8 0x1D#8 data
  | .stop data => .command 0x20#8 0x00#8 data
  | .play data => .command 0x20#8 0x01#8 data
  | .record data => .command 0x20#8 0x02#8 data
  | .standbyOff data => .command 0x20#8 0x04#8 data
  | .standbyOn data => .command 0x20#8 0x05#8 data
  | .eject data => .command 0x20#8 0x0F#8 data
  | .fastFwd data => .command 0x20#8 0x10#8 data
  | .jogFwd data => .command 0x20#8 0x11#8 data
  | .varFwd data => .command 0x20#8 0x12#8 data
  | .shuttleFwd data => .command 0x20#8 0x13#8 data
  | .frameStepFwd data => .command 0x20#8 0x14#8 data
  | .rewind data => .command 0x20#8 0x20#8 data
  | .jogRev data => .command 0x20#8 0x21#8 data
  | .varRev data => .command 0x20#8 0x22#8 data
  | .shuttleRev data => .command 0x20#8 0x23#8 data
  | .frameStepRev data => .command 0x20#8 0x24#8 data
  | .preroll data => .command 0x20#8 0x30#8 data
  | .cueUpWithData data => .command 0x20#8 0x31#8 data
  | .syncPlay data => .command 0x20#8 0x34#8 data
  | .preview data => .command 0x20#8 0x40#8 data
  | .review data => .command 0x20#8 0x41#8 data
  | .tcGenSense data => .command 0x60#8 0x0A#8 data
  | .currentTimeSense data => .command 0x60#8 0x0C#8 data
  | .inDataSense data => .command 0x60#8 0x10#8 data
  | .outDataSense data => .command 0x60#8 0x11#8 data
  | .statusSense data => .command 0x60#8 0x20#8 data
  | .ack data => .reply 0x10#8 0x01#8 data
  | .nak data => .reply 0x10#8 0x12#8 data
  | .deviceTypeReply data => .reply 0x12#8 0x11#8 data
  | .statusReply len data => .reply (senseReturnHeader len) 0x20#8 data
  | .timecodeReply04 len data => .reply (senseReturnHeader len) 0x04#8 data
  | .timecodeReply06 len data => .reply (senseReturnHeader len) 0x06#8 data
  | .timecodeReply08 len data => .reply (senseReturnHeader len) 0x08#8 data
  | .timecodeReply10 len data => .reply (senseReturnHeader len) 0x10#8 data
  | .timecodeReply11 len data => .reply (senseReturnHeader len) 0x11#8 data
  | .timecodeReply14 len data => .reply (senseReturnHeader len) 0x14#8 data
  | .timecodeReply16 len data => .reply (senseReturnHeader len) 0x16#8 data
  | .timecodeReply31 len data => .reply (senseReturnHeader len) 0x31#8 data
  | .rawReply hdr cmd2 data => .reply hdr cmd2 data
  | .openLink cfg answer => .operation 0x01#8 { cfg := cfg, answer := answer }
  | .closeLink answer => .operation 0x02#8 { answer := answer }
  | .send bytes => .operation 0x03#8 { bytes := bytes }
  | .sendAwait bytes timeoutMs => .operation 0x04#8 { bytes := bytes, timeoutMs := timeoutMs }
  | .rx bytes => .operation 0x08#8 { bytes := bytes }
  | .writeDone => .operation 0x09#8 {}
  | .writeError => .operation 0x0A#8 {}
  | .tick => .operation 0x0B#8 {}
  | .csum bytes => .operation 0x10#8 { bytes := bytes }
  | .encodePkt cmd1 cmd2 bytes => .operation 0x11#8 { cmd1 := cmd1, cmd2 := cmd2, bytes := bytes }
  | .parsePkt bytes => .operation 0x12#8 { bytes := bytes }
  | .bcdPack v => .operation 0x13#8 { v := v }
  | .bcdUnpack b => .operation 0x14#8 { b := b }
  | .clamp99 v => .operation 0x15#8 { v := v }
  | .tcEncode tc => .operation 0x16#8 { tc := tc }
  | .tcDecode wire => .operation 0x17#8 { wire := wire }
  | .nakDecode b => .operation 0x18#8 { b := b }
  | .statusDecode bytes => .operation 0x19#8 { bytes := bytes }
  | .statusSenseByte start size => .operation 0x1A#8 { start := start, size := size }
  | .extract => .operation 0x20#8 {}
  | .frontMatch offset => .operation 0x21#8 { offset := offset }
  | .interpret bytes => .operation 0x22#8 { bytes := bytes }
  | .deliver event => .operation 0x23#8 { event := event }
  | .arbiterAck => .operation 0x24#8 {}
  | .arbiterNak reasons => .operation 0x25#8 { reasons := reasons }

/-- The input of an instruction of a given shape: a packet's bytes as the encoder writes them (R70), or
the operation's code. -/
def inputOf : Shape → Input
  | .command cmd1 cmd2 data =>
    { port := .command, bytes := wirePacket (header cmd1 data.length) cmd2 data }
  | .reply hdr cmd2 data => { port := .framed, bytes := wirePacket hdr cmd2 data }
  | .operation code o => { port := operationPort code, bytes := [code], operands := o }

/-- The input that an instruction is. -/
def encode (i : Instr) : Input := inputOf (shape i)

/-! ### The pseudo-instructions of R127 -/

/-- R127: `STATUS_SENSE(start, size)`. -/
def statusSenseCommand (start size : Nat) : Instr := .statusSense [senseByte start size]

/-- R127: `CURRENT_TIME_SENSE(f)`. -/
def currentTimeSenseCommand (f : TimeSense) : Instr := .currentTimeSense [timeSenseByte f]

/-! ### The opcode table's words (log 3, log 4) -/

/-- The operands of an operation whose operand words are all zero: one zero byte of a chunk, the packet
`[00 00 00]`, and zero elsewhere. -/
def zeroOperands (code : Byte) : Operands :=
  if code = 0x08#8 then { bytes := [0] }
  else if code = 0x22#8 then { bytes := [0, 0, 0] }
  else {}

/-- The input that a word of the opcode table stands for. A word of at most 8 bits that is an operation
code is that operation with zero operands. Any other word is the key `(hdr << 8) | cmd2` of a packet
(R78): as many zero data bytes as its length nibble says (R71) and the checksum that makes it a packet
(R74), on the catalogue's port where a catalogue row has the key, else as a framed packet. -/
def tableInput (nbits w : Nat) : Input :=
  if nbits ≤ 8 ∧ (operationOf (byteOf w) {}).isSome then
    { port := operationPort (byteOf w), bytes := [byteOf w], operands := zeroOperands (byteOf w) }
  else
    let hdr := byteOf (w / 256)
    let cmd2 := byteOf w
    { port := if (commandOf (classBits hdr) cmd2).isSome then .command else .framed,
      bytes := wirePacket hdr cmd2 (List.replicate (lengthNibble hdr).toNat 0) }

/-- The instruction the decoder reads from a word of the opcode table. -/
def decodeTableWord (nbits w : Nat) : Option Instr := (decode (tableInput nbits w)).toOption

end Sys2Proof
end

