-- ==== Sys2Proof/Machine/Fetch.lean ====
section
/-! DEFINITION. What the next step takes: a waiting host request that has become ready, or the next input
(R32, R278); one step of a block with a given decoder and given meanings; and how inputs come to stand in
the list of inputs. -/

namespace Sys2Proof.Machine

/-- What one step does. -/
inductive Move where
  | idle
  | reset (rest : List Input)
  | take (r : Request) (waiting : List Request)
  | input (x : Input) (rest : List Input)
deriving DecidableEq, Repr

/-- R221: the oldest waiting request whose ready condition holds, and the others (log 5). -/
def firstReady (s : State) : List Request → Option (Request × List Request)
  | [] => none
  | r :: rs =>
    if ready s r then some (r, rs)
    else (firstReady s rs).map fun q => (q.1, r :: q.2)

/-- The next input; with none left the block is idle (R286). -/
def arrival : List Input → Move
  | [] => .idle
  | x :: rest => if x.port = .reset then .reset rest else .input x rest

/-- R32: a waiting request is taken as soon as its condition holds, unless the next input is one that is
looked at first (R278; log 6). -/
def nextMove (s : State) : Move :=
  match firstReady s s.held, s.inputs with
  | none, inputs => arrival inputs
  | some q, [] => .take q.1 q.2
  | some q, x :: rest => if x.beforeHeld then arrival (x :: rest) else .take q.1 q.2

/-- R6: "Each input is processed to completion as one atomic step before the next is looked at." An input
that is no instruction of the block is refused by name (log 14). -/
def stepWith (dec : Input → Except DecodeError Instr)
    (run : Instr → State → Host.Outcome State Fault Refusal) (s : State) :
    Host.Outcome State Fault Refusal :=
  match nextMove s with
  | .idle => .next s
  | .reset rest => .next (applyReset rest)
  | .take r waiting => .next (take r { s with held := waiting })
  | .input x rest =>
    match dec x with
    | .ok i => run i { s with inputs := rest }
    | .error e => .refused (.undecodable e)

/-! ### Inputs at one instant -/

/-- R278: the place of an input among inputs at the same instant: the chunk, the link's write answer, the
tick, the host request. The table has no place for the inputs on the other five ports, and where they stand
is the MODEL'S CHOICE: reset is first (log 19); a framed reply or an internal operation, which in the block
happens inside RX, has RX's place, and a codec call or a catalogue command, which the host makes, has the
host's (log 27). -/
def instantRank : Port → Nat
  | .reset => 0
  | .linkRx | .framed | .internal => 1
  | .linkTx => 2
  | .timeBase => 3
  | .host | .codec | .command => 4

/-- R278: a batch of inputs at one instant, in the order they are taken; all but the host's go before a
waiting host request. The places that R278's table leaves out are the model's choice (log 19, log 27). -/
def serialise (batch : List Input) : List Input :=
  [0, 1, 2, 3, 4].flatMap fun r =>
    (batch.filter fun x => instantRank x.port == r).map fun x => { x with beforeHeld := r < 4 }

/-- Inputs that arrive together, after those already there. -/
def State.arriveTogether (batch : List Input) (s : State) : State :=
  { s with inputs := s.inputs ++ serialise batch }

/-- The opcode table's word as the next input, looked at before any waiting request (log 3). -/
def placeTableWord (s : State) (nbits w : Nat) : State :=
  { s with inputs := { tableInput nbits w with beforeHeld := true } :: s.inputs }

end Sys2Proof.Machine
end

