-- ==== Sys2Proof/Machine/Step.lean ====
section
/-! DEFINITION. One step: one input processed to completion (R6, R58), or a waiting request taken (R32). -/

namespace Sys2Proof.Machine

/-- R6: one step of the block with the default parameters (log 9; `stepIn` is the block built for any). -/
def step (s : State) : Host.Outcome State Fault Refusal := stepWith decode exec s

/-- The state whose very next step runs the instruction of an opcode-table word (log 3). -/
def State.withFetchWord (s : State) (nbits w : Nat) : State := placeTableWord s nbits w

end Sys2Proof.Machine
end

