-- ==== Sys2Proof/Machine/Parametric.lean ====
section
/-! DEFINITION. The block for every choice of its implementation parameters: "The block is built for one value
of each configuration parameter … A model takes each as an argument of its machine" (R5). `exec`, `step` and
`Sys2Proof.core` are the members at the defaults (log 9). No step changes the parameters (R39). -/

namespace Sys2Proof.Machine

/-- What an instruction does in the block built for `P`: nine instructions read a parameter, directly or by
extraction; the others mean the same in every block. -/
def execIn (P : Params) (i : Instr) (s : State) : Host.Outcome State Fault Refusal :=
  match i with
  | .parsePkt bytes => execParseIn P bytes s
  | .nakDecode b => execNakDecodeIn P b s
  | .statusDecode data => execStatusDecodeIn P data s
  | .nak data => execNakIn P data s
  | .statusReply len data => execStatusReplyIn P len data s
  | .rx chunk => execRxIn P chunk s
  | .extract => execExtractIn P s
  | .frontMatch offset => execFrontMatchIn P offset s
  | .interpret packet => execInterpretIn P packet s
  | .localDisable _ | .deviceType _ | .localEnable _ | .stop _ | .play _ | .record _ | .standbyOff _
  | .standbyOn _ | .eject _ | .fastFwd _ | .jogFwd _ | .varFwd _ | .shuttleFwd _ | .frameStepFwd _
  | .rewind _ | .jogRev _ | .varRev _ | .shuttleRev _ | .frameStepRev _ | .preroll _
  | .cueUpWithData _ | .syncPlay _ | .preview _ | .review _ | .tcGenSense _ | .currentTimeSense _
  | .inDataSense _ | .outDataSense _ | .statusSense _ | .ack _ | .deviceTypeReply _
  | .timecodeReply04 _ _ | .timecodeReply06 _ _ | .timecodeReply08 _ _ | .timecodeReply10 _ _
  | .timecodeReply11 _ _ | .timecodeReply14 _ _ | .timecodeReply16 _ _ | .timecodeReply31 _ _
  | .rawReply _ _ _ | .openLink _ _ | .closeLink _ | .send _ | .sendAwait _ _ | .writeDone
  | .writeError | .tick | .csum _ | .encodePkt _ _ _ | .bcdPack _ | .bcdUnpack _ | .clamp99 _
  | .tcEncode _ | .tcDecode _ | .statusSenseByte _ _ | .deliver _ | .arbiterAck | .arbiterNak _ => exec i s

/-- R6: one step of the block built for `P`. -/
def stepIn (P : Params) (s : State) : Host.Outcome State Fault Refusal :=
  stepWith (decodeIn P) (execIn P) s

/-- R5: the machine built for `P`; the state after reset is the same for every `P` (R290). -/
def machine (P : Params) : Host.Core where
  State := State
  Fault := Fault
  Refusal := Refusal
  step := stepIn P
  reset := State.reset

end Sys2Proof.Machine
end

