-- ==== Sys2Proof/Machine/ListenBeforeSend.lean ====
section
/-! DEFINITION. R236's last clause, to the letter: "neither can bytes held in `ACC` that a later chunk completes
into a reply to an *earlier* command" settle the wait. To tell such bytes one must remember where `ACC` ended
when the wait was armed, which no state element of the block does: "a model must add none" (R20), the
resynchronizer "has no other state" (R180), and a model "must not assume … that a reply is matched to its
command" (91_not_in_source.md N28, R233). So the clause is no part of `stepIn`; it is the machine below, which
keeps that mark BESIDE the block's state (log 28). -/

namespace Sys2Proof.Machine

/-- The block with the mark that R236's last clause needs. -/
structure Marked where
  state : State
  /-- How many bytes at the front of `ACC` were there when the wait was last armed. -/
  older : Nat
deriving DecidableEq, Repr

/-- The mark after a step: all of `ACC` when the step armed a wait, else what is left of it. -/
def remark (m : Marked) (after : State) : Nat :=
  if m.state.aw = .idle ∧ after.aw ≠ .idle then after.acc.length else min m.older after.acc.length

/-- A step of the block, the mark kept beside it. -/
def Marked.follow (m : Marked) : Host.Outcome State Fault Refusal → Host.Outcome Marked Fault Refusal
  | .next t => .next ⟨t, remark m t⟩
  | .fault f => .fault f
  | .refused r => .refused r

/-- DELIVER without its arbiter action (R195): the cache, then the event. -/
def announce (e : Event) (s : State) : State := emitEvent e (updateCache e s)

/-- Bytes leave the front of `ACC` (R23), the marked ones first. -/
def Marked.dropFront (n : Nat) (m : Marked) : Marked :=
  { state := { m.state with acc := m.state.acc.drop n }, older := m.older - n }

/-- R183 (b) with R236's last clause: a packet that begins among the marked bytes is announced and settles
nothing; any other is delivered. -/
def Marked.deliverFront (P : Params) (l : Nat) (m : Marked) : Marked :=
  let t := m.dropFront l
  match interpret P (m.state.acc.take l) with
  | .ok e => { t with state := if m.older = 0 then deliver e t.state else announce e t.state }
  | .error _ => t

/-- R183: the loop, as `extractLoop`. -/
def Marked.extractLoop (P : Params) : Nat → Marked → Marked
  | 0, m => m
  | k + 1, m =>
    match turn P m.state.acc with
    | .stop => m
    | .accept l => Marked.extractLoop P k (m.deliverFront P l)
    | .drop => Marked.extractLoop P k (m.dropFront 1)

/-- R183 EXTRACT. -/
def Marked.extract (P : Params) (m : Marked) : Marked := Marked.extractLoop P m.state.acc.length m

/-- R181, R182: one received byte. -/
def Marked.receiveByte (P : Params) (m : Marked) (b : Byte) : Marked :=
  let m := if P.accCap = some m.state.acc.length then m.extract P else m
  { m with state := { m.state with acc := m.state.acc ++ [b] } }

/-- R181 RX; R198. -/
def Marked.receive (P : Params) (chunk : Bytes) (m : Marked) : Marked :=
  match m.state.sess with
  | .closed => m
  | .opened => (chunk.foldl (Marked.receiveByte P) m).extract P

/-- RX and EXTRACT frame packets by the clause; every other instruction does what it does in the block. -/
def Marked.exec (P : Params) (i : Instr) (m : Marked) : Host.Outcome Marked Fault Refusal :=
  match i with
  | .rx [] => .refused .emptyChunk
  | .rx (b :: bs) => .next (m.receive P (b :: bs))
  | .extract => .next (m.extract P)
  | _ => m.follow (execIn P i m.state)

/-- R6: one step. -/
def Marked.step (P : Params) (m : Marked) : Host.Outcome Marked Fault Refusal :=
  match nextMove m.state with
  | .input x rest =>
    match decodeIn P x with
    | .ok i => Marked.exec P i { m with state := { m.state with inputs := rest } }
    | .error e => .refused (.undecodable e)
  | .idle | .reset _ | .take _ _ => m.follow (stepIn P m.state)

/-- The machine of R236's last clause, built for `P`. -/
def markedMachine (P : Params) : Host.Core where
  State := Marked
  Fault := Fault
  Refusal := Refusal
  step := Marked.step P
  reset := ⟨State.reset, 0⟩

end Sys2Proof.Machine
end

