-- ==== Sys2Proof/Safety.lean ====
section
/-! DEFINITION. The terms claims are made in: legal parameters, the state invariants of R40, the duties of
the agents around the block (R287), what is owed (R238), the end of a run (R307), and clean packets
(R199). -/

namespace Sys2Proof.Machine

/-- R5, R152: the parameters a block may be built with: `P_MAX_LEN >= 3`, `P_ACC_CAP >= P_MAX_LEN` or
`INF`, no two NAK reasons on one bit, `CHECKSUM_ERROR = 0x04`, and time between two ticks. -/
def legalParams (P : Params) : Bool :=
  decide (3 ≤ P.maxLen)
    && (match P.accCap with
        | none => true
        | some c => decide (P.maxLen ≤ c))
    && decide ([P.nakTable.unknownCmd, P.nakTable.checksumError, P.nakTable.parityError,
        P.nakTable.bufferOverrun, P.nakTable.framingError, P.nakTable.timeout].Nodup)
    && P.nakTable.checksumError == 2
    && decide (0 < P.tick)

/-- R40 (1), (3), (4); R25: `LAST_STATUS` holds a set of the table's flags; R231: `P_TIMEOUT_BITS` bits hold
every limit, of an armed wait and of a request that waits. -/
structure State.Inv (P : Params) (s : State) : Prop where
  closed_idle : s.sess = .closed → s.tx = .idle
  elapsed_lt : ∀ limit elapsed, s.aw = .armed limit elapsed → elapsed < max limit 1
  acc_short : s.acc.length ≤ P.maxLen - 1
  flags_legal : ∀ fs, s.lastStatus = some fs → isFlagSet P.status fs = true
  limit_fits : ∀ limit elapsed, s.aw = .armed limit elapsed → limitFits P limit = true
  held_fits : ∀ bytes limit, .sendAwait bytes limit ∈ s.held → limitFits P limit = true

/-- R287: whether an instruction keeps the link's duties in a state: no write answer without a write, no
empty chunk. Every other instruction is always within the duties. -/
def dutiful (s : State) : Instr → Bool
  | .writeDone | .writeError => s.tx != .idle
  | .rx chunk => !chunk.isEmpty
  | _ => true

/-- R238: the results still owed: one for a plain write that is draining, one for an armed wait. -/
def owed (s : State) : Nat :=
  (if s.tx = .busyPlain then 1 else 0) + (if s.aw = .idle then 0 else 1)

/-- The result an event gives an armed wait, if it gives one (R229, R230). -/
def settling : Event → Option Result
  | .ack => some .acked
  | .nak rs => some (.nakked rs)
  | .deviceType _ | .status _ | .timecode _ | .raw _ _ _ => none

/-- The host request an instruction presents on the request port, if it is one (R32). -/
def requestOf : Instr → Option Request
  | .openLink cfg a => some (.openLink cfg a)
  | .closeLink a => some (.closeLink a)
  | .send bs => some (.send bs)
  | .sendAwait bs l => some (.sendAwait bs l)
  | _ => none

/-- R307: "at `TX = IDLE` and `AW = IDLE` after the last input", and no request waits. -/
def State.runOver (s : State) : Bool :=
  s.inputs.isEmpty && s.held.isEmpty && s.tx == .idle && s.aw == .idle

/-- R199 (2): a packet none of whose contiguous parts of 3 bytes or more, other than itself, has a
matching checksum. -/
def Clean (p : Bytes) : Prop :=
  ∀ o l, 3 ≤ l → o + l ≤ p.length → l < p.length → matchesAt (p.drop o) l = false

/-- R199 (1): one turn of the source's algorithm: accept the front match, or "drop exactly one byte from
the front of the buffer" whenever `n >= 3`. -/
def literalTurn (P : Params) (acc : Bytes) : Turn :=
  if acc.length < 3 then .stop
  else match frontMatch P acc 0 with
    | some l => .accept l
    | none => .drop

/-- R199 (1): the source's algorithm. -/
def literalLoop (P : Params) : Nat → State → State
  | 0, s => s
  | k + 1, s =>
    match literalTurn P s.acc with
    | .stop => s
    | .accept l => literalLoop P k (deliverPacket P (s.acc.take l) { s with acc := s.acc.drop l })
    | .drop => literalLoop P k { s with acc := s.acc.drop 1 }

/-- R154: the place `P_STATUS_TABLE` gives a flag; none for a name that is no flag. -/
def placeOf (l : StatusLayout) : StatusFlag → Option BitPos
  | .play => some l.play
  | .record => some l.record
  | .servoLock => some l.servoLock
  | .cassetteOut => some l.cassetteOut
  | .other n => l.others[n]?

/-- R8, R9: `sum(xs)` of a byte string, a natural. -/
def byteSum (bs : Bytes) : Nat := (bs.map BitVec.toNat).sum

/-- R228: a number of ticks in a row. -/
def countTicks : Nat → State → State
  | 0, s => s
  | k + 1, s => countTicks k (countTick s)

/-- R231, R303: the real time (in the unit of `P_TICK`) from the acceptance of a SEND_AWAIT to the `k`-th tick
after it, `k >= 1`, when the first of them comes `first` after the acceptance. -/
def timeOfTick (P : Params) (first k : Nat) : Nat := first + (k - 1) * P.tick

end Sys2Proof.Machine
end

