-- ==== Sys2Proof/Certificates/Slice0/Obligations.lean ====
section
/-! DEFINITION. The statements for the provers. `s.codec ++ [v]` and the like are exact: a record update
says that every other field is unchanged, so each result statement is also the instruction's frame. -/

open Sys2Proof Sys2Proof.Machine

/-! ### Words used by several statements -/

namespace Sys2Proof.Claims

/-- R38, R140: an answer on the codec port and nothing else. -/
def answers (i : Instr) (s : State) (v : CodecValue) : Prop :=
  exec i s = .next { s with codec := s.codec ++ [v] }

/-- R127, R142 for a catalogue command (`cmd1` a class, its low nibble 0): the header is `cmd1` plus the
data length, and the last byte is the sum of the others mod 256; more than 15 data bytes are rejected. -/
def commandAnswer (cmd1 cmd2 : Byte) (data : Bytes) : CodecValue :=
  if data.length ≤ 15 then
    .packet ([cmd1 + byteOf data.length, cmd2] ++ data
      ++ [byteOf (cmd1.toNat + data.length + cmd2.toNat + byteSum data)])
  else .error .invalidArgument

/-- A catalogue command does what its name stands for, and with no data gives the three wire bytes. -/
def encodes (command : Bytes → Instr) (cmd1 cmd2 : Byte) (wire : Bytes) : Prop :=
  (∀ data s, answers (command data) s (commandAnswer cmd1 cmd2 data)) ∧
  ∀ s, answers (command []) s (.packet wire)

/-- R70: a packet written out: header, `cmd2`, data, and the sum of these mod 256. -/
def written (hdr cmd2 : Byte) (data : Bytes) : Bytes :=
  [hdr, cmd2] ++ data ++ [byteOf (hdr.toNat + cmd2.toNat + byteSum data)]

/-- R144, R146: a field as the timecode encoder packs it. -/
def digits (v : Nat) : Nat := min v 99 / 10 * 16 + min v 99 % 10

/-- R145: a BCD byte's value. -/
def twoDigits (n : Nat) : Nat := n / 16 * 10 + n % 16

/-- R188 to R194: INTERPRET of the packet of `hdr`, `cmd2` and `data` answers the event of the first row that holds,
and that is all it does, in the machine that runs instructions by `run` with the tables of `P`. -/
def interpretsByRows (P : Params) (run : Instr → State → Host.Outcome State Fault Refusal)
    (hdr cmd2 : Byte) (data : Bytes) (s : State) : Prop :=
  let gives := fun e => run (.interpret (written hdr cmd2 data)) s = .next { s with codec := s.codec ++ [.event e] }
  if hdr = 0x10#8 ∧ cmd2 = 0x01#8 then gives .ack
  else if hdr = 0x10#8 ∧ cmd2 = 0x12#8 then
    match data with
    | [] => gives (.nak {})
    | r :: _ => gives (.nak (decodeNak P.nakTable r))
  else if hdr = 0x12#8 ∧ cmd2 = 0x11#8 then
    match data with
    | d0 :: d1 :: _ => ∃ v : BitVec 16, gives (.deviceType v) ∧ v.toNat = d0.toNat * 256 + d1.toNat
    | _ => gives (.raw hdr cmd2 data)
  else if hdr &&& 0xF0#8 = 0x70#8 ∧ cmd2 = 0x20#8 then gives (.status (decodeStatus P.status data))
  else if hdr &&& 0xF0#8 = 0x70#8 ∧ cmd2 ∈ [0x04#8, 0x06#8, 0x08#8, 0x10#8, 0x11#8, 0x14#8, 0x16#8, 0x31#8] then
    match data with
    | f :: sec :: m :: h :: _ =>
      match decodeTimecode ⟨f, sec, m, h⟩ with
      | .ok tc => gives (.timecode tc)
      | .error _ => gives (.raw hdr cmd2 data)
    | _ => gives (.raw hdr cmd2 data)
  else gives (.raw hdr cmd2 data)

/-- R195, R229, R230: the last two parts of DELIVER: the event on the port, then the arbiter. -/
def publish (e : Event) (s : State) : State :=
  match s.aw, settling e with
  | .armed _ _, some r =>
    { s with events := s.events ++ [e], aw := .idle, results := s.results ++ [(.sendAwait, r)] }
  | _, _ => { s with events := s.events ++ [e] }

/-- R196: a cache after a list of events: the latest of its kind, or the old value. -/
def latest {α : Type} (kind : Event → Option α) (es : List Event) (old : Option α) : Option α :=
  es.foldl (fun o e => (kind e).or o) old

def statusOf : Event → Option (List StatusFlag)
  | .status fs => some fs
  | _ => none

def timecodeOf : Event → Option Timecode
  | .timecode tc => some tc
  | _ => none

def deviceTypeOf : Event → Option (BitVec 16)
  | .deviceType v => some v
  | _ => none

/-- What a run of deliveries does: events are appended, each cache holds the latest of its kind, the
first ACK or NAK settles an armed wait and no later one does, and nothing but `ACC` changes besides
(R61 (1), R195, R196, R232, R279). -/
def deliversOnly (s t : State) : Prop :=
  ∃ es, t.events = s.events ++ es ∧
    t.lastStatus = latest statusOf es s.lastStatus ∧
    t.lastTc = latest timecodeOf es s.lastTc ∧
    t.lastDevType = latest deviceTypeOf es s.lastDevType ∧
    (match s.aw, es.findSome? settling with
      | .armed _ _, some r => t.aw = .idle ∧ t.results = s.results ++ [(.sendAwait, r)]
      | _, _ => t.aw = s.aw ∧ t.results = s.results) ∧
    t.sess = s.sess ∧ t.tx = s.tx ∧ t.link = s.link ∧ t.codec = s.codec ∧ t.held = s.held ∧
    t.inputs = s.inputs

/-- R34, R61 (4): from `s` to `t` at most one request is made of the link, and a write only when no write was
outstanding, leaving one outstanding. -/
def asksLinkOnce (s t : State) : Prop :=
  t.link = s.link ∨ ∃ q, t.link = s.link ++ [q] ∧ ∀ bs, q = .write bs → s.tx = .idle ∧ t.tx ≠ .idle

/-- R184: the first `L` bytes from offset `o` are a candidate that ends in its checksum. -/
def candidateMatches (P : Params) (a : Bytes) (o l : Nat) : Prop :=
  3 ≤ l ∧ l ≤ P.maxLen ∧ o + l ≤ a.length ∧
    ∃ b : Byte, a[o + l - 1]? = some b ∧ b.toNat = byteSum ((a.drop o).take (l - 1)) % 256

/-- R237: the result set of each operation. -/
def resultOf : HostOp → Result → Prop
  | .openLink, r => r = .ok ∨ r = .errTransport .openFailed ∨ r = .errTransport .alreadyOpen
  | .closeLink, r => r = .ok ∨ r = .errTransport .closeFailed ∨ r = .errTransport .notOpen
  | .send, r => r = .ok ∨ r = .errTransport .writeFailed ∨ r = .errTransport .notOpen
  | .sendAwait, r => r = .acked ∨ (∃ rs, r = .nakked rs) ∨ r = .timedOut ∨ r = .errTransport .writeFailed
      ∨ r = .errTransport .notOpen

/-- R128: the operands an operation names, the others at the values of `Operands`' defaults. -/
def operandsOf (code : Byte) (o : Operands) : Operands :=
  match code.toNat with
  | 0x01 => { cfg := o.cfg, answer := o.answer }
  | 0x02 => { answer := o.answer }
  | 0x03 | 0x08 | 0x10 | 0x12 | 0x19 | 0x22 => { bytes := o.bytes }
  | 0x04 => { bytes := o.bytes, timeoutMs := o.timeoutMs }
  | 0x11 => { cmd1 := o.cmd1, cmd2 := o.cmd2, bytes := o.bytes }
  | 0x13 | 0x15 => { v := o.v }
  | 0x14 | 0x18 => { b := o.b }
  | 0x16 => { tc := o.tc }
  | 0x17 => { wire := o.wire }
  | 0x1A => { start := o.start, size := o.size }
  | 0x21 => { offset := o.offset }
  | 0x23 => { event := o.event }
  | 0x25 => { reasons := o.reasons }
  | _ => {}

/-- R5: the instructions that read a parameter. -/
def readsParameter : Instr → Bool
  | .parsePkt _ | .nakDecode _ | .statusDecode _ | .nak _ | .statusReply _ _ | .rx _ | .extract | .frontMatch _
  | .interpret _ => true
  | _ => false

/-- R6: a step that runs the next input when that is looked at now: nothing that waits is ready, or the input
goes before what waits (log 6). An input that does not decode is refused by name (log 14). -/
def runsTheNextInput (stepOf : State → Host.Outcome State Fault Refusal)
    (dec : Input → Except DecodeError Instr) (run : Instr → State → Host.Outcome State Fault Refusal) : Prop :=
  ∀ (s : State) (x : Input) (rest : List Input), s.inputs = x :: rest → x.port ≠ .reset →
    (x.beforeHeld = true ∨ ∀ r ∈ s.held, ready s r = false) →
      (∀ i, dec x = .ok i → stepOf s = run i { s with inputs := rest }) ∧
      (∀ e, dec x = .error e → stepOf s = .refused (.undecodable e))

/-- R32, R286, R292: a step that has nothing to take, that takes a waiting request, or that is reset. -/
def takesWaitingAndReset (stepOf : State → Host.Outcome State Fault Refusal) : Prop :=
  ∀ s : State,
    (s.inputs = [] → (∀ r ∈ s.held, ready s r = false) → stepOf s = .next s) ∧
    (∀ a r b, s.held = a ++ r :: b → (∀ q ∈ a, ready s q = false) → ready s r = true →
      (∀ x rest, s.inputs = x :: rest → x.beforeHeld = false) →
        stepOf s = .next (take r { s with held := a ++ b })) ∧
    (∀ x rest, s.inputs = x :: rest → x.port = .reset →
      (x.beforeHeld = true ∨ ∀ r ∈ s.held, ready s r = false) →
        stepOf s = .next { State.reset with inputs := rest })

/-- A step that keeps the invariant, from every state that has it. -/
def keepsTheInvariant (stepOf : State → Host.Outcome State Fault Refusal) (P : Params) : Prop :=
  ∀ s t : State, State.Inv P s → stepOf s = .next t → State.Inv P t

/-- The chunks of a stream received one after another. -/
def receiveAll (P : Params) (chunks : List Bytes) (s : State) : State :=
  chunks.foldl (fun t c => receive P c t) s

end Sys2Proof.Claims

open Sys2Proof.Claims

/-! ### Encoding -/

/-- Sanity: packets and codes written out from the spec's encodings decode to the instruction they stand
for (R90, R94, R119, R88 with R114, R190, R193, R191, R194, R128). The MODEL'S CHOICES: a command packet that the
catalogue does not list is ENCODE of its own header (log 23), and a code on another port is refused by name (log 14). -/
def Obligations.WrittenWordsDecodeToTheirInstruction : Prop :=
  decode { port := .command, bytes := [0x20, 0x01, 0x21] } = .ok (.play []) ∧
  decode { port := .command, bytes := [0x00, 0x0C, 0x0C] } = .ok (.localDisable []) ∧
  decode { port := .command, bytes := [0x61, 0x20, 0x05, 0x86] } = .ok (.statusSense [0x05]) ∧
  decode { port := .command, bytes := [0x41, 0x05, 0xAA, 0xF0] } = .ok (.encodePkt 0x41 0x05 [0xAA]) ∧
  decode { port := .framed, bytes := [0x10, 0x12, 0x04, 0x26] } = .ok (.nak [0x04]) ∧
  decode { port := .framed, bytes := [0x12, 0x11, 0x20, 0x2A, 0x6D] } = .ok (.deviceTypeReply [0x20, 0x2A]) ∧
  decode { port := .framed, bytes := [0x74, 0x04, 0x04, 0x03, 0x02, 0x01, 0x82] }
    = .ok (.timecodeReply04 4 [0x04, 0x03, 0x02, 0x01]) ∧
  decode { port := .framed, bytes := [0x20, 0x01, 0x21] } = .ok (.rawReply 0x20 0x01 []) ∧
  decode { port := .host, bytes := [0x04], operands := { bytes := [0x20, 0x01, 0x21], timeoutMs := 100 } }
    = .ok (.sendAwait [0x20, 0x01, 0x21] 100) ∧
  decode { port := .linkRx, bytes := [0x08], operands := { bytes := [0x10] } } = .ok (.rx [0x10]) ∧
  decode { port := .timeBase, bytes := [0x0B] } = .ok .tick ∧
  decode { port := .host, bytes := [0x20] } = .error (.wrongPort 0x20)

/-- Every well-formed instruction, with every operand, is what the decoder reads from its encoding, whatever
the parameters of R5. -/
def Obligations.DecodingAnEncodingGivesTheInstruction : Prop :=
  (∀ i : Instr, wellFormed i = true → decode (encode i) = .ok i) ∧
  ∀ (P : Params) (i : Instr), wellFormedIn P i = true → decodeIn P (encode i) = .ok i

/-- Whatever the decoder accepts, for every choice of the parameters (`decode` is `decodeIn params`), is
well-formed, and its encoding is the input on the input's port: for a framed packet the bytes; for an operation
the code (R128) and, of the operand ports, those it names; for a command the bytes but for the header's length
nibble, which no decoder reads (R73). A command packet that no catalogue row has the key of is ENCODE of its own
header, `cmd2` and data (R88, R114 speak of the encoder; that such an input is a call of it is log 23). No packet
reads an operand port; that an operation's operands stand on operand ports is log 2. -/
def Obligations.DecodedInputIsTheInstructionsEncoding : Prop :=
  ∀ (P : Params) (x : Input) (i : Instr), decodeIn P x = .ok i →
    wellFormedIn P i = true ∧
    (x.port ≠ .command → (encode i).port = x.port ∧ (encode i).bytes = x.bytes) ∧
    (x.port ≠ .command → x.port ≠ .framed →
      ∃ code, x.bytes = [code] ∧ (encode i).operands = operandsOf code x.operands) ∧
    (x.port = .command → ∃ hdr cmd2 data, x.bytes = written hdr cmd2 data ∧
      (((∃ r ∈ catalogue, r.cmd1 = hdr &&& 0xF0#8 ∧ r.cmd2 = cmd2) ∧ (encode i).port = .command ∧
          (encode i).bytes = written ((hdr &&& 0xF0#8) + byteOf (data.length % 16)) cmd2 data) ∨
        ((∀ r ∈ catalogue, ¬ (r.cmd1 = hdr &&& 0xF0#8 ∧ r.cmd2 = cmd2)) ∧
          i = .encodePkt hdr cmd2 data))) ∧
    (x.port = .command ∨ x.port = .framed → ∀ o, decodeIn P { x with operands := o } = .ok i)

/-! ### The command catalogue -/

/-- R93 to R103, each with the data given (R127, R142: up to 15 bytes). -/
def Obligations.ForwardTransportCommandsEncode : Prop :=
  encodes .stop 0x20 0x00 [0x20, 0x00, 0x20] ∧
  encodes .play 0x20 0x01 [0x20, 0x01, 0x21] ∧
  encodes .record 0x20 0x02 [0x20, 0x02, 0x22] ∧
  encodes .standbyOff 0x20 0x04 [0x20, 0x04, 0x24] ∧
  encodes .standbyOn 0x20 0x05 [0x20, 0x05, 0x25] ∧
  encodes .eject 0x20 0x0F [0x20, 0x0F, 0x2F] ∧
  encodes .fastFwd 0x20 0x10 [0x20, 0x10, 0x30] ∧
  encodes .jogFwd 0x20 0x11 [0x20, 0x11, 0x31] ∧
  encodes .varFwd 0x20 0x12 [0x20, 0x12, 0x32] ∧
  encodes .shuttleFwd 0x20 0x13 [0x20, 0x13, 0x33] ∧
  encodes .frameStepFwd 0x20 0x14 [0x20, 0x14, 0x34]

/-- R104 to R113, each with the data given (R127, R142: up to 15 bytes); CUE_UP_WITH_DATA with four bytes too. -/
def Obligations.ReverseAndEditTransportCommandsEncode : Prop :=
  encodes .rewind 0x20 0x20 [0x20, 0x20, 0x40] ∧
  encodes .jogRev 0x20 0x21 [0x20, 0x21, 0x41] ∧
  encodes .varRev 0x20 0x22 [0x20, 0x22, 0x42] ∧
  encodes .shuttleRev 0x20 0x23 [0x20, 0x23, 0x43] ∧
  encodes .frameStepRev 0x20 0x24 [0x20, 0x24, 0x44] ∧
  encodes .preroll 0x20 0x30 [0x20, 0x30, 0x50] ∧
  encodes .cueUpWithData 0x20 0x31 [0x20, 0x31, 0x51] ∧
  encodes .syncPlay 0x20 0x34 [0x20, 0x34, 0x54] ∧
  encodes .preview 0x20 0x40 [0x20, 0x40, 0x60] ∧
  encodes .review 0x20 0x41 [0x20, 0x41, 0x61] ∧
  ∀ s, answers (.cueUpWithData [0x04, 0x03, 0x02, 0x01]) s
    (.packet [0x24, 0x31, 0x04, 0x03, 0x02, 0x01, 0x5F])

/-- R90 to R92 and R115 to R119: the system control commands and the sense requests; CURRENT_TIME_SENSE and
STATUS_SENSE also with their one data byte. -/
def Obligations.SystemControlAndSenseRequestCommandsEncode : Prop :=
  encodes .localDisable 0x00 0x0C [0x00, 0x0C, 0x0C] ∧
  encodes .deviceType 0x00 0x11 [0x00, 0x11, 0x11] ∧
  encodes .localEnable 0x00 0x1D [0x00, 0x1D, 0x1D] ∧
  encodes .tcGenSense 0x60 0x0A [0x60, 0x0A, 0x6A] ∧
  encodes .currentTimeSense 0x60 0x0C [0x60, 0x0C, 0x6C] ∧
  encodes .inDataSense 0x60 0x10 [0x60, 0x10, 0x70] ∧
  encodes .outDataSense 0x60 0x11 [0x60, 0x11, 0x71] ∧
  encodes .statusSense 0x60 0x20 [0x60, 0x20, 0x80] ∧
  (∀ f s, answers (.currentTimeSense [f]) s (.packet [0x61, 0x0C, f, byteOf (0x6D + f.toNat)])) ∧
  (∀ b s, answers (.statusSense [b]) s (.packet [0x61, 0x20, b, byteOf (0x81 + b.toNat)])) ∧
  (∀ s, answers (currentTimeSenseCommand .ltcTc) s (.packet [0x61, 0x0C, 0x01, 0x6E])) ∧
  (∀ s, answers (statusSenseCommand 0 5) s (.packet [0x61, 0x20, 0x05, 0x86]))

/-! ### The codec -/

/-- R141. -/
def Obligations.ChecksumIsTheSumModulo256 : Prop :=
  ∀ (bs : Bytes) (s : State), ∃ b : Byte, answers (.csum bs) s (.checksum b) ∧
    b.toNat = byteSum bs % 256 ∧ ∀ bs', bs.Perm bs' → answers (.csum bs') s (.checksum b)

/-- R142. -/
def Obligations.EncodeWritesThePacketOrRejects : Prop :=
  ∀ (cmd1 cmd2 : Byte) (data : Bytes) (s : State),
    (data.length ≤ 15 → ∃ hdr cs : Byte,
      answers (.encodePkt cmd1 cmd2 data) s (.packet ([hdr, cmd2] ++ data ++ [cs])) ∧
      hdr.toNat = cmd1.toNat / 16 * 16 + data.length ∧
      cs.toNat = (hdr.toNat + cmd2.toNat + byteSum data) % 256) ∧
    (15 < data.length → answers (.encodePkt cmd1 cmd2 data) s (.error .invalidArgument))

/-- R143, for every `P_MAX_LEN`; PARSE answers it with the machine's own. -/
def Obligations.ParseSplitsExactlyTheWellFormedPackets : Prop :=
  (∀ (P : Params) (hdr cmd2 : Byte) (data : Bytes), data.length + 3 ≤ P.maxLen →
    parse P (written hdr cmd2 data)
      = .ok { hdr := hdr, cls := hdr &&& 0xF0#8, cmd2 := cmd2, data := data }) ∧
  (∀ (P : Params) (p : Bytes),
    (p.length < 3 ∨ P.maxLen < p.length ∨ ∀ q (b : Byte), p = q ++ [b] → b.toNat ≠ byteSum q % 256) →
      parse P p = .error .notAPacket) ∧
  (∀ p k s, parse params p = .ok k → answers (.parsePkt p) s (.fields k)) ∧
  (∀ p e s, parse params p = .error e → answers (.parsePkt p) s (.error e))

/-- R156; its last clause: some encoded packet is framed shorter by the resynchronizer. -/
def Obligations.ParseRecoversWhatEncodeWrote : Prop :=
  (∀ (cmd1 cmd2 : Byte) (data : Bytes), data.length ≤ 15 → ∃ p : Bytes,
    (∀ s, answers (.encodePkt cmd1 cmd2 data) s (.packet p)) ∧ wellFormedPacket params p = true ∧
    ∃ k : Packet, (∀ s, answers (.parsePkt p) s (.fields k)) ∧
      k.cls = cmd1 &&& 0xF0#8 ∧ k.cmd2 = cmd2 ∧ k.data = data) ∧
  ∃ (cmd1 cmd2 : Byte) (data p : Bytes) (l : Nat), encodePacket cmd1 cmd2 data = .ok p ∧
    frontMatch params p 0 = some l ∧ l < p.length

/-- R158. -/
def Obligations.EncodedPacketEndsInTheChecksumOfTheRest : Prop :=
  (∀ (cmd1 cmd2 : Byte) (data p : Bytes), encodePacket cmd1 cmd2 data = .ok p →
    ∃ (q : Bytes) (b : Byte), p = q ++ [b] ∧ checksum q = b ∧ byteSum p % 256 = 2 * b.toNat % 256) ∧
  ∃ (cmd1 cmd2 : Byte) (data p : Bytes), encodePacket cmd1 cmd2 data = .ok p ∧ byteSum p % 256 ≠ 0

/-- R144, R145, R146. -/
def Obligations.BcdHelpersComputeTheirValues : Prop :=
  (∀ (v : Nat) (s : State), v ≤ 99 →
    ∃ b : Byte, answers (.bcdPack v) s (.bcd b) ∧ b.toNat = v / 10 * 16 + v % 10) ∧
  (∀ (b : Byte) (s : State), answers (.bcdUnpack b) s (.unbcd (b.toNat / 16 * 10 + b.toNat % 16))) ∧
  (∀ (v : Nat) (s : State), answers (.clamp99 v) s (.clamped (if v ≤ 99 then v else 99)))

/-- R147. -/
def Obligations.TimecodeEncodeClampsAndMergesFlags : Prop :=
  ∀ (tc : TimecodeInput) (s : State), ∃ w : TimecodeBytes,
    answers (.tcEncode tc) s (.timecodeWire w) ∧
    w.f.toNat = (digits tc.frames ||| (if tc.dropFrame then 0x40 else 0)) ||| (if tc.colorFrame then 0x80 else 0) ∧
    w.s.toNat = digits tc.seconds ∧ w.m.toNat = digits tc.minutes ∧ w.h.toNat = digits tc.hours

/-- R148, R149, R150. -/
def Obligations.TimecodeDecodeGivesFieldsOrMalformed : Prop :=
  ∀ (w : TimecodeBytes) (s : State),
    let hh := twoDigits w.h.toNat
    let mm := twoDigits w.m.toNat
    let ss := twoDigits w.s.toNat
    let ff := twoDigits (w.f.toNat % 64)
    ff ≤ 45 ∧
    (hh ≤ 99 ∧ mm ≤ 99 ∧ ss ≤ 99 → ∃ tc : Timecode, answers (.tcDecode w) s (.timecode tc) ∧
      tc.hours.val = hh ∧ tc.minutes.val = mm ∧ tc.seconds.val = ss ∧ tc.frames.val = ff ∧
      tc.dropFrame = w.f.toNat.testBit 6 ∧ tc.colorFrame = w.f.toNat.testBit 7) ∧
    (99 < hh ∨ 99 < mm ∨ 99 < ss → answers (.tcDecode w) s (.error .tcMalformed))

/-- R157: the round trip for frames up to 39 with either flag, and its failure for 40 to 99. -/
def Obligations.TimecodeRoundTripUpTo39Frames : Prop :=
  ∀ (hh mm ss ff : Fin 100) (df cf : Bool),
    (ff.val ≤ 39 → decodeTimecode (encodeTimecode ⟨hh, mm, ss, ff, df, cf⟩) = .ok ⟨hh, mm, ss, ff, df, cf⟩) ∧
    (40 ≤ ff.val →
      decodeTimecode (encodeTimecode ⟨hh, mm, ss, ff, false, false⟩) ≠ .ok ⟨hh, mm, ss, ff, false, false⟩)

/-- R151: a reason is in the set when its mask meets the byte, for every table; NAK_DECODE answers with
the machine's table. -/
def Obligations.NakDecodeCollectsSignalledReasons : Prop :=
  (∀ (t : NakTable) (b : Byte) (r : NakReason),
    nakHas (decodeNak t b) r = b.toNat.testBit (nakBit t r)) ∧
  (∀ (b : Byte) (s : State), answers (.nakDecode b) s (.reasons (decodeNak params.nakTable b))) ∧
  (∀ b : Byte, nakHas (decodeNak params.nakTable b) .checksumError = b.toNat.testBit 2)

/-- R153: a flag is in the set exactly when its place is within the data and its bit is 1, for every
table; bytes from index 5 on are not read; STATUS_DECODE answers with the machine's table. -/
def Obligations.StatusDecodeCollectsSetFlags : Prop :=
  (∀ (l : StatusLayout) (data : Bytes) (f : StatusFlag),
    f ∈ decodeStatus l data ↔
      ∃ (p : BitPos) (b : Byte), placeOf l f = some p ∧ data[p.byte.val]? = some b ∧
        b.toNat.testBit p.bit.val = true) ∧
  (∀ (l : StatusLayout) (data : Bytes), decodeStatus l data = decodeStatus l (data.take 5)) ∧
  (∀ (data : Bytes) (s : State), answers (.statusDecode data) s (.flags (decodeStatus params.status data)))

/-- R155. -/
def Obligations.StatusSenseBytePacksLowNibbles : Prop :=
  ∀ (start size : Nat) (s : State), ∃ b : Byte,
    answers (.statusSenseByte start size) s (.senseByte b) ∧ b.toNat = start % 16 * 16 + size % 16

/-- R140: a codec function answers the same value in every state and writes no state element; and so does a
catalogue command, which R127 makes a codec call (log 23), and BCD_PACK above 99, whose value is free (log
12). -/
def Obligations.CodecCallsReadAndWriteNoState : Prop :=
  ∀ i : Instr, ((encode i).port = .codec ∨ (encode i).port = .command) →
    ∃ v : CodecValue, ∀ s : State, answers i s v

/-- The MODEL'S CHOICES where the spec gives no value or no step: BCD_PACK above 99 answers some byte, a function
of its operand that nothing constrains (log 12); INTERPRET, run on its own (log 7), of a string that is no packet
answers the error of its PARSE (log 20); and an input that breaks a duty of R287 (a), (b), (c), a write answer with no write outstanding or
an empty chunk, which is no step of the block, is refused by name (log 13). -/
def Obligations.ModelsChoicesWhereTheSpecGivesNone : Prop :=
  (∀ v : Nat, ∃ b : Byte, ∀ s : State, answers (.bcdPack v) s (.bcd b)) ∧
  (∀ (p : Bytes) (s : State), wellFormedPacket params p = false →
    answers (.interpret p) s (.error .notAPacket)) ∧
  ∀ s : State,
    (s.tx = .idle → exec .writeDone s = .refused .noWriteOutstanding ∧
      exec .writeError s = .refused .noWriteOutstanding) ∧
    exec (.rx []) s = .refused .emptyChunk

/-! ### The resynchronizer -/

/-- R184, for every `P_MAX_LEN`. That FRONT_MATCH can be run on its own, and then answers its value for `ACC` on
the codec port, is the MODEL'S CHOICE (log 7): no rule says it. -/
def Obligations.FrontMatchIsTheSmallestMatchingLength : Prop :=
  (∀ (P : Params) (a : Bytes) (o l : Nat), frontMatch P a o = some l ↔
    (candidateMatches P a o l ∧ ∀ k, candidateMatches P a o k → l ≤ k)) ∧
  (∀ (P : Params) (a : Bytes) (o : Nat), frontMatch P a o = none ↔ ∀ l, ¬ candidateMatches P a o l) ∧
  (∀ (o : Nat) (s : State), answers (.frontMatch o) s (.matchLength (frontMatch params s.acc o)))

/-- R188 to R194: the rows in their order, for every packet that the closed machine's `P_MAX_LEN` admits and, in
the block built for any parameters, for every packet that theirs admits. That INTERPRET can be run on its own, and
then answers the event on the codec port, is the MODEL'S CHOICE (log 7): R38 gives that port to the functions of
40_codec.md only. -/
def Obligations.InterpretTriesTheRowsInOrder : Prop :=
  (∀ hdr cmd2 data s, data.length ≤ 15 → interpretsByRows params exec hdr cmd2 data s) ∧
  ∀ P hdr cmd2 data s, data.length + 3 ≤ P.maxLen → interpretsByRows P (execIn P) hdr cmd2 data s

/-- R195, R196: DELIVER of each form of event: the cache of its kind, then the event, then
the arbiter. That DELIVER can be run on its own is the MODEL'S CHOICE (log 7). -/
def Obligations.DeliverWritesCacheThenEventThenArbiter : Prop :=
  ∀ s : State,
    exec (.deliver .ack) s = .next (publish .ack s) ∧
    (∀ rs, exec (.deliver (.nak rs)) s = .next (publish (.nak rs) s)) ∧
    (∀ v, exec (.deliver (.deviceType v)) s = .next (publish (.deviceType v) { s with lastDevType := some v })) ∧
    (∀ fs, exec (.deliver (.status fs)) s = .next (publish (.status fs) { s with lastStatus := some fs })) ∧
    (∀ tc, exec (.deliver (.timecode tc)) s = .next (publish (.timecode tc) { s with lastTc := some tc })) ∧
    (∀ h c d, exec (.deliver (.raw h c d)) s = .next (publish (.raw h c d) s))

/-- R189, R190 with R195, R229, R230: a framed ACK or NAK is put on the event port and then settles an
armed wait. That a framed reply can be run as a step of its own is the MODEL'S CHOICE (log 7). -/
def Obligations.AckAndNakRepliesArePublishedAndSettle : Prop :=
  ∀ (data : Bytes) (s : State),
    exec (.ack data) s = .next (publish .ack s) ∧
    (data = [] → exec (.nak data) s = .next (publish (.nak {}) s)) ∧
    (∀ r rest, data = r :: rest →
      exec (.nak data) s = .next (publish (.nak (decodeNak params.nakTable r)) s))

/-- R191, R192, R194 with R195, R196: a framed device-type, status or unclassified packet sets its cache,
if it has one, and is put on the event port. That a framed reply can be run as a step of its own is the MODEL'S
CHOICE (log 7). -/
def Obligations.DeviceTypeStatusAndRawRepliesUpdateTheirCache : Prop :=
  ∀ s : State,
    (∀ d0 d1 rest, ∃ v : BitVec 16, v.toNat = d0.toNat * 256 + d1.toNat ∧
      exec (.deviceTypeReply (d0 :: d1 :: rest)) s
        = .next { s with lastDevType := some v, events := s.events ++ [.deviceType v] }) ∧
    (∀ data : Bytes, data.length < 2 → exec (.deviceTypeReply data) s
        = .next { s with events := s.events ++ [.raw 0x12 0x11 data] }) ∧
    (∀ len data, exec (.statusReply len data) s
        = .next { s with lastStatus := some (decodeStatus params.status data),
                         events := s.events ++ [.status (decodeStatus params.status data)] }) ∧
    (∀ hdr cmd2 data, exec (.rawReply hdr cmd2 data) s
        = .next { s with events := s.events ++ [.raw hdr cmd2 data] })

/-- R193 with R195, R196: each of the eight timecode rows: the first four data bytes, or `Raw` where they
do not decode or there are fewer. That a framed reply can be run as a step of its own is the MODEL'S CHOICE
(log 7). -/
def Obligations.TimecodeRepliesUpdateTheTimecodeCache : Prop :=
  ∀ row ∈ [(Instr.timecodeReply04, 0x04#8), (Instr.timecodeReply06, 0x06#8), (Instr.timecodeReply08, 0x08#8),
      (Instr.timecodeReply10, 0x10#8), (Instr.timecodeReply11, 0x11#8), (Instr.timecodeReply14, 0x14#8),
      (Instr.timecodeReply16, 0x16#8), (Instr.timecodeReply31, 0x31#8)],
    ∀ (len : BitVec 4) (data : Bytes) (s : State),
      let raw := Event.raw (byteOf (0x70 + len.toNat)) row.2 data
      match data with
      | f :: sec :: m :: h :: _ =>
        match decodeTimecode ⟨f, sec, m, h⟩ with
        | .ok tc => exec (row.1 len data) s
            = .next { s with lastTc := some tc, events := s.events ++ [.timecode tc] }
        | .error _ => exec (row.1 len data) s = .next { s with events := s.events ++ [raw] }
      | _ => exec (row.1 len data) s = .next { s with events := s.events ++ [raw] }

/-- R183 (b), R188: each reply row does what INTERPRET and DELIVER do to a packet with its key. That a framed reply
can be run as a step of its own is the MODEL'S CHOICE (log 7). -/
def Obligations.ReplyRowIsInterpretThenDeliver : Prop :=
  ∀ i : Instr, wellFormed i = true → (encode i).port = .framed →
    ∃ e : Event, interpret params (encode i).bytes = .ok e ∧ ∀ s, exec i s = .next (deliver e s)

/-- R229, R230, and where they run: for each ACK or NAK event, after the event is on the port. That DELIVER
and the two arbiter operations can be run on their own is the MODEL'S CHOICE (log 7). -/
def Obligations.ArbiterSettlesAnArmedWaitOnly : Prop :=
  ∀ s : State,
    exec (.deliver .ack) s = exec .arbiterAck { s with events := s.events ++ [.ack] } ∧
    (∀ rs, exec (.deliver (.nak rs)) s = exec (.arbiterNak rs) { s with events := s.events ++ [.nak rs] }) ∧
    (s.aw = .idle → exec .arbiterAck s = .next s ∧ ∀ rs, exec (.arbiterNak rs) s = .next s) ∧
    (∀ l e, s.aw = .armed l e →
      exec .arbiterAck s = .next { s with aw := .idle, results := s.results ++ [(.sendAwait, .acked)] } ∧
      ∀ rs, exec (.arbiterNak rs) s
        = .next { s with aw := .idle, results := s.results ++ [(.sendAwait, .nakked rs)] })

/-- R198. -/
def Obligations.ReceiveWhileClosedChangesNothing : Prop :=
  ∀ (chunk : Bytes) (s : State), chunk ≠ [] → s.sess = .closed → exec (.rx chunk) s = .next s

/-- RX and EXTRACT complete in every state and do nothing but deliver events and change `ACC` (R180,
R181, R183, R195, R196, R232). That the reply that settles may have begun in `ACC` before the wait was armed is
R229 and R233 against R236's last clause (log 28). That EXTRACT can be run on its own, in a closed session too, is
the MODEL'S CHOICE (log 7). -/
def Obligations.ReceiveAndExtractOnlyDeliverEvents : Prop :=
  (∀ (chunk : Bytes) (s : State), chunk ≠ [] → ∃ t, exec (.rx chunk) s = .next t ∧ deliversOnly s t) ∧
  ∀ s : State, ∃ t, exec .extract s = .next t ∧ deliversOnly s t

/-- R183, for every `P_MAX_LEN`: the loop's five steps (a) to (e); and R181 at the default `P_ACC_CAP = INF`
(log 9): an open session appends a chunk and then extracts. That EXTRACT can be run on its own is the MODEL'S
CHOICE (log 7). -/
def Obligations.ExtractFollowsTheLoopOfTheSpec : Prop :=
  (∀ (P : Params) (s : State),
    (s.acc.length < 3 → extract P s = s) ∧
    (∀ l, 3 ≤ s.acc.length → frontMatch P s.acc 0 = some l →
      ∃ e, interpret P (s.acc.take l) = .ok e ∧
        extract P s = extract P (deliver e { s with acc := s.acc.drop l })) ∧
    (3 ≤ s.acc.length → frontMatch P s.acc 0 = none →
      (P.maxLen ≤ s.acc.length ∨ ∃ o, 1 ≤ o ∧ o ≤ s.acc.length - 3 ∧ frontMatch P s.acc o ≠ none) →
        extract P s = extract P { s with acc := s.acc.drop 1 }) ∧
    (3 ≤ s.acc.length → frontMatch P s.acc 0 = none → s.acc.length < P.maxLen →
      (∀ o, 1 ≤ o → o ≤ s.acc.length - 3 → frontMatch P s.acc o = none) → extract P s = s)) ∧
  (∀ s : State, exec .extract s = .next (extract params s)) ∧
  ∀ (chunk : Bytes) (s : State), chunk ≠ [] → s.sess = .opened →
    exec (.rx chunk) s = exec .extract { s with acc := s.acc ++ chunk }

/-- R187, for every legal `P_MAX_LEN` and `P_ACC_CAP`. -/
def Obligations.AccumulatorStaysBelowMaxLen : Prop :=
  ∀ P : Params, legalParams P = true → ∀ s : State,
    (extract P s).acc.length ≤ P.maxLen - 1 ∧
    ∀ chunk : Bytes, s.acc.length ≤ P.maxLen - 1 → (receive P chunk s).acc.length ≤ P.maxLen - 1

/-- R182: with a finite capacity no byte overflows, and the chunk behaves as some split of it into chunks
would with no bound on the capacity. -/
def Obligations.FullAccumulatorActsAsAChunkBoundary : Prop :=
  ∀ (P : Params) (cap : Nat), legalParams P = true → P.accCap = some cap →
    ∀ s : State, s.sess = .opened → s.acc.length ≤ P.maxLen - 1 →
      (∀ bs : Bytes, (bs.foldl (receiveByte P) s).acc.length ≤ cap) ∧
      ∀ chunk : Bytes, chunk ≠ [] → ∃ chunks : List Bytes, (∀ c ∈ chunks, c ≠ []) ∧
        chunks.flatten = chunk ∧ receive P chunk s = receiveAll { P with accCap := none } chunks s

/-- R199 (1): on a whole buffer the block emits what the source's algorithm emits, and differs from it
only in the bytes left over. -/
def Obligations.SameEventsAsTheSourceAlgorithm : Prop :=
  ∀ P : Params, legalParams P = true → ∀ (bs : Bytes) (s : State), s.sess = .opened → s.acc = [] →
    (∀ cap, P.accCap = some cap → bs.length ≤ cap) →
      let t := receive P bs s
      let u := literalLoop P bs.length { s with acc := bs }
      t.events = u.events ∧ { t with acc := [] } = { u with acc := [] } ∧ u.acc.length ≤ 2

/-- R199 (2): a clean packet, however it is split into chunks, gives its one event and leaves `ACC`
empty. -/
def Obligations.CleanPacketSurvivesEverySplit : Prop :=
  ∀ P : Params, legalParams P = true → ∀ p : Bytes, wellFormedPacket P p = true → Clean p →
    ∀ chunks : List Bytes, (∀ c ∈ chunks, c ≠ []) → chunks.flatten = p →
      ∀ s : State, s.sess = .opened → s.acc = [] →
        ∃ e, interpret P p = .ok e ∧ receiveAll P chunks s = deliver e s

/-- R199 (3): two junk bytes before a clean packet are dropped, where no prefix with junk matches. -/
def Obligations.LeadingJunkIsDropped : Prop :=
  ∀ P : Params, legalParams P = true → ∀ p : Bytes, wellFormedPacket P p = true → Clean p →
    (∀ l, 3 ≤ l → matchesAt (0xFF#8 :: 0xFF#8 :: p) l = false) →
    (∀ l, 3 ≤ l → matchesAt (0xFF#8 :: p) l = false) →
      ∀ s : State, s.sess = .opened → s.acc = [] →
        ∃ e, interpret P p = .ok e ∧ receive P (0xFF#8 :: 0xFF#8 :: p) s = deliver e s

/-- R200: the shortest matching length is framed first, whatever follows; with the spec's example. -/
def Obligations.ShortestMatchIsFramedFirst : Prop :=
  (∀ (P : Params) (chunk : Bytes) (s : State) (l : Nat), P.accCap = none → s.sess = .opened → s.acc = [] →
    frontMatch P chunk 0 = some l →
      ∃ e es, interpret P (chunk.take l) = .ok e ∧
        (receive P chunk s).events = s.events ++ e :: es) ∧
  ∀ s : State, s.sess = .opened → s.acc = [] →
    exec (.rx [0x21, 0x01, 0x22, 0x44]) s
      = .next { s with acc := [0x44], events := s.events ++ [.raw 0x21 0x01 []] }

/-- The chunk of R195's example, an ACK and then a NAK (R232, R279): the ACK settles the wait, the NAK is only an
event. -/
def Obligations.AckThenNakInOneChunkSettlesAsAcked : Prop :=
  ∀ (s : State) (l n : Nat), s.sess = .opened → s.acc = [] → s.aw = .armed l n →
    exec (.rx [0x10, 0x01, 0x11, 0x10, 0x12, 0x04, 0x26]) s
      = .next { s with aw := .idle, results := s.results ++ [(.sendAwait, .acked)],
                       events := s.events ++ [.ack, .nak { checksumError := true }] }

/-! ### The session -/

/-- R222. -/
def Obligations.OpenAnswersInItsOwnStep : Prop :=
  ∀ (cfg : LinkConfig) (s : State),
    (∀ a, s.sess = .opened → exec (.openLink cfg a) s
      = .next { s with results := s.results ++ [(.openLink, .errTransport .alreadyOpen)] }) ∧
    (s.sess = .closed → exec (.openLink cfg .fail) s
      = .next { s with link := s.link ++ [.openLink cfg],
                       results := s.results ++ [(.openLink, .errTransport .openFailed)] }) ∧
    (s.sess = .closed → exec (.openLink cfg .ok) s
      = .next { s with sess := .opened, acc := [], lastStatus := none, lastTc := none, lastDevType := none,
                       link := s.link ++ [.openLink cfg], results := s.results ++ [(.openLink, .ok)] })

/-- R223. -/
def Obligations.CloseAnswersInItsOwnStep : Prop :=
  ∀ s : State, s.tx = .idle →
    (∀ a, s.sess = .closed → exec (.closeLink a) s
      = .next { s with results := s.results ++ [(.closeLink, .errTransport .notOpen)] }) ∧
    (s.sess = .opened → exec (.closeLink .fail) s
      = .next { s with link := s.link ++ [.closeLink],
                       results := s.results ++ [(.closeLink, .errTransport .closeFailed)] }) ∧
    (s.sess = .opened → exec (.closeLink .ok) s
      = .next { s with sess := .closed, link := s.link ++ [.closeLink],
                       results := s.results ++ [(.closeLink, .ok)] })

/-- R224. -/
def Obligations.SendWritesTheBytesUnchanged : Prop :=
  ∀ (bytes : Bytes) (s : State), s.tx = .idle →
    (s.sess = .closed → exec (.send bytes) s
      = .next { s with results := s.results ++ [(.send, .errTransport .notOpen)] }) ∧
    (s.sess = .opened → exec (.send bytes) s
      = .next { s with tx := .busyPlain, link := s.link ++ [.write bytes] })

/-- R225. -/
def Obligations.SendAwaitArmsTheWaitAndWrites : Prop :=
  ∀ (bytes : Bytes) (t : Nat) (s : State), s.tx = .idle → s.aw = .idle →
    (s.sess = .closed → exec (.sendAwait bytes t) s
      = .next { s with results := s.results ++ [(.sendAwait, .errTransport .notOpen)] }) ∧
    (s.sess = .opened → exec (.sendAwait bytes t) s
      = .next { s with tx := .busyAwait, aw := .armed t 0, link := s.link ++ [.write bytes] })

/-- R32, R221: a request whose ready condition is false is held on the port with no other effect. That this
holds of SEND_AWAIT also while the session is closed and a wait is still armed is the MODEL'S CHOICE (log 5):
R37, R238 and D16 speak of NOT_OPEN at once. -/
def Obligations.RequestThatIsNotReadyIsHeld : Prop :=
  ∀ s : State,
    (s.tx ≠ .idle → ∀ a, exec (.closeLink a) s = .next { s with held := s.held ++ [.closeLink a] }) ∧
    (s.tx ≠ .idle → ∀ bs, exec (.send bs) s = .next { s with held := s.held ++ [.send bs] }) ∧
    (s.tx ≠ .idle ∨ s.aw ≠ .idle → ∀ bs t,
      exec (.sendAwait bs t) s = .next { s with held := s.held ++ [.sendAwait bs t] })

/-- R226, R227. -/
def Obligations.WriteAnswersEndTheWrite : Prop :=
  ∀ s : State,
    (s.tx = .busyPlain → exec .writeDone s
      = .next { s with tx := .idle, results := s.results ++ [(.send, .ok)] }) ∧
    (s.tx = .busyAwait → exec .writeDone s = .next { s with tx := .idle }) ∧
    (s.tx = .busyPlain → exec .writeError s
      = .next { s with tx := .idle, results := s.results ++ [(.send, .errTransport .writeFailed)] }) ∧
    (s.tx = .busyAwait → s.aw = .idle → exec .writeError s = .next { s with tx := .idle }) ∧
    (∀ l e, s.tx = .busyAwait → s.aw = .armed l e → exec .writeError s
      = .next { s with tx := .idle, aw := .idle,
                       results := s.results ++ [(.sendAwait, .errTransport .writeFailed)] })

/-- R228. -/
def Obligations.TickCountsTheArmedWait : Prop :=
  ∀ s : State,
    (s.aw = .idle → exec .tick s = .next s) ∧
    (∀ l e, s.aw = .armed l e → e + 1 < max l 1 →
      exec .tick s = .next { s with aw := .armed l (e + 1) }) ∧
    (∀ l e, s.aw = .armed l e → max l 1 ≤ e + 1 →
      exec .tick s = .next { s with aw := .idle, results := s.results ++ [(.sendAwait, .timedOut)] })

/-- R231, R234: a wait that nothing else settles ends at its `max(limit, 1)`-th tick and not before,
whatever the session and the transmitter do; in real time that is within
`((max(limit, 1) - 1) * P_TICK, max(limit, 1) * P_TICK]` of the acceptance; and a width that holds the limit
holds every count, so the counter does not wrap. -/
def Obligations.WaitEndsAtItsLimitAndNotBefore : Prop :=
  (∀ s, exec .tick s = .next (countTick s)) ∧
  ∀ (s : State) (limit : Nat), s.aw = .armed limit 0 →
    (∀ k, k < max limit 1 → countTicks k s = { s with aw := .armed limit k }) ∧
    countTicks (max limit 1) s = { s with aw := .idle, results := s.results ++ [(.sendAwait, .timedOut)] } ∧
    (∀ (P : Params) (first : Nat), 0 < first → first ≤ P.tick →
      (max limit 1 - 1) * P.tick < timeOfTick P first (max limit 1) ∧
      timeOfTick P first (max limit 1) ≤ max limit 1 * P.tick) ∧
    ∀ P : Params, limitFits P limit = true → ∀ k, k < max limit 1 → limitFits P k = true

/-- R238, R37: taking a request gives exactly one result or owes exactly one, and everything else keeps
results given plus results owed; a request that is not ready is held (R32, R221). That this holds of SEND_AWAIT also
while the session is closed and a wait is still armed is the MODEL'S CHOICE (log 5). -/
def Obligations.EveryRequestGetsExactlyOneResult : Prop :=
  (∀ (r : Request) (s : State), ready s r = true →
    (take r s).results.length + owed (take r s) = s.results.length + owed s + 1) ∧
  (∀ (i : Instr) (r : Request) (s : State), requestOf i = some r →
    exec i s = .next (if ready s r then take r s else { s with held := s.held ++ [r] })) ∧
  ∀ (i : Instr) (s t : State), requestOf i = none → exec i s = .next t →
    t.results.length + owed t = s.results.length + owed s

/-- R237: whatever an instruction puts on the result port is a result of its operation, and so is what
taking a waiting request puts there. -/
def Obligations.ResultsAreOfTheirOperation : Prop :=
  (∀ (i : Instr) (s t : State), exec i s = .next t →
    ∃ rs, t.results = s.results ++ rs ∧ ∀ q ∈ rs, resultOf q.1 q.2) ∧
  ∀ (r : Request) (s : State), ∃ rs, (take r s).results = s.results ++ rs ∧ ∀ q ∈ rs, resultOf q.1 q.2

/-- R236, for every choice of the parameters, in the block and in the machine of its last clause. In both the
wait is armed before the write in one step, whatever `ACC` holds, and that step settles nothing; while no wait is
armed a reply that the block frames gives no result. The last clause, that a packet begun in `ACC` before the wait was armed
settles nothing, holds of the second machine, whose mark is no state of the block; with no marked byte the two
step alike; and on the spec's ACK with two of its bytes in `ACC` they part: the block settles (R20, R62, R180,
R229, R233, D18: log 28). -/
def Obligations.ListenBeforeSendInBothReadings : Prop :=
  (∀ (P : Params) (s : State),
    (∀ bs t n, s.sess = .opened → s.tx = .idle → s.aw = .idle →
      let armed := { s with tx := .busyAwait, aw := .armed t 0, link := s.link ++ [.write bs] }
      execIn P (.sendAwait bs t) s = .next armed ∧
        Marked.exec P (.sendAwait bs t) ⟨s, n⟩ = .next ⟨armed, s.acc.length⟩) ∧
    (∀ c t, s.aw = .idle → execIn P (.rx c) s = .next t → t.aw = .idle ∧ t.results = s.results) ∧
    (∀ n l, 0 < n → 3 ≤ s.acc.length → frontMatch P s.acc 0 = some l →
      ∃ e u, interpret P (s.acc.take l) = .ok e ∧ u.acc = s.acc.drop l ∧ u.events = s.events ++ [e] ∧
        u.aw = s.aw ∧ u.results = s.results ∧
        Marked.exec P .extract ⟨s, n⟩ = Marked.exec P .extract ⟨u, n - l⟩) ∧
    Marked.step P ⟨s, 0⟩ = Marked.follow ⟨s, 0⟩ (stepIn P s)) ∧
  ∀ (s : State) (l n : Nat), s.sess = .opened → s.acc = [0x10, 0x01] → s.aw = .armed l n →
    exec (.rx [0x11]) s = .next { s with acc := [], aw := .idle, events := s.events ++ [.ack],
                                         results := s.results ++ [(.sendAwait, .acked)] } ∧
    Marked.exec params (.rx [0x11]) ⟨s, 2⟩ = .next ⟨{ s with acc := [], events := s.events ++ [.ack] }, 0⟩

/-! ### The whole machine -/

/-- R270: within the duties of R287 every instruction goes on to a next state in every state; nothing
stops the block because of an error, whatever its parameters. That an input which breaks a duty is refused is the
MODEL'S CHOICE (log 13). -/
def Obligations.EveryDutifulInstructionGoesOn : Prop :=
  ∀ (i : Instr) (s : State), ((∃ t, exec i s = .next t) ↔ dutiful s i = true) ∧
    ∀ P : Params, (∃ t, execIn P i s = .next t) ↔ dutiful s i = true

/-- R21, R22, R24: what writes the session, the transmitter and the wait. That a framed reply, EXTRACT, DELIVER and
the arbiter operations are inputs of their own is the MODEL'S CHOICE (log 7). -/
def Obligations.OnlyTheNamedInputsWriteTheFsm : Prop :=
  ∀ (i : Instr) (s t : State), exec i s = .next t →
    (t.sess ≠ s.sess → (∃ cfg a, i = .openLink cfg a) ∨ ∃ a, i = .closeLink a) ∧
    (t.tx ≠ s.tx → (∃ bs, i = .send bs) ∨ (∃ bs l, i = .sendAwait bs l) ∨ i = .writeDone ∨ i = .writeError) ∧
    (t.aw ≠ s.aw → (∃ bs l, i = .sendAwait bs l) ∨ i = .tick ∨ i = .writeError ∨ i = .arbiterAck
      ∨ (∃ rs, i = .arbiterNak rs) ∨ (∃ d, i = .ack d) ∨ (∃ d, i = .nak d) ∨ i = .deliver .ack
      ∨ (∃ rs, i = .deliver (.nak rs)) ∨ (∃ c, i = .rx c) ∨ i = .extract)

/-- R51, R59, R196: what writes the accumulator and the caches. That a framed reply, EXTRACT and DELIVER are inputs
of their own is the MODEL'S CHOICE (log 7). -/
def Obligations.OnlyReceivingAndOpenWriteAccumulatorAndCaches : Prop :=
  ∀ (i : Instr) (s t : State), exec i s = .next t →
    (t.acc ≠ s.acc → (∃ c, i = .rx c) ∨ i = .extract ∨ ∃ cfg a, i = .openLink cfg a) ∧
    ((t.lastStatus ≠ s.lastStatus ∨ t.lastTc ≠ s.lastTc ∨ t.lastDevType ≠ s.lastDevType) →
      (∃ c, i = .rx c) ∨ i = .extract ∨ (∃ cfg a, i = .openLink cfg a) ∨ (∃ e, i = .deliver e)
        ∨ (encode i).port = .framed) ∧
    (s.sess = .closed → (∃ c, i = .rx c) → t = s)

/-- R34, R61 (4): an instruction, and a step that takes a waiting request, makes at most one request of the link,
and writes only when no write is outstanding, leaving one outstanding; so a step that is no reset does. -/
def Obligations.LinkWritesNeverOverlap : Prop :=
  (∀ (i : Instr) (s t : State), exec i s = .next t → asksLinkOnce s t) ∧
  (∀ (r : Request) (s : State), ready s r = true → asksLinkOnce s (take r s)) ∧
  ∀ s t : State, (∀ rest, nextMove s ≠ .reset rest) → step s = .next t → asksLinkOnce s t

/-- R290, R291: the state after reset, and what each first input does in it. -/
def Obligations.ResetStateAnswersAsTheSpecSays : Prop :=
  let r := State.reset
  r.sess = .closed ∧ r.tx = .idle ∧ r.acc = [] ∧ r.aw = .idle ∧ r.lastStatus = none ∧ r.lastTc = none ∧
  r.lastDevType = none ∧ r.events = [] ∧ r.results = [] ∧ r.link = [] ∧
  (∀ a, exec (.closeLink a) r = .next { r with results := [(.closeLink, .errTransport .notOpen)] }) ∧
  (∀ bs, exec (.send bs) r = .next { r with results := [(.send, .errTransport .notOpen)] }) ∧
  (∀ bs t, exec (.sendAwait bs t) r = .next { r with results := [(.sendAwait, .errTransport .notOpen)] }) ∧
  (∀ c, c ≠ [] → exec (.rx c) r = .next r) ∧ exec .tick r = .next r ∧
  ∀ q : Request, ready r q = true

/-- R5: the block exists for every choice of its parameters. `decode`, `exec` and `step` are the member at the
spec's defaults (log 9, log 10, log 11); for any `P`, the nine instructions that read a parameter complete with
`P`'s value, every other instruction does what `exec` does, and the state after reset is the same. That INTERPRET
of a string that is no packet answers the error of its PARSE (R143, R188) is the MODEL'S CHOICE (log 20), and so is
that INTERPRET and FRONT_MATCH, run on their own, answer on the codec port and that NAK, STATUS_REPLY and EXTRACT
can be run on their own (log 7). -/
def Obligations.EveryParameterChoiceHasItsMachine : Prop :=
  ((∀ x, decodeIn params x = decode x) ∧ (∀ i s, execIn params i s = exec i s) ∧
    (∀ s, stepIn params s = step s) ∧ legalParams params = true ∧ params.maxLen = 18 ∧ params.accCap = none ∧
    params.timeoutBits = none ∧ params.tick = 1000 ∧
    [NakReason.unknownCmd, .checksumError, .parityError, .bufferOverrun, .framingError, .timeout].map
      (nakMask params.nakTable) = [0x01#8, 0x04#8, 0x10#8, 0x20#8, 0x40#8, 0x80#8]) ∧
  ∀ (P : Params) (s : State),
    (machine P).step = stepIn P ∧ (machine P).reset = State.reset ∧
    (∀ p k, parse P p = .ok k → execIn P (.parsePkt p) s = .next { s with codec := s.codec ++ [.fields k] }) ∧
    (∀ p e, parse P p = .error e → execIn P (.parsePkt p) s = .next { s with codec := s.codec ++ [.error e] }) ∧
    (∀ b, execIn P (.nakDecode b) s
      = .next { s with codec := s.codec ++ [.reasons (decodeNak P.nakTable b)] }) ∧
    (∀ data, execIn P (.statusDecode data) s
      = .next { s with codec := s.codec ++ [.flags (decodeStatus P.status data)] }) ∧
    (∀ p e, interpret P p = .ok e → execIn P (.interpret p) s = .next { s with codec := s.codec ++ [.event e] }) ∧
    (∀ p e, interpret P p = .error e →
      execIn P (.interpret p) s = .next { s with codec := s.codec ++ [.error e] }) ∧
    (∀ o, execIn P (.frontMatch o) s
      = .next { s with codec := s.codec ++ [.matchLength (frontMatch P s.acc o)] }) ∧
    (∀ data, execIn P (.nak data) s = .next (publish (.nak (decodeNak P.nakTable (data.headD 0x00#8))) s)) ∧
    (∀ len data, execIn P (.statusReply len data) s
      = .next (publish (.status (decodeStatus P.status data))
          { s with lastStatus := some (decodeStatus P.status data) })) ∧
    (∀ chunk, chunk ≠ [] → execIn P (.rx chunk) s = .next (receive P chunk s)) ∧
    execIn P .extract s = .next (extract P s) ∧
    ∀ i, readsParameter i = false → execIn P i s = exec i s

/-- R40 at reset, for every choice of the parameters. -/
def Obligations.InvariantHoldsAtReset : Prop :=
  ∀ P : Params, legalParams P = true → State.Inv P State.reset

/-- R40, R25, R231: every step keeps the invariant, from every state that has it, in the block built for any
legal parameters, the defaults among them. -/
def Obligations.EveryStepKeepsTheInvariant : Prop :=
  keepsTheInvariant step params ∧ ∀ P : Params, legalParams P = true → keepsTheInvariant (stepIn P) P

/-- R6, R58: an input that is looked at next and decodes is run by `exec`, after it has left the list, in the
block with the default parameters and in every other. Two clauses are the MODEL'S CHOICES: that an input that is
no instruction is refused by name (log 14), and that `beforeHeld` says whether an input goes before a waiting
request (log 6). -/
def Obligations.StepRunsTheDecodedInstruction : Prop :=
  runsTheNextInput step decode exec ∧ ∀ P : Params, runsTheNextInput (stepIn P) (decodeIn P) (execIn P)

/-- R32, R286, R292: a step with nothing to take changes nothing; a waiting request that has become ready
is taken; reset gives the reset state at once; the same in every block. The MODEL'S CHOICES here: of several that
are ready the oldest is taken (log 5); reset drops the requests that wait and keeps the inputs still to come (log
19); and the draw `beforeHeld`, in two clauses, says whether an input goes before a waiting request (log 6). -/
def Obligations.StepTakesWaitingRequestsAndReset : Prop :=
  takesWaitingAndReset step ∧ ∀ P : Params, takesWaitingAndReset (stepIn P)

/-- R278: inputs at one instant are taken in the table's order: an input on `linkRx` never after one on `linkTx`,
`timeBase` or `host`, one on `linkTx` never after `timeBase` or `host`, one on `timeBase` never after `host`; all
but the host's go before a waiting host request; none is lost or added. With the rule's consequences: "A reply
that arrives at the same instant as the expiring tick settles the wait as `ACKED`", "A reply that arrives with a
write error is taken before the error", "A host request is taken after every state change the others cause". The
MODEL'S CHOICES are the places of the ports the table leaves out: reset first (log 19); `framed` and `internal`
with `linkRx`, `codec` and `command` with `host` (log 27). -/
def Obligations.SimultaneousInputsAreOrdered : Prop :=
  (∀ batch : List Input,
    (serialise batch).Pairwise (fun x y =>
      (y.port = .reset → x.port = .reset) ∧
      (y.port ∈ [.linkRx, .framed, .internal] → x.port ∈ [.reset, .linkRx, .framed, .internal]) ∧
      (y.port = .linkTx → x.port ∈ [.reset, .linkRx, .framed, .internal, .linkTx]) ∧
      (y.port = .timeBase → x.port ∈ [.reset, .linkRx, .framed, .internal, .linkTx, .timeBase])) ∧
    (∀ x ∈ serialise batch, x.beforeHeld = true ↔ x.port ∉ [.host, .codec, .command]) ∧
    ((serialise batch).map fun x => { x with beforeHeld := false }).Perm
      (batch.map fun x => { x with beforeHeld := false })) ∧
  ∀ (s : State) (l n : Nat), s.inputs = [] → s.aw = .armed l n →
    (s.sess = .opened → s.acc = [] →
      ∃ s1, step (s.arriveTogether [encode .tick, encode (.rx [0x10, 0x01, 0x11])]) = .next s1 ∧
        step s1 = .next { s with aw := .idle, events := s.events ++ [.ack],
                                 results := s.results ++ [(.sendAwait, .acked)] }) ∧
    (∃ s1, step (s.arriveTogether [encode .tick, encode (.ack [])]) = .next s1 ∧
      step s1 = .next { s with aw := .idle, events := s.events ++ [.ack],
                               results := s.results ++ [(.sendAwait, .acked)] }) ∧
    (s.sess = .opened → s.acc = [] → s.tx = .busyAwait →
      ∃ s1, step (s.arriveTogether [encode .writeError, encode (.rx [0x10, 0x01, 0x11])]) = .next s1 ∧
        step s1 = .next { s with tx := .idle, aw := .idle, events := s.events ++ [.ack],
                                 results := s.results ++ [(.sendAwait, .acked)] }) ∧
    (∀ bs t, s.sess = .opened → s.tx = .idle → s.held = [] → max l 1 ≤ n + 1 →
      ∃ s1, step (s.arriveTogether [encode (.sendAwait bs t), encode .tick]) = .next s1 ∧
        step s1 = .next { s with tx := .busyAwait, aw := .armed t 0, link := s.link ++ [.write bs],
                                 results := s.results ++ [(.sendAwait, .timedOut)] })
end

