-- ==== Sys2Proof/Laws/Operands.lean ====
section
/-! SUPPORT. The packet format: header and checksum, and PARSE against the wire layout. -/

namespace Sys2Proof.Machine

/-- The encoder keeps the class nibble (R71). -/
@[simp] theorem classBits_header (c : Byte) (n : Nat) : classBits (header c n) = classBits c := by
  refine BitVec.eq_of_getLsbD_eq fun i hi => ?_
  simp only [classBits, header, BitVec.getLsbD_and, BitVec.getLsbD_or]
  interval_cases i <;> simp

@[simp] theorem classBits_classBits (b : Byte) : classBits (classBits b) = classBits b := by
  simp [classBits, BitVec.and_assoc]

@[simp] theorem classBits_senseReturnHeader (len : BitVec 4) :
    classBits (senseReturnHeader len) = 0x70#8 := by
  revert len; decide

@[simp] theorem lengthNibble_senseReturnHeader (len : BitVec 4) :
    lengthNibble (senseReturnHeader len) = len := by
  revert len; decide

theorem senseReturnHeader_lengthNibble (h : Byte) (hc : classBits h = 0x70#8) :
    senseReturnHeader (lengthNibble h) = h := by
  revert h; decide

theorem senseReturnHeader_ne (len : BitVec 4) (b : Byte) (hb : classBits b ≠ 0x70#8) :
    senseReturnHeader len ≠ b := by
  rintro rfl; simp at hb

@[simp] theorem wirePacket_length (h c : Byte) (d : Bytes) : (wirePacket h c d).length = d.length + 3 := by
  simp [wirePacket]

/-- The checksum law of a packet's layout (R74): the last byte is the checksum of the others. -/
theorem wirePacket_last (h c : Byte) (d : Bytes) :
    (wirePacket h c d)[d.length + 2]? = some (checksum (h :: c :: d)) := by
  simp [wirePacket]

theorem wirePacket_take (h c : Byte) (d : Bytes) :
    (wirePacket h c d).take (d.length + 2) = h :: c :: d := by
  rw [wirePacket, List.take_append_of_le_length (by simp), List.take_of_length_le (by simp)]

/-- A string of three bytes or more that ends in the checksum of the others is the wire layout of its
fields. -/
theorem wire_of_last {p : Bytes} (h3 : 3 ≤ p.length)
    (hl : p[p.length - 1]? = some (checksum (p.take (p.length - 1)))) :
    p = wirePacket (p.getD 0 0) (p.getD 1 0) ((p.take (p.length - 1)).drop 2) := by
  have hne : p ≠ [] := by rintro rfl; simp at h3
  obtain ⟨q, x, rfl⟩ := (List.eq_nil_or_concat p).resolve_left hne
  match q, h3 with
  | a :: b :: d, _ =>
    simp only [List.concat_eq_append, List.length_append, List.length_cons, List.length_nil,
      Nat.zero_add, Nat.add_sub_cancel] at hl ⊢
    have ht : ((a :: b :: d) ++ [x]).take (d.length + 1 + 1) = a :: b :: d := by
      rw [List.take_append_of_le_length (by simp), List.take_of_length_le (by simp)]
    rw [ht] at hl ⊢
    have hx : x = checksum (a :: b :: d) := by simpa using hl
    simp [wirePacket, hx]

theorem wellFormedPacket_iff (P : Params) (p : Bytes) :
    wellFormedPacket P p = true ↔
      ∃ h c d, p = wirePacket h c d ∧ d.length + 3 ≤ P.maxLen := by
  constructor
  · intro hw
    have ⟨h3, hm, hl⟩ := of_decide_eq_true hw
    refine ⟨_, _, _, wire_of_last h3 hl, ?_⟩
    simp only [List.length_drop, List.length_take]
    omega
  · rintro ⟨h, c, d, rfl, hm⟩
    refine decide_eq_true ⟨by simp, by simpa using hm, ?_⟩
    rw [wirePacket_length, show d.length + 3 - 1 = d.length + 2 by omega, wirePacket_last, wirePacket_take]

/-- PARSE takes a packet's wire layout apart (R143, R156). -/
theorem parse_wirePacket (P : Params) (h c : Byte) (d : Bytes) (hm : d.length + 3 ≤ P.maxLen) :
    parse P (wirePacket h c d) = .ok { hdr := h, cls := classBits h, cmd2 := c, data := d } := by
  have hw : wellFormedPacket P (wirePacket h c d) = true := (wellFormedPacket_iff _ _).2 ⟨h, c, d, rfl, hm⟩
  rw [parse, if_pos hw, wirePacket_length, show d.length + 3 - 1 = d.length + 2 by omega, wirePacket_take]
  simp [wirePacket]

/-- Everything PARSE can do (R143): the fields of a packet's wire layout, or NOT_A_PACKET. -/
theorem parse_ok_iff (P : Params) (p : Bytes) (k : Packet) :
    parse P p = .ok k ↔
      p = wirePacket k.hdr k.cmd2 k.data ∧ k.cls = classBits k.hdr ∧ k.data.length + 3 ≤ P.maxLen := by
  constructor
  · intro hp
    by_cases hw : wellFormedPacket P p = true
    · obtain ⟨h, c, d, rfl, hm⟩ := (wellFormedPacket_iff P p).1 hw
      rw [parse_wirePacket P h c d hm] at hp
      cases hp
      exact ⟨rfl, rfl, hm⟩
    · simp [parse, hw] at hp
  · rintro ⟨rfl, hc, hm⟩
    rw [parse_wirePacket P _ _ _ hm]
    cases k; simp_all

theorem parse_error (P : Params) (p : Bytes) (e : CodecError) (h : parse P p = .error e) :
    e = .notAPacket ∧ wellFormedPacket P p = false := by
  unfold parse at h
  split at h
  · cases h
  · next hw => exact ⟨by cases h; rfl, by simpa using hw⟩

/-- The checksum does not depend on the order of the bytes (R141). -/
theorem checksum_perm {a b : Bytes} (h : a.Perm b) : checksum a = checksum b := by
  simp only [checksum, (h.map BitVec.toNat).sum_eq]

/-! ### Operand formats as numbers -/

/-- R141 as a number. -/
theorem checksum_toNat (bs : Bytes) : (checksum bs).toNat = (bs.map BitVec.toNat).sum % 256 := by
  simp [checksum, byteOf]

/-- R144 as a number. -/
theorem bcd_toNat {v : Nat} (h : v ≤ 99) : (bcd v).toNat = v / 10 * 16 + v % 10 := by
  interval_cases v <;> rfl

/-- R145 as a number. -/
theorem unbcd_eq (b : Byte) : unbcd b = b.toNat / 16 * 10 + b.toNat % 16 := by
  revert b; decide

/-- R145 of a frames byte, whose two flag bits are masked off (R148). -/
theorem unbcd_frames (b : Byte) : unbcd (b &&& 0x3F#8) = b.toNat % 64 / 16 * 10 + b.toNat % 16 := by
  revert b; decide

theorem clampTo99_le (v : Nat) : clampTo99 v ≤ 99 := by unfold clampTo99; omega

/-- R53 as a number. -/
theorem deviceTypeValue_toNat (d0 d1 : Byte) :
    (deviceTypeValue d0 d1).toNat = d0.toNat * 256 + d1.toNat := by
  have h1 := d1.isLt
  have h0 := d0.isLt
  simp only [deviceTypeValue, BitVec.toNat_or, BitVec.toNat_shiftLeft, BitVec.toNat_setWidth,
    Nat.shiftLeft_eq]
  rw [show d0.toNat % 2 ^ 16 * 2 ^ 8 % 2 ^ 16 = 2 ^ 8 * d0.toNat by omega,
    show d1.toNat % 2 ^ 16 = d1.toNat by omega, ← Nat.two_pow_add_eq_or_of_lt h1]
  omega

end Sys2Proof.Machine
end

