-- ==== Sys2Proof/Laws/PerInstr.lean ====
section
/-! SUPPORT. One lemma per instruction: the tables of the decoder take an instruction's shape back to the
instruction (the key, the operation code and the operands; the packet layout is `parse_wirePacket`). -/

namespace Sys2Proof.Laws.EncodedForm

open Sys2Proof Sys2Proof.Machine

/-- The decoder's tables on the shape the encoder gives. -/
def Recovers (P : Params) (i : Instr) : Shape → Prop
  | .command cmd1 cmd2 data => ∃ r, commandOf (classBits cmd1) cmd2 = some r ∧ r.build data = i
  | .reply hdr cmd2 data => data.length + 3 ≤ P.maxLen ∧ replyOf hdr cmd2 data = i
  | .operation code operands => operationOf code operands = some i

/-- For every choice of the parameters (R5). -/
def Statement (i : Instr) : Prop := ∀ P : Params, wellFormedIn P i = true → Recovers P i (shape i)

/-- R78: a command's key selects its catalogue row. -/
theorem command_statement {i : Instr} {c1 c2 : Byte} {d : Bytes} {r : CommandRow}
    (hs : shape i = .command c1 c2 d) (hr : commandOf (classBits c1) c2 = some r)
    (hb : r.build d = i) : Statement i := by
  intro P _
  rw [hs]
  exact ⟨r, hr, hb⟩

/-- R84, R85: a class `0x7` header passes the three whole-header rows. -/
theorem replyOf_senseReturn (len : BitVec 4) (c2 : Byte) (d : Bytes) :
    replyOf (senseReturnHeader len) c2 d =
      (match c2.toNat with
        | 0x20 => .statusReply len d
        | 0x04 => .timecodeReply04 len d
        | 0x06 => .timecodeReply06 len d
        | 0x08 => .timecodeReply08 len d
        | 0x10 => .timecodeReply10 len d
        | 0x11 => .timecodeReply11 len d
        | 0x14 => .timecodeReply14 len d
        | 0x16 => .timecodeReply16 len d
        | 0x31 => .timecodeReply31 len d
        | _ => .rawReply (senseReturnHeader len) c2 d) := by
  have h1 : senseReturnHeader len ≠ 0x10#8 := senseReturnHeader_ne len _ (by decide)
  have h2 : senseReturnHeader len ≠ 0x12#8 := senseReturnHeader_ne len _ (by decide)
  simp only [replyOf, h1, h2, false_and, if_false, classBits_senseReturnHeader, if_true,
    lengthNibble_senseReturnHeader] <;> rfl

/-- R86: a packet no named row matches is RAW_REPLY. -/
theorem replyOf_raw {hdr c2 : Byte} {d : Bytes} (h : namedReplyKey hdr c2 = false) :
    replyOf hdr c2 d = .rawReply hdr c2 d := by
  unfold namedReplyKey at h
  simp only [Bool.or_eq_false_iff, Bool.and_eq_false_iff, beq_eq_false_iff_ne, ne_eq,
    List.contains_eq_mem, List.mem_cons, List.not_mem_nil, or_false, decide_eq_false_iff_not,
    not_or] at h
  obtain ⟨⟨h1, h2⟩, h3⟩ := h
  unfold replyOf classBits
  rw [if_neg (by tauto), if_neg (by tauto), if_neg (by tauto)]
  split
  · next hc =>
    obtain h3 | h3 := h3
    · exact absurd hc h3
    · have key : ∀ n : Nat, n < 256 → c2 ≠ BitVec.ofNat 8 n → c2.toNat ≠ n := by
        rintro n hn hne rfl
        exact hne (by simp)
      have k := fun n hn hne => key n hn hne
      split
      all_goals first | rfl | (exfalso; revert h3; simp_all [← BitVec.toNat_inj])
  · rfl

theorem localDisable (data : Bytes) : Statement (.localDisable data) :=
  command_statement rfl rfl rfl

theorem deviceType (data : Bytes) : Statement (.deviceType data) :=
  command_statement rfl rfl rfl

theorem localEnable (data : Bytes) : Statement (.localEnable data) :=
  command_statement rfl rfl rfl

theorem stop (data : Bytes) : Statement (.stop data) :=
  command_statement rfl rfl rfl

theorem play (data : Bytes) : Statement (.play data) :=
  command_statement rfl rfl rfl

theorem record (data : Bytes) : Statement (.record data) :=
  command_statement rfl rfl rfl

theorem standbyOff (data : Bytes) : Statement (.standbyOff data) :=
  command_statement rfl rfl rfl

theorem standbyOn (data : Bytes) : Statement (.standbyOn data) :=
  command_statement rfl rfl rfl

theorem eject (data : Bytes) : Statement (.eject data) :=
  command_statement rfl rfl rfl

theorem fastFwd (data : Bytes) : Statement (.fastFwd data) :=
  command_statement rfl rfl rfl

theorem jogFwd (data : Bytes) : Statement (.jogFwd data) :=
  command_statement rfl rfl rfl

theorem varFwd (data : Bytes) : Statement (.varFwd data) :=
  command_statement rfl rfl rfl

theorem shuttleFwd (data : Bytes) : Statement (.shuttleFwd data) :=
  command_statement rfl rfl rfl

theorem frameStepFwd (data : Bytes) : Statement (.frameStepFwd data) :=
  command_statement rfl rfl rfl

theorem rewind (data : Bytes) : Statement (.rewind data) :=
  command_statement rfl rfl rfl

theorem jogRev (data : Bytes) : Statement (.jogRev data) :=
  command_statement rfl rfl rfl

theorem varRev (data : Bytes) : Statement (.varRev data) :=
  command_statement rfl rfl rfl

theorem shuttleRev (data : Bytes) : Statement (.shuttleRev data) :=
  command_statement rfl rfl rfl

theorem frameStepRev (data : Bytes) : Statement (.frameStepRev data) :=
  command_statement rfl rfl rfl

theorem preroll (data : Bytes) : Statement (.preroll data) :=
  command_statement rfl rfl rfl

theorem cueUpWithData (data : Bytes) : Statement (.cueUpWithData data) :=
  command_statement rfl rfl rfl

theorem syncPlay (data : Bytes) : Statement (.syncPlay data) :=
  command_statement rfl rfl rfl

theorem preview (data : Bytes) : Statement (.preview data) :=
  command_statement rfl rfl rfl

theorem review (data : Bytes) : Statement (.review data) :=
  command_statement rfl rfl rfl

theorem tcGenSense (data : Bytes) : Statement (.tcGenSense data) :=
  command_statement rfl rfl rfl

theorem currentTimeSense (data : Bytes) : Statement (.currentTimeSense data) :=
  command_statement rfl rfl rfl

theorem inDataSense (data : Bytes) : Statement (.inDataSense data) :=
  command_statement rfl rfl rfl

theorem outDataSense (data : Bytes) : Statement (.outDataSense data) :=
  command_statement rfl rfl rfl

theorem statusSense (data : Bytes) : Statement (.statusSense data) :=
  command_statement rfl rfl rfl

theorem ack (data : Bytes) : Statement (.ack data) := fun _ h =>
  ⟨of_decide_eq_true h, rfl⟩

theorem nak (data : Bytes) : Statement (.nak data) := fun _ h =>
  ⟨of_decide_eq_true h, rfl⟩

theorem deviceTypeReply (data : Bytes) : Statement (.deviceTypeReply data) := fun _ h =>
  ⟨of_decide_eq_true h, rfl⟩

theorem statusReply (len : BitVec 4) (data : Bytes) : Statement (.statusReply len data) := fun _ h =>
  ⟨of_decide_eq_true h, replyOf_senseReturn len _ data⟩

theorem timecodeReply04 (len : BitVec 4) (data : Bytes) : Statement (.timecodeReply04 len data) := fun _ h =>
  ⟨of_decide_eq_true h, replyOf_senseReturn len _ data⟩

theorem timecodeReply06 (len : BitVec 4) (data : Bytes) : Statement (.timecodeReply06 len data) := fun _ h =>
  ⟨of_decide_eq_true h, replyOf_senseReturn len _ data⟩

theorem timecodeReply08 (len : BitVec 4) (data : Bytes) : Statement (.timecodeReply08 len data) := fun _ h =>
  ⟨of_decide_eq_true h, replyOf_senseReturn len _ data⟩

theorem timecodeReply10 (len : BitVec 4) (data : Bytes) : Statement (.timecodeReply10 len data) := fun _ h =>
  ⟨of_decide_eq_true h, replyOf_senseReturn len _ data⟩

theorem timecodeReply11 (len : BitVec 4) (data : Bytes) : Statement (.timecodeReply11 len data) := fun _ h =>
  ⟨of_decide_eq_true h, replyOf_senseReturn len _ data⟩

theorem timecodeReply14 (len : BitVec 4) (data : Bytes) : Statement (.timecodeReply14 len data) := fun _ h =>
  ⟨of_decide_eq_true h, replyOf_senseReturn len _ data⟩

theorem timecodeReply16 (len : BitVec 4) (data : Bytes) : Statement (.timecodeReply16 len data) := fun _ h =>
  ⟨of_decide_eq_true h, replyOf_senseReturn len _ data⟩

theorem timecodeReply31 (len : BitVec 4) (data : Bytes) : Statement (.timecodeReply31 len data) := fun _ h =>
  ⟨of_decide_eq_true h, replyOf_senseReturn len _ data⟩

theorem rawReply (hdr cmd2 : Byte) (data : Bytes) : Statement (.rawReply hdr cmd2 data) := by
  intro P h
  obtain ⟨hl, hk⟩ := Bool.and_eq_true_iff.1 h
  exact ⟨of_decide_eq_true hl, replyOf_raw (by simpa using hk)⟩

theorem openLink (cfg : LinkConfig) (answer : LinkAnswer) : Statement (.openLink cfg answer) := fun _ _ => rfl

theorem closeLink (answer : LinkAnswer) : Statement (.closeLink answer) := fun _ _ => rfl

theorem send (bytes : Bytes) : Statement (.send bytes) := fun _ _ => rfl

theorem sendAwait (bytes : Bytes) (timeoutMs : Nat) : Statement (.sendAwait bytes timeoutMs) := fun _ _ => rfl

theorem rx (chunk : Bytes) : Statement (.rx chunk) := fun _ _ => rfl

theorem writeDone : Statement .writeDone := fun _ _ => rfl

theorem writeError : Statement .writeError := fun _ _ => rfl

theorem tick : Statement .tick := fun _ _ => rfl

theorem csum (bytes : Bytes) : Statement (.csum bytes) := fun _ _ => rfl

theorem encodePkt (cmd1 cmd2 : Byte) (data : Bytes) : Statement (.encodePkt cmd1 cmd2 data) := fun _ _ => rfl

theorem parsePkt (bytes : Bytes) : Statement (.parsePkt bytes) := fun _ _ => rfl

theorem bcdPack (v : Nat) : Statement (.bcdPack v) := fun _ _ => rfl

theorem bcdUnpack (b : Byte) : Statement (.bcdUnpack b) := fun _ _ => rfl

theorem clamp99 (v : Nat) : Statement (.clamp99 v) := fun _ _ => rfl

theorem tcEncode (tc : TimecodeInput) : Statement (.tcEncode tc) := fun _ _ => rfl

theorem tcDecode (wire : TimecodeBytes) : Statement (.tcDecode wire) := fun _ _ => rfl

theorem nakDecode (b : Byte) : Statement (.nakDecode b) := fun _ _ => rfl

theorem statusDecode (data : Bytes) : Statement (.statusDecode data) := fun _ _ => rfl

theorem statusSenseByte (start size : Nat) : Statement (.statusSenseByte start size) := fun _ _ => rfl

theorem extract : Statement .extract := fun _ _ => rfl

theorem frontMatch (offset : Nat) : Statement (.frontMatch offset) := fun _ _ => rfl

theorem interpret (packet : Bytes) : Statement (.interpret packet) := fun _ _ => rfl

theorem deliver (event : Event) : Statement (.deliver event) := fun _ _ => rfl

theorem arbiterAck : Statement .arbiterAck := fun _ _ => rfl

theorem arbiterNak (reasons : NakSet) : Statement (.arbiterNak reasons) := fun _ _ => rfl

end Sys2Proof.Laws.EncodedForm
end

