-- ==== Sys2Proof/Laws/Decode.lean ====
section
/-! SUPPORT. The decoder's tables against the encoder's: the shape of what each table builds. -/

namespace Sys2Proof

open Machine

/-- R128: an operation's shape carries its code. -/
theorem operationOf_shape {code : Byte} {o : Operands} {i : Instr} (h : operationOf code o = some i) :
    ∃ o', shape i = .operation code o' := by
  unfold operationOf at h
  split at h <;> rename_i hc <;> first
    | (cases h; exact ⟨_, congrArg (Shape.operation · _) (BitVec.eq_of_toNat_eq (x := _) (y := code) hc.symm)⟩)
    | cases h

/-- R80 to R86: a reply's shape is the packet it was built from. -/
theorem replyOf_shape (h c : Byte) (d : Bytes) : shape (replyOf h c d) = .reply h c d := by
  unfold replyOf
  split
  · next hh => rw [hh.1, hh.2]; rfl
  split
  · next hh => rw [hh.1, hh.2]; rfl
  split
  · next hh => rw [hh.1, hh.2]; rfl
  split
  · next hc =>
    split <;> rename_i h2 <;> first
      | rfl
      | (have hcc : c = BitVec.ofNat 8 c.toNat := by simp
         rw [h2] at hcc; subst hcc
         simp only [shape, senseReturnHeader_lengthNibble h hc])
  · rfl

/-- R86, R87: a reply row of a packet of at most `P_MAX_LEN` bytes is well-formed; only a packet no named
row matches is RAW_REPLY. -/
theorem replyOf_wellFormed (h c : Byte) (d : Bytes) (P : Params) (hd : d.length + 3 ≤ P.maxLen) :
    wellFormedIn P (replyOf h c d) = true := by
  have hr : decide (d.length + 3 ≤ P.maxLen) = true := by simpa using hd
  unfold replyOf
  split
  · exact hr
  split
  · exact hr
  split
  · exact hr
  split
  · next h1 h2 h3 hc =>
    split <;> first
      | exact hr
      | skip
    rename_i g1 g2 g3 g4 g5 g6 g7 g8 g9
    simp only [wellFormedIn, hr, Bool.true_and, namedReplyKey]
    simp only [classBits] at hc
    have e1 : h ≠ 0x10#8 := by rintro rfl; revert hc; decide
    have e2 : h ≠ 0x12#8 := by rintro rfl; revert hc; decide
    simp [e1, e2, hc]
    refine ⟨?_, ?_, ?_, ?_, ?_, ?_, ?_, ?_, ?_⟩ <;> (rintro rfl; simp_all)
  · next h1 h2 h3 hc =>
    simp only [wellFormedIn, hr, Bool.true_and, namedReplyKey]
    have hc' : (h &&& 0xF0#8 == 0x70#8) = false := by simpa [classBits] using hc
    simp only [hc', Bool.false_and, Bool.or_false]
    simp only [not_and] at h1 h2 h3
    by_cases e1 : h = 0x10#8
    · subst e1; simp [h1 rfl, h2 rfl]
    · by_cases e2 : h = 0x12#8
      · subst e2; simp [h3 rfl]
      · simp [e1, e2]

/-- R89: what a catalogue row builds has the row's key, a class with length nibble 0. -/
theorem catalogue_row {r : CommandRow} (hr : r ∈ catalogue) :
    classBits r.cmd1 = r.cmd1 ∧ (∀ d, shape (r.build d) = .command r.cmd1 r.cmd2 d) ∧
      ∀ P d, wellFormedIn P (r.build d) = true := by
  simp only [catalogue, List.cons_append, List.nil_append, List.mem_cons, List.not_mem_nil, or_false] at hr
  rcases hr with rfl | rfl | rfl | rfl | rfl | rfl | rfl | rfl | rfl | rfl | rfl | rfl | rfl | rfl | rfl
    | rfl | rfl | rfl | rfl | rfl | rfl | rfl | rfl | rfl | rfl | rfl | rfl | rfl | rfl <;>
    exact ⟨by decide, fun _ => rfl, fun _ _ => rfl⟩

/-- R70, R71: the header is the class plus the low nibble of the length. -/
theorem header_eq_add (c1 : Byte) (n : Nat) : header c1 n = classBits c1 + byteOf (n % 16) := by
  have h : byteOf n &&& 0x0F#8 = byteOf (n % 16) := by
    apply BitVec.eq_of_toNat_eq
    simp only [byteOf, BitVec.toNat_and, BitVec.toNat_ofNat]
    have h15 : (15 % 2 ^ 8 : Nat) = 2 ^ 4 - 1 := rfl
    rw [h15, Nat.and_two_pow_sub_one_eq_mod]; omega
  have hn : n % 16 < 16 := Nat.mod_lt _ (by decide)
  unfold header
  rw [h]
  generalize n % 16 = m at hn
  revert c1
  interval_cases m <;> decide

/-- R5: with unbounded naturals every limit fits. -/
@[simp] theorem limitFits_params (l : Nat) : limitFits params l = true := rfl

/-- R231: a width that holds a limit holds every smaller count. -/
theorem limitFits_mono {P : Params} {k l : Nat} (h : limitFits P l = true) (hk : k ≤ l) :
    limitFits P k = true := by
  unfold limitFits at *
  cases hw : P.timeoutBits with
  | none => rfl
  | some w => rw [hw] at h; exact decide_eq_true (Nat.lt_of_le_of_lt hk (of_decide_eq_true h))

/-- R128: an operation's port is none of the packets' ports and not the reset line. -/
theorem operationPort_ne (code : Byte) :
    operationPort code ≠ .command ∧ operationPort code ≠ .framed ∧ operationPort code ≠ .reset := by
  revert code; decide

end Sys2Proof
end

