-- ==== Sys2Proof/Laws/Flags.lean ====
section
/-! SUPPORT. The flag sets: membership in a decoded NAK set and in a decoded status set, and that a
decoded status set is in the table's order. -/

namespace Sys2Proof.Machine

/-- R151: a reason is in the decoded set when its bit is signalled. -/
@[simp] theorem nakHas_decodeNak (t : NakTable) (b : Byte) (r : NakReason) :
    nakHas (decodeNak t b) r = nakSignalled t b r := by
  cases r <;> rfl

/-- A set is its members (R30). -/
theorem nakSet_ext {a b : NakSet} (h : ∀ r, nakHas a r = nakHas b r) : a = b := by
  have h1 := h .unknownCmd; have h2 := h .checksumError; have h3 := h .parityError
  have h4 := h .bufferOverrun; have h5 := h .framingError; have h6 := h .timeout
  cases a; cases b
  simp_all [nakHas]

/-- R154: which flags the table holds, with their places. -/
theorem mem_statusTable {l : StatusLayout} {f : StatusFlag} {p : BitPos} :
    (f, p) ∈ statusTable l ↔
      (f = .play ∧ p = l.play) ∨ (f = .record ∧ p = l.record) ∨ (f = .servoLock ∧ p = l.servoLock)
        ∨ (f = .cassetteOut ∧ p = l.cassetteOut) ∨ ∃ n, f = .other n ∧ l.others[n]? = some p := by
  simp only [statusTable, List.mem_append, List.mem_cons, List.not_mem_nil, or_false, Prod.mk.injEq,
    List.mem_map, Prod.exists, or_assoc]
  constructor
  · rintro (h | h | h | h | ⟨q, n, hm, rfl, rfl⟩)
    · exact .inl h
    · exact .inr (.inl h)
    · exact .inr (.inr (.inl h))
    · exact .inr (.inr (.inr (.inl h)))
    · exact .inr (.inr (.inr (.inr ⟨n, rfl, by simpa [List.mem_zipIdx_iff_getElem?] using hm⟩)))
  · rintro (h | h | h | h | ⟨n, rfl, hn⟩)
    · exact .inl h
    · exact .inr (.inl h)
    · exact .inr (.inr (.inl h))
    · exact .inr (.inr (.inr (.inl h)))
    · exact .inr (.inr (.inr (.inr ⟨p, n, by simpa [List.mem_zipIdx_iff_getElem?] using hn, rfl, rfl⟩)))

/-- R153: a flag is in the decoded set when some place of it is signalled. -/
theorem mem_decodeStatus {l : StatusLayout} {data : Bytes} {f : StatusFlag} :
    f ∈ decodeStatus l data ↔ ∃ p, (f, p) ∈ statusTable l ∧ statusBit data p = true := by
  simp [decodeStatus, List.mem_map, List.mem_filter]

/-- The ranks of the table's flags are 0, 1, 2, …. -/
theorem statusTable_ranks (l : StatusLayout) :
    (statusTable l).map (fun e => flagRank e.1) = List.range (4 + l.others.length) := by
  have h : ∀ (xs : List BitPos) k,
      ((xs.zipIdx k).map fun (p, n) => ((StatusFlag.other n, p) : StatusFlag × BitPos)).map
        (fun e => flagRank e.1) = List.range' (4 + k) xs.length := by
    intro xs
    induction xs with
    | nil => intro k; rfl
    | cons x xs ih =>
      intro k
      rw [List.zipIdx_cons, List.map_cons, List.map_cons, ih, List.length_cons, List.range'_succ]
      rfl
  rw [statusTable, List.map_append, h, List.range_eq_range', Nat.add_comm, ← List.range'_append_1]
  rfl

/-- A decoded status set is a legal set of flags: each in the table, in its order, none twice. -/
theorem isFlagSet_decodeStatus (l : StatusLayout) (data : Bytes) :
    isFlagSet l (decodeStatus l data) = true := by
  unfold isFlagSet
  rw [Bool.and_eq_true, decide_eq_true_eq]
  constructor
  · rw [List.all_eq_true]
    intro f hf
    obtain ⟨p, hp, _⟩ := mem_decodeStatus.1 hf
    rcases mem_statusTable.1 hp with ⟨rfl, _⟩ | ⟨rfl, _⟩ | ⟨rfl, _⟩ | ⟨rfl, _⟩ | ⟨n, rfl, hn⟩
    · rfl
    · rfl
    · rfl
    · rfl
    · exact decide_eq_true (List.getElem?_eq_some_iff.1 hn).1
  · rw [decodeStatus, List.map_map]
    have hs : ((statusTable l).filter fun e => statusBit data e.2).Sublist (statusTable l) :=
      List.filter_sublist
    have hr : ((statusTable l).map (fun e => flagRank e.1)).Pairwise (· < ·) := by
      rw [statusTable_ranks]; exact List.pairwise_lt_range
    exact hr.sublist (hs.map _)

/-- R151: a signalled reason is a bit of the reason byte. -/
theorem nakSignalled_eq (t : NakTable) (b : Byte) (r : NakReason) :
    nakSignalled t b r = b.toNat.testBit (nakBit t r) := by
  have key : ∀ (b : Byte) (k : Fin 8), ((b &&& (1#8 <<< k.val)) != 0#8) = b.toNat.testBit k := by decide
  exact key b _

/-- R153: a signalled place is a bit of a data byte that is there. -/
theorem statusBit_iff (data : Bytes) (p : BitPos) :
    statusBit data p = true ↔
      ∃ b : Byte, data[p.byte.val]? = some b ∧ b.toNat.testBit p.bit.val = true := by
  have key : ∀ (b : Byte) (k : Fin 8), ((b >>> k.val) &&& 1#8 == 1#8) = b.toNat.testBit k := by decide
  unfold statusBit
  cases h : data[p.byte.val]? with
  | none => simp
  | some b => simp [key]

end Sys2Proof.Machine
end

