-- ==== Sys2Proof/Laws/State.lean ====
section
/-! SUPPORT. What each operation on a port does to each field of the state, one lemma per field. -/

namespace Sys2Proof.Machine

variable (s : State)

@[ext] theorem State.ext_fields {s t : State} (h1 : s.sess = t.sess) (h2 : s.tx = t.tx)
    (h3 : s.acc = t.acc) (h4 : s.aw = t.aw) (h5 : s.lastStatus = t.lastStatus)
    (h6 : s.lastTc = t.lastTc) (h7 : s.lastDevType = t.lastDevType) (h8 : s.events = t.events)
    (h9 : s.results = t.results) (h10 : s.link = t.link) (h11 : s.codec = t.codec)
    (h12 : s.held = t.held) (h13 : s.inputs = t.inputs) : s = t := by
  cases s; cases t; simp_all

/-! ### `emitEvent` -/

@[simp] theorem emitEvent_sess (e : Event) : (emitEvent e s).sess = s.sess := rfl
@[simp] theorem emitEvent_tx (e : Event) : (emitEvent e s).tx = s.tx := rfl
@[simp] theorem emitEvent_acc (e : Event) : (emitEvent e s).acc = s.acc := rfl
@[simp] theorem emitEvent_aw (e : Event) : (emitEvent e s).aw = s.aw := rfl
@[simp] theorem emitEvent_lastStatus (e : Event) : (emitEvent e s).lastStatus = s.lastStatus := rfl
@[simp] theorem emitEvent_lastTc (e : Event) : (emitEvent e s).lastTc = s.lastTc := rfl
@[simp] theorem emitEvent_lastDevType (e : Event) : (emitEvent e s).lastDevType = s.lastDevType := rfl
@[simp] theorem emitEvent_events (e : Event) : (emitEvent e s).events = s.events ++ [e] := rfl
@[simp] theorem emitEvent_results (e : Event) : (emitEvent e s).results = s.results := rfl
@[simp] theorem emitEvent_link (e : Event) : (emitEvent e s).link = s.link := rfl
@[simp] theorem emitEvent_codec (e : Event) : (emitEvent e s).codec = s.codec := rfl
@[simp] theorem emitEvent_held (e : Event) : (emitEvent e s).held = s.held := rfl
@[simp] theorem emitEvent_inputs (e : Event) : (emitEvent e s).inputs = s.inputs := rfl

/-! ### `emitResult` -/

@[simp] theorem emitResult_sess (op : HostOp) (r : Result) : (emitResult op r s).sess = s.sess := rfl
@[simp] theorem emitResult_tx (op : HostOp) (r : Result) : (emitResult op r s).tx = s.tx := rfl
@[simp] theorem emitResult_acc (op : HostOp) (r : Result) : (emitResult op r s).acc = s.acc := rfl
@[simp] theorem emitResult_aw (op : HostOp) (r : Result) : (emitResult op r s).aw = s.aw := rfl
@[simp] theorem emitResult_lastStatus (op : HostOp) (r : Result) : (emitResult op r s).lastStatus = s.lastStatus := rfl
@[simp] theorem emitResult_lastTc (op : HostOp) (r : Result) : (emitResult op r s).lastTc = s.lastTc := rfl
@[simp] theorem emitResult_lastDevType (op : HostOp) (r : Result) : (emitResult op r s).lastDevType = s.lastDevType := rfl
@[simp] theorem emitResult_events (op : HostOp) (r : Result) : (emitResult op r s).events = s.events := rfl
@[simp] theorem emitResult_results (op : HostOp) (r : Result) : (emitResult op r s).results = s.results ++ [(op, r)] := rfl
@[simp] theorem emitResult_link (op : HostOp) (r : Result) : (emitResult op r s).link = s.link := rfl
@[simp] theorem emitResult_codec (op : HostOp) (r : Result) : (emitResult op r s).codec = s.codec := rfl
@[simp] theorem emitResult_held (op : HostOp) (r : Result) : (emitResult op r s).held = s.held := rfl
@[simp] theorem emitResult_inputs (op : HostOp) (r : Result) : (emitResult op r s).inputs = s.inputs := rfl

/-! ### `askLink` -/

@[simp] theorem askLink_sess (q : LinkRequest) : (askLink q s).sess = s.sess := rfl
@[simp] theorem askLink_tx (q : LinkRequest) : (askLink q s).tx = s.tx := rfl
@[simp] theorem askLink_acc (q : LinkRequest) : (askLink q s).acc = s.acc := rfl
@[simp] theorem askLink_aw (q : LinkRequest) : (askLink q s).aw = s.aw := rfl
@[simp] theorem askLink_lastStatus (q : LinkRequest) : (askLink q s).lastStatus = s.lastStatus := rfl
@[simp] theorem askLink_lastTc (q : LinkRequest) : (askLink q s).lastTc = s.lastTc := rfl
@[simp] theorem askLink_lastDevType (q : LinkRequest) : (askLink q s).lastDevType = s.lastDevType := rfl
@[simp] theorem askLink_events (q : LinkRequest) : (askLink q s).events = s.events := rfl
@[simp] theorem askLink_results (q : LinkRequest) : (askLink q s).results = s.results := rfl
@[simp] theorem askLink_link (q : LinkRequest) : (askLink q s).link = s.link ++ [q] := rfl
@[simp] theorem askLink_codec (q : LinkRequest) : (askLink q s).codec = s.codec := rfl
@[simp] theorem askLink_held (q : LinkRequest) : (askLink q s).held = s.held := rfl
@[simp] theorem askLink_inputs (q : LinkRequest) : (askLink q s).inputs = s.inputs := rfl

/-! ### `answerCodec` -/

@[simp] theorem answerCodec_sess (v : CodecValue) : (answerCodec v s).sess = s.sess := rfl
@[simp] theorem answerCodec_tx (v : CodecValue) : (answerCodec v s).tx = s.tx := rfl
@[simp] theorem answerCodec_acc (v : CodecValue) : (answerCodec v s).acc = s.acc := rfl
@[simp] theorem answerCodec_aw (v : CodecValue) : (answerCodec v s).aw = s.aw := rfl
@[simp] theorem answerCodec_lastStatus (v : CodecValue) : (answerCodec v s).lastStatus = s.lastStatus := rfl
@[simp] theorem answerCodec_lastTc (v : CodecValue) : (answerCodec v s).lastTc = s.lastTc := rfl
@[simp] theorem answerCodec_lastDevType (v : CodecValue) : (answerCodec v s).lastDevType = s.lastDevType := rfl
@[simp] theorem answerCodec_events (v : CodecValue) : (answerCodec v s).events = s.events := rfl
@[simp] theorem answerCodec_results (v : CodecValue) : (answerCodec v s).results = s.results := rfl
@[simp] theorem answerCodec_link (v : CodecValue) : (answerCodec v s).link = s.link := rfl
@[simp] theorem answerCodec_codec (v : CodecValue) : (answerCodec v s).codec = s.codec ++ [v] := rfl
@[simp] theorem answerCodec_held (v : CodecValue) : (answerCodec v s).held = s.held := rfl
@[simp] theorem answerCodec_inputs (v : CodecValue) : (answerCodec v s).inputs = s.inputs := rfl

/-! ### `hold` -/

@[simp] theorem hold_sess (r : Request) : (hold r s).sess = s.sess := rfl
@[simp] theorem hold_tx (r : Request) : (hold r s).tx = s.tx := rfl
@[simp] theorem hold_acc (r : Request) : (hold r s).acc = s.acc := rfl
@[simp] theorem hold_aw (r : Request) : (hold r s).aw = s.aw := rfl
@[simp] theorem hold_lastStatus (r : Request) : (hold r s).lastStatus = s.lastStatus := rfl
@[simp] theorem hold_lastTc (r : Request) : (hold r s).lastTc = s.lastTc := rfl
@[simp] theorem hold_lastDevType (r : Request) : (hold r s).lastDevType = s.lastDevType := rfl
@[simp] theorem hold_events (r : Request) : (hold r s).events = s.events := rfl
@[simp] theorem hold_results (r : Request) : (hold r s).results = s.results := rfl
@[simp] theorem hold_link (r : Request) : (hold r s).link = s.link := rfl
@[simp] theorem hold_codec (r : Request) : (hold r s).codec = s.codec := rfl
@[simp] theorem hold_held (r : Request) : (hold r s).held = s.held ++ [r] := rfl
@[simp] theorem hold_inputs (r : Request) : (hold r s).inputs = s.inputs := rfl

end Sys2Proof.Machine
end

