-- ==== Sys2Proof/Laws/Ops.lean ====
section
/-! SUPPORT. What the shared operations do: `settle`, `updateCache`, `arbitrate`, `deliver`, `take`,
`present`. Later proofs cite these and do not unfold the operations. -/

namespace Sys2Proof.Machine

variable (s : State)

/-! ### Settling a wait -/

theorem settle_idle (r : Result) {s : State} (h : s.aw = .idle) : settle r s = s := by
  simp [settle, h]

theorem settle_armed (r : Result) {s : State} {l e : Nat} (h : s.aw = .armed l e) :
    settle r s = { s with aw := .idle, results := s.results ++ [(.sendAwait, r)] } := by
  simp [settle, h, emitResult]

/-- Everything `settle` can do (R232). -/
theorem settle_cases (r : Result) (s : State) :
    (s.aw = .idle ∧ settle r s = s) ∨
    (∃ l e, s.aw = .armed l e ∧
      settle r s = { s with aw := .idle, results := s.results ++ [(.sendAwait, r)] }) := by
  cases h : s.aw with
  | idle => exact .inl ⟨rfl, settle_idle r h⟩
  | armed l e => exact .inr ⟨l, e, rfl, settle_armed r h⟩

/-- After settling no wait is armed (R232). -/
@[simp] theorem settle_aw (r : Result) : (settle r s).aw = .idle := by
  rcases settle_cases r s with ⟨h, e⟩ | ⟨_, _, _, e⟩ <;> rw [e]
  exact h

/-- A second settlement gives no second result (R232). -/
@[simp] theorem settle_settle (r r' : Result) : settle r' (settle r s) = settle r s :=
  settle_idle r' (settle_aw s r)

@[simp] theorem settle_sess (r : Result) : (settle r s).sess = s.sess := by
  rcases settle_cases r s with ⟨_, e⟩ | ⟨_, _, _, e⟩ <;> simp [e]
@[simp] theorem settle_tx (r : Result) : (settle r s).tx = s.tx := by
  rcases settle_cases r s with ⟨_, e⟩ | ⟨_, _, _, e⟩ <;> simp [e]
@[simp] theorem settle_acc (r : Result) : (settle r s).acc = s.acc := by
  rcases settle_cases r s with ⟨_, e⟩ | ⟨_, _, _, e⟩ <;> simp [e]
@[simp] theorem settle_lastStatus (r : Result) : (settle r s).lastStatus = s.lastStatus := by
  rcases settle_cases r s with ⟨_, e⟩ | ⟨_, _, _, e⟩ <;> simp [e]
@[simp] theorem settle_lastTc (r : Result) : (settle r s).lastTc = s.lastTc := by
  rcases settle_cases r s with ⟨_, e⟩ | ⟨_, _, _, e⟩ <;> simp [e]
@[simp] theorem settle_lastDevType (r : Result) : (settle r s).lastDevType = s.lastDevType := by
  rcases settle_cases r s with ⟨_, e⟩ | ⟨_, _, _, e⟩ <;> simp [e]
@[simp] theorem settle_events (r : Result) : (settle r s).events = s.events := by
  rcases settle_cases r s with ⟨_, e⟩ | ⟨_, _, _, e⟩ <;> simp [e]
@[simp] theorem settle_link (r : Result) : (settle r s).link = s.link := by
  rcases settle_cases r s with ⟨_, e⟩ | ⟨_, _, _, e⟩ <;> simp [e]
@[simp] theorem settle_codec (r : Result) : (settle r s).codec = s.codec := by
  rcases settle_cases r s with ⟨_, e⟩ | ⟨_, _, _, e⟩ <;> simp [e]
@[simp] theorem settle_held (r : Result) : (settle r s).held = s.held := by
  rcases settle_cases r s with ⟨_, e⟩ | ⟨_, _, _, e⟩ <;> simp [e]
@[simp] theorem settle_inputs (r : Result) : (settle r s).inputs = s.inputs := by
  rcases settle_cases r s with ⟨_, e⟩ | ⟨_, _, _, e⟩ <;> simp [e]

/-! ### Updating a cache -/

@[simp] theorem updateCache_sess (e : Event) : (updateCache e s).sess = s.sess := by cases e <;> rfl
@[simp] theorem updateCache_tx (e : Event) : (updateCache e s).tx = s.tx := by cases e <;> rfl
@[simp] theorem updateCache_acc (e : Event) : (updateCache e s).acc = s.acc := by cases e <;> rfl
@[simp] theorem updateCache_aw (e : Event) : (updateCache e s).aw = s.aw := by cases e <;> rfl
@[simp] theorem updateCache_events (e : Event) : (updateCache e s).events = s.events := by cases e <;> rfl
@[simp] theorem updateCache_results (e : Event) : (updateCache e s).results = s.results := by cases e <;> rfl
@[simp] theorem updateCache_link (e : Event) : (updateCache e s).link = s.link := by cases e <;> rfl
@[simp] theorem updateCache_codec (e : Event) : (updateCache e s).codec = s.codec := by cases e <;> rfl
@[simp] theorem updateCache_held (e : Event) : (updateCache e s).held = s.held := by cases e <;> rfl
@[simp] theorem updateCache_inputs (e : Event) : (updateCache e s).inputs = s.inputs := by cases e <;> rfl

/-! ### The arbiter action -/

@[simp] theorem arbitrate_sess (e : Event) : (arbitrate e s).sess = s.sess := by
  cases e <;> simp [arbitrate, arbiterAck, arbiterNak]
@[simp] theorem arbitrate_tx (e : Event) : (arbitrate e s).tx = s.tx := by
  cases e <;> simp [arbitrate, arbiterAck, arbiterNak]
@[simp] theorem arbitrate_acc (e : Event) : (arbitrate e s).acc = s.acc := by
  cases e <;> simp [arbitrate, arbiterAck, arbiterNak]
@[simp] theorem arbitrate_lastStatus (e : Event) : (arbitrate e s).lastStatus = s.lastStatus := by
  cases e <;> simp [arbitrate, arbiterAck, arbiterNak]
@[simp] theorem arbitrate_lastTc (e : Event) : (arbitrate e s).lastTc = s.lastTc := by
  cases e <;> simp [arbitrate, arbiterAck, arbiterNak]
@[simp] theorem arbitrate_lastDevType (e : Event) : (arbitrate e s).lastDevType = s.lastDevType := by
  cases e <;> simp [arbitrate, arbiterAck, arbiterNak]
@[simp] theorem arbitrate_events (e : Event) : (arbitrate e s).events = s.events := by
  cases e <;> simp [arbitrate, arbiterAck, arbiterNak]
@[simp] theorem arbitrate_link (e : Event) : (arbitrate e s).link = s.link := by
  cases e <;> simp [arbitrate, arbiterAck, arbiterNak]
@[simp] theorem arbitrate_codec (e : Event) : (arbitrate e s).codec = s.codec := by
  cases e <;> simp [arbitrate, arbiterAck, arbiterNak]
@[simp] theorem arbitrate_held (e : Event) : (arbitrate e s).held = s.held := by
  cases e <;> simp [arbitrate, arbiterAck, arbiterNak]
@[simp] theorem arbitrate_inputs (e : Event) : (arbitrate e s).inputs = s.inputs := by
  cases e <;> simp [arbitrate, arbiterAck, arbiterNak]

/-! ### Delivering an event -/

@[simp] theorem deliver_sess (e : Event) : (deliver e s).sess = s.sess := by simp [deliver]
@[simp] theorem deliver_tx (e : Event) : (deliver e s).tx = s.tx := by simp [deliver]
@[simp] theorem deliver_acc (e : Event) : (deliver e s).acc = s.acc := by simp [deliver]
@[simp] theorem deliver_link (e : Event) : (deliver e s).link = s.link := by simp [deliver]
@[simp] theorem deliver_codec (e : Event) : (deliver e s).codec = s.codec := by simp [deliver]
@[simp] theorem deliver_held (e : Event) : (deliver e s).held = s.held := by simp [deliver]
@[simp] theorem deliver_inputs (e : Event) : (deliver e s).inputs = s.inputs := by simp [deliver]
@[simp] theorem deliver_events (e : Event) : (deliver e s).events = s.events ++ [e] := by simp [deliver]

/-- R196: a status event replaces `LAST_STATUS` entirely; no other event changes it. -/
theorem deliver_lastStatus (e : Event) : (deliver e s).lastStatus =
    (match e with | .status fs => some fs | _ => s.lastStatus) := by
  cases e <;> simp [deliver, updateCache]

theorem deliver_lastTc (e : Event) : (deliver e s).lastTc =
    (match e with | .timecode tc => some tc | _ => s.lastTc) := by
  cases e <;> simp [deliver, updateCache]

theorem deliver_lastDevType (e : Event) : (deliver e s).lastDevType =
    (match e with | .deviceType v => some v | _ => s.lastDevType) := by
  cases e <;> simp [deliver, updateCache]

/-- What `deliver` does to the wait and the result port (R195, R229, R230). -/
theorem deliver_aw_results (e : Event) :
    ((deliver e s).aw = s.aw ∧ (deliver e s).results = s.results) ∨
    (∃ l n r, s.aw = .armed l n ∧ settling e = some r ∧ (deliver e s).aw = .idle ∧
      (deliver e s).results = s.results ++ [(.sendAwait, r)]) := by
  cases e with
  | ack =>
    rcases settle_cases .acked (emitEvent .ack s) with ⟨h, e⟩ | ⟨l, n, h, e⟩
    · exact .inl (by simp [deliver, arbitrate, arbiterAck, updateCache, e])
    · exact .inr ⟨l, n, .acked, h, rfl, by simp [deliver, arbitrate, arbiterAck, updateCache, e]⟩
  | nak rs =>
    rcases settle_cases (.nakked rs) (emitEvent (.nak rs) s) with ⟨h, e⟩ | ⟨l, n, h, e⟩
    · exact .inl (by simp [deliver, arbitrate, arbiterNak, updateCache, e])
    · exact .inr ⟨l, n, .nakked rs, h, rfl, by simp [deliver, arbitrate, arbiterNak, updateCache, e]⟩
  | deviceType | status | timecode | raw => exact .inl (by simp [deliver, arbitrate, updateCache])

/-! ### The host request port -/

theorem present_ready {r : Request} {s : State} (h : ready s r = true) : present r s = take r s := by
  simp [present, h]

theorem present_held {r : Request} {s : State} (h : ready s r = false) : present r s = hold r s := by
  simp [present, h]

/-- Everything taking a request can do (R222 to R225): an answer in the same step, a session opened or
closed, or a write begun. -/
theorem take_cases (r : Request) (s : State) :
    (∃ op res q, take r s = { s with link := s.link ++ q, results := s.results ++ [(op, res)] }
      ∧ ∀ bs, LinkRequest.write bs ∉ q) ∨
    (∃ cfg, r = .openLink cfg .ok ∧ s.sess = .closed ∧
      take r s = { s with sess := .opened, acc := [], lastStatus := none, lastTc := none,
                          lastDevType := none, link := s.link ++ [.openLink cfg],
                          results := s.results ++ [(.openLink, .ok)] }) ∨
    (r = .closeLink .ok ∧ s.sess = .opened ∧
      take r s = { s with sess := .closed, link := s.link ++ [.closeLink],
                          results := s.results ++ [(.closeLink, .ok)] }) ∨
    (∃ bs, r = .send bs ∧ s.sess = .opened ∧
      take r s = { s with tx := .busyPlain, link := s.link ++ [.write bs] }) ∨
    (∃ bs l, r = .sendAwait bs l ∧ s.sess = .opened ∧
      take r s = { s with tx := .busyAwait, aw := .armed l 0, link := s.link ++ [.write bs] }) := by
  cases r with
  | openLink cfg a =>
    cases h : s.sess with
    | opened => exact .inl ⟨.openLink, .errTransport .alreadyOpen, [], by
        simp [take, takeOpen, h, emitResult]⟩
    | closed =>
      cases a with
      | fail =>
        exact .inl ⟨.openLink, .errTransport .openFailed, [.openLink cfg], by
          simp [take, takeOpen, h, emitResult, askLink]⟩
      | ok => exact .inr (.inl ⟨cfg, rfl, rfl, by simp [take, takeOpen, h, emitResult, askLink]⟩)
  | closeLink a =>
    cases h : s.sess with
    | closed => exact .inl ⟨.closeLink, .errTransport .notOpen, [], by
        simp [take, takeClose, h, emitResult]⟩
    | opened =>
      cases a with
      | fail =>
        exact .inl ⟨.closeLink, .errTransport .closeFailed, [.closeLink], by
          simp [take, takeClose, h, emitResult, askLink]⟩
      | ok => exact .inr (.inr (.inl ⟨rfl, rfl, by simp [take, takeClose, h, emitResult, askLink]⟩))
  | send bs =>
    cases h : s.sess with
    | closed => exact .inl ⟨.send, .errTransport .notOpen, [], by
        simp [take, takeSend, h, emitResult]⟩
    | opened => exact .inr (.inr (.inr (.inl ⟨bs, rfl, rfl, by simp [take, takeSend, h, askLink]⟩)))
  | sendAwait bs l =>
    cases h : s.sess with
    | closed => exact .inl ⟨.sendAwait, .errTransport .notOpen, [], by
        simp [take, takeSendAwait, h, emitResult]⟩
    | opened =>
      exact .inr (.inr (.inr (.inr ⟨bs, l, rfl, rfl, by simp [take, takeSendAwait, h, askLink]⟩)))

end Sys2Proof.Machine
end

