-- ==== Sys2Proof/Laws/Resync.lean ====
section
/-! SUPPORT. The resynchronizer: what a turn of the extraction loop is, that the loop's fuel is enough,
what extraction and receiving leave unchanged, and an induction principle over the packets delivered. -/

namespace Sys2Proof.Machine

/-! ### Framing -/

theorem mem_candidates {P : Params} {n l : Nat} :
    l ∈ candidates P n ↔ 3 ≤ l ∧ l ≤ P.maxLen ∧ l ≤ n := by
  simp only [candidates, List.mem_range'_1]
  omega

theorem matchesAt_iff {a : Bytes} {l : Nat} :
    matchesAt a l = true ↔ a[l - 1]? = some (checksum (a.take (l - 1))) := by
  simp [matchesAt]

/-- R184: `frontMatch` answers the smallest matching candidate length. -/
theorem frontMatch_eq_some {P : Params} {a : Bytes} {o l : Nat} :
    frontMatch P a o = some l ↔
      (3 ≤ l ∧ l ≤ P.maxLen ∧ l ≤ a.length - o ∧ matchesAt (a.drop o) l = true ∧
        ∀ k, 3 ≤ k → k < l → matchesAt (a.drop o) k = false) := by
  unfold frontMatch candidates
  rw [List.find?_range'_eq_some]
  simp only [List.mem_range'_1, Bool.not_eq_true']
  constructor
  · rintro ⟨hm, hmem, hk⟩
    exact ⟨hmem.1, by omega, by omega, hm, fun k h3 hkl => hk k h3 hkl⟩
  · rintro ⟨h3, hP, ha, hm, hk⟩
    exact ⟨hm, ⟨h3, by omega⟩, fun k h3' hkl => hk k h3' hkl⟩

/-- R184: `frontMatch` answers none when no candidate length matches. -/
theorem frontMatch_eq_none {P : Params} {a : Bytes} {o : Nat} :
    frontMatch P a o = none ↔
      ∀ l, 3 ≤ l → l ≤ P.maxLen → l ≤ a.length - o → matchesAt (a.drop o) l = false := by
  unfold frontMatch
  rw [List.find?_eq_none]
  constructor
  · intro h l h3 hP ha
    simpa using h l (mem_candidates.2 ⟨h3, hP, ha⟩)
  · intro h l hl
    obtain ⟨h3, hP, ha⟩ := mem_candidates.1 hl
    simp [h l h3 hP ha]

theorem frontMatch_drop (P : Params) (a : Bytes) (o : Nat) :
    frontMatch P (a.drop o) 0 = frontMatch P a o := by
  simp [frontMatch]

/-- R185: a later match is a match at some offset of 1 or more. -/
theorem laterMatch_eq_false {P : Params} {a : Bytes} :
    laterMatch P a = false ↔ ∀ o, 1 ≤ o → frontMatch P a o = none := by
  unfold laterMatch
  rw [List.any_eq_false]
  constructor
  · intro h o ho
    by_cases hn : o < 1 + (a.length - 3)
    · simpa using h o (List.mem_range'_1.2 ⟨ho, hn⟩)
    · exact frontMatch_eq_none.2 fun l h3 _ ha => by omega
  · intro h o ho
    simp [h o (List.mem_range'_1.1 ho).1]

/-! ### A turn of the loop -/

/-- R183: the four ways a turn goes, (a) and (e) both stopping. -/
theorem turn_cases (P : Params) (acc : Bytes) :
    (turn P acc = .stop ∧ acc.length < 3) ∨
    (∃ l, turn P acc = .accept l ∧ frontMatch P acc 0 = some l ∧ 3 ≤ l ∧ l ≤ acc.length
      ∧ l ≤ P.maxLen) ∨
    (turn P acc = .drop ∧ 3 ≤ acc.length ∧ frontMatch P acc 0 = none
      ∧ (P.maxLen ≤ acc.length ∨ laterMatch P acc = true)) ∨
    (turn P acc = .stop ∧ 3 ≤ acc.length ∧ frontMatch P acc 0 = none ∧ acc.length < P.maxLen
      ∧ laterMatch P acc = false) := by
  unfold turn
  by_cases h3 : acc.length < 3
  · simp [h3]
  · simp only [h3, if_false]
    cases hf : frontMatch P acc 0 with
    | some l =>
      have h := frontMatch_eq_some.1 hf
      exact .inr (.inl ⟨l, rfl, rfl, h.1, by simpa using h.2.2.1, h.2.1⟩)
    | none =>
      by_cases hn : acc.length ≥ P.maxLen
      · exact .inr (.inr (.inl ⟨by simp [hn], by omega, rfl, .inl hn⟩))
      · cases hl : laterMatch P acc with
        | true => exact .inr (.inr (.inl ⟨by simp, by omega, rfl, .inr rfl⟩))
        | false => exact .inr (.inr (.inr ⟨by simp [hn], by omega, rfl, by omega, rfl⟩))

/-- A packet accepted at the front is the wire layout of its fields, so INTERPRET does not fail on it
(R183, R188). -/
theorem parse_of_frontMatch {P : Params} {acc : Bytes} {l : Nat} (h : frontMatch P acc 0 = some l) :
    ∃ k, parse P (acc.take l) = .ok k ∧ acc.take l = wirePacket k.hdr k.cmd2 k.data := by
  obtain ⟨h3, hP, ha, hm, _⟩ := frontMatch_eq_some.1 h
  simp only [List.drop_zero, Nat.sub_zero] at ha hm
  have hlen : (acc.take l).length = l := by simp; omega
  have hw : wellFormedPacket P (acc.take l) = true := by
    refine decide_eq_true ⟨by omega, by omega, ?_⟩
    rw [hlen, List.take_take, List.getElem?_take, if_pos (by omega), matchesAt_iff.1 hm,
      Nat.min_eq_left (by omega)]
  obtain ⟨hd, c, d, he, hmax⟩ := (wellFormedPacket_iff P _).1 hw
  exact ⟨_, he ▸ parse_wirePacket P hd c d hmax, he⟩

/-- R183 (b): one packet delivered is one event delivered. -/
theorem deliverPacket_of_frontMatch {P : Params} {acc : Bytes} {l : Nat}
    (h : frontMatch P acc 0 = some l) :
    ∃ k, parse P (acc.take l) = .ok k ∧
      ∀ s, deliverPacket P (acc.take l) s = deliver (classify P k) s := by
  obtain ⟨k, hk, _⟩ := parse_of_frontMatch h
  exact ⟨k, hk, fun s => by simp [deliverPacket, interpret, hk, Except.map]⟩

/-! ### The loop -/

/-- Induction over a run of the loop: a property that delivering an event keeps (with `ACC` cut at the
front) and that dropping a byte keeps holds after any number of turns. -/
theorem extractLoop_induct {P : Params} {C : State → Prop}
    (hdeliver : ∀ s k l, C s → parse P (s.acc.take l) = .ok k →
      C (deliver (classify P k) { s with acc := s.acc.drop l }))
    (hdrop : ∀ s, C s → C { s with acc := s.acc.drop 1 }) :
    ∀ n s, C s → C (extractLoop P n s) := by
  intro n
  induction n with
  | zero => intro s h; exact h
  | succ n ih =>
    intro s h
    rw [extractLoop]
    rcases turn_cases P s.acc with ⟨ht, _⟩ | ⟨l, ht, hf, _⟩ | ⟨ht, _⟩ | ⟨ht, _⟩
    · rw [ht]; exact h
    · rw [ht]
      obtain ⟨k, hk, hd⟩ := deliverPacket_of_frontMatch hf
      simp only [hd]
      exact ih _ (hdeliver s k l h hk)
    · rw [ht]; exact ih _ (hdrop s h)
    · rw [ht]; exact h

@[simp] theorem deliverPacket_acc (P : Params) (p : Bytes) (s : State) :
    (deliverPacket P p s).acc = s.acc := by
  unfold deliverPacket; split <;> simp

theorem extractLoop_stop {P : Params} {s : State} (h : turn P s.acc = .stop) (n : Nat) :
    extractLoop P n s = s := by
  cases n <;> simp [extractLoop, h]

/-- As many turns as `ACC` has bytes are enough, and more change nothing: each turn but the last
shortens `ACC` (R183 "the loop always ends"). -/
theorem extractLoop_fuel (P : Params) :
    ∀ m n s, s.acc.length ≤ m → s.acc.length ≤ n → extractLoop P m s = extractLoop P n s := by
  intro m
  induction m with
  | zero =>
    intro n s hm _
    have h : turn P s.acc = .stop := by simp only [turn]; rw [if_pos (by omega)]
    rw [extractLoop_stop h, extractLoop_stop h]
  | succ m ih =>
    intro n s hm hn
    rcases turn_cases P s.acc with ⟨ht, _⟩ | ⟨l, ht, _, h3, hl, _⟩ | ⟨ht, h3, _⟩ | ⟨ht, _⟩
    · rw [extractLoop_stop ht, extractLoop_stop ht]
    · obtain ⟨n, rfl⟩ : ∃ k, n = k + 1 := ⟨n - 1, by omega⟩
      rw [extractLoop, extractLoop, ht]
      exact ih n _ (by simp; omega) (by simp; omega)
    · obtain ⟨n, rfl⟩ : ∃ k, n = k + 1 := ⟨n - 1, by omega⟩
      rw [extractLoop, extractLoop, ht]
      exact ih n _ (by simp; omega) (by simp; omega)
    · rw [extractLoop_stop ht, extractLoop_stop ht]

/-- R183: the loop as one equation. -/
theorem extract_eq (P : Params) (s : State) :
    extract P s =
      match turn P s.acc with
      | .stop => s
      | .accept l => extract P (deliverPacket P (s.acc.take l) { s with acc := s.acc.drop l })
      | .drop => extract P { s with acc := s.acc.drop 1 } := by
  rcases turn_cases P s.acc with ⟨ht, _⟩ | ⟨l, ht, hf, h3, hl, _⟩ | ⟨ht, h3, _⟩ | ⟨ht, _⟩
  · rw [ht]; exact extractLoop_stop ht _
  · obtain ⟨m, hm⟩ : ∃ m, s.acc.length = m + 1 := ⟨s.acc.length - 1, by omega⟩
    rw [extract, hm, extractLoop, ht]
    exact extractLoop_fuel P _ _ _ (by simp; omega) le_rfl
  · obtain ⟨m, hm⟩ : ∃ m, s.acc.length = m + 1 := ⟨s.acc.length - 1, by omega⟩
    rw [extract, hm, extractLoop, ht]
    exact extractLoop_fuel P _ _ _ (by simp; omega) le_rfl
  · rw [ht]; exact extractLoop_stop ht _

theorem extract_stop {P : Params} {s : State} (h : turn P s.acc = .stop) : extract P s = s := by
  rw [extract_eq, h]

theorem extract_drop {P : Params} {s : State} (h : turn P s.acc = .drop) :
    extract P s = extract P { s with acc := s.acc.drop 1 } := by
  rw [extract_eq, h]

theorem extract_accept {P : Params} {s : State} {l : Nat} (h : turn P s.acc = .accept l) :
    extract P s = extract P (deliverPacket P (s.acc.take l) { s with acc := s.acc.drop l }) := by
  rw [extract_eq, h]

/-- Induction over extraction, as `extractLoop_induct`. -/
theorem extract_induct {P : Params} {C : State → Prop}
    (hdeliver : ∀ s k l, C s → parse P (s.acc.take l) = .ok k →
      C (deliver (classify P k) { s with acc := s.acc.drop l }))
    (hdrop : ∀ s, C s → C { s with acc := s.acc.drop 1 }) (s : State) (h : C s) : C (extract P s) :=
  extractLoop_induct hdeliver hdrop _ s h

/-- Induction over receiving: what appending bytes, delivering and dropping keep, RX keeps. -/
theorem receive_induct {P : Params} {C : State → Prop}
    (hpush : ∀ s b, C s → C { s with acc := s.acc ++ [b] })
    (hdeliver : ∀ s k l, C s → parse P (s.acc.take l) = .ok k →
      C (deliver (classify P k) { s with acc := s.acc.drop l }))
    (hdrop : ∀ s, C s → C { s with acc := s.acc.drop 1 })
    (chunk : Bytes) (s : State) (h : C s) : C (receive P chunk s) := by
  unfold receive
  cases s.sess with
  | closed => exact h
  | opened =>
    refine extract_induct hdeliver hdrop _ ?_
    induction chunk generalizing s with
    | nil => exact h
    | cons b bs ih =>
      refine ih _ ?_
      unfold receiveByte
      split
      · exact hpush _ b (extract_induct hdeliver hdrop s h)
      · exact hpush _ b h

theorem receive_closed {P : Params} {chunk : Bytes} {s : State} (h : s.sess = .closed) :
    receive P chunk s = s := by
  simp [receive, h]

/-! ### What extraction and receiving leave unchanged -/

/-- What no extraction writes: the session, the transmitter, the link, the codec port, the request port
and the inputs (R180). -/
def SameOutside (s t : State) : Prop :=
  t.sess = s.sess ∧ t.tx = s.tx ∧ t.link = s.link ∧ t.codec = s.codec ∧ t.held = s.held
    ∧ t.inputs = s.inputs

theorem extract_sameOutside (P : Params) (s : State) : SameOutside s (extract P s) :=
  extract_induct (C := SameOutside s) (fun _ _ _ h _ => by simpa [SameOutside] using h)
    (fun _ h => h) s ⟨rfl, rfl, rfl, rfl, rfl, rfl⟩

theorem receive_sameOutside (P : Params) (chunk : Bytes) (s : State) :
    SameOutside s (receive P chunk s) :=
  receive_induct (C := SameOutside s) (fun _ _ h => h) (fun _ _ _ h _ => by simpa [SameOutside] using h)
    (fun _ h => h) chunk s ⟨rfl, rfl, rfl, rfl, rfl, rfl⟩

@[simp] theorem extract_sess (P : Params) (s : State) : (extract P s).sess = s.sess :=
  (extract_sameOutside P s).1

/-- `ACC` is short when the loop has stopped (R187). -/
theorem extract_acc_length {P : Params} (hP : 3 ≤ P.maxLen) (s : State) :
    (extract P s).acc.length < P.maxLen := by
  have key : ∀ n (s : State), s.acc.length ≤ n → (extract P s).acc.length < P.maxLen := by
    intro n
    induction n with
    | zero => intro s hs; rw [extract_stop (by simp [turn]; omega)]; omega
    | succ n ih =>
      intro s hs
      rcases turn_cases P s.acc with ⟨ht, h⟩ | ⟨l, ht, hf, h3, hl, _⟩ | ⟨ht, h3, _⟩ | ⟨ht, _, _, h, _⟩
      · rw [extract_stop ht]; omega
      · rw [extract_accept ht]; exact ih _ (by simp; omega)
      · rw [extract_drop ht]; exact ih _ (by simp; omega)
      · rw [extract_stop ht]; exact h
  exact key _ s le_rfl

/-! ### Appending a chunk -/

/-- R181: while the capacity is not reached, a chunk is appended whole. -/
theorem foldl_receiveByte {P : Params} (bs : Bytes) (s : State)
    (h : ∀ k, k < bs.length → P.accCap ≠ some (s.acc.length + k)) :
    bs.foldl (receiveByte P) s = { s with acc := s.acc ++ bs } := by
  induction bs generalizing s with
  | nil => simp
  | cons b bs ih =>
    have h0 : receiveByte P s b = { s with acc := s.acc ++ [b] } := by
      unfold receiveByte; rw [if_neg (by simpa using h 0 (by simp))]
    rw [List.foldl_cons, h0, ih]
    · simp
    · intro k hk
      have := h (k + 1) (by simp; omega)
      simpa [Nat.add_assoc, Nat.add_comm 1 k] using this

/-- R181 with `P_ACC_CAP = INF`: "the loop amounts to `S.ACC <- S.ACC ++ chunk` followed by one
`EXTRACT`". -/
theorem receive_noCap {P : Params} (hc : P.accCap = none) (chunk : Bytes) {s : State}
    (ho : s.sess = .opened) : receive P chunk s = extract P { s with acc := s.acc ++ chunk } := by
  have h : receive P chunk s = extract P (chunk.foldl (receiveByte P) s) := by simp [receive, ho]
  rw [h, foldl_receiveByte chunk s fun k _ => by simp [hc]]

/-- Extraction does not read the capacity. -/
theorem extract_setCap (P : Params) (c : Option Nat) (s : State) :
    extract { P with accCap := c } s = extract P s := by
  have ht : ∀ a, turn { P with accCap := c } a = turn P a := fun _ => rfl
  have key : ∀ n (s : State), extractLoop { P with accCap := c } n s = extractLoop P n s := by
    intro n
    induction n with
    | zero => intro s; rfl
    | succ n ih => intro s; simp only [extractLoop, ht]; cases turn P s.acc <;> simp [ih]; rfl
  exact key _ s

theorem legalParams_maxLen {P : Params} (h : legalParams P = true) : 3 ≤ P.maxLen := by
  simp [legalParams] at h; exact h.1.1.1.1

theorem legalParams_accCap {P : Params} {c : Nat} (h : legalParams P = true) (hc : P.accCap = some c) :
    P.maxLen ≤ c := by
  simp [legalParams, hc] at h; exact h.1.1.1.2

/-! ### Delivering -/

/-- R195: the arbiter settles an armed wait with the event's result, if it has one. -/
theorem arbitrate_armed {e : Event} {s : State} {l n : Nat} (h : s.aw = .armed l n) :
    arbitrate e s = match settling e with
      | some r => { s with aw := .idle, results := s.results ++ [(.sendAwait, r)] }
      | none => s := by
  cases e <;> simp [arbitrate, settling, arbiterAck, arbiterNak, settle, h, emitResult]

theorem arbitrate_idle {e : Event} {s : State} (h : s.aw = .idle) : arbitrate e s = s := by
  cases e <;> simp [arbitrate, arbiterAck, arbiterNak, settle, h]

end Sys2Proof.Machine
end

