-- ==== Sys2Proof/Laws/Session.lean ====
section
/-! SUPPORT. What a tick and a write answer do. -/

namespace Sys2Proof.Machine

/-- Everything a tick can do (R228). -/
theorem countTick_cases (s : State) :
    (s.aw = .idle ∧ countTick s = s) ∨
    (∃ l e, s.aw = .armed l e ∧ e + 1 < waitTicks l ∧ countTick s = { s with aw := .armed l (e + 1) }) ∨
    (∃ l e, s.aw = .armed l e ∧ waitTicks l ≤ e + 1 ∧
      countTick s = { s with aw := .idle, results := s.results ++ [(.sendAwait, .timedOut)] }) := by
  cases h : s.aw with
  | idle => exact .inl ⟨rfl, by simp [countTick, h]⟩
  | armed l e =>
    by_cases hl : e + 1 < waitTicks l
    · exact .inr (.inl ⟨l, e, rfl, hl, by simp [countTick, h, hl]⟩)
    · refine .inr (.inr ⟨l, e, rfl, by omega, ?_⟩)
      have : e + 1 ≥ waitTicks l := by omega
      simp [countTick, h, this, settle_armed .timedOut h]

/-- Everything a write completion can do (R226, R287 (a)). -/
theorem execWriteDone_cases (s : State) :
    (s.tx = .idle ∧ execWriteDone s = .refused .noWriteOutstanding) ∨
    (s.tx = .busyPlain ∧
      execWriteDone s = .next { s with tx := .idle, results := s.results ++ [(.send, .ok)] }) ∨
    (s.tx = .busyAwait ∧ execWriteDone s = .next { s with tx := .idle }) := by
  cases h : s.tx <;> simp [execWriteDone, h, emitResult]

/-- Everything a write error can do (R227, R287 (a)). -/
theorem execWriteError_cases (s : State) :
    (s.tx = .idle ∧ execWriteError s = .refused .noWriteOutstanding) ∨
    (s.tx = .busyPlain ∧ execWriteError s =
      .next { s with tx := .idle, results := s.results ++ [(.send, .errTransport .writeFailed)] }) ∨
    (s.tx = .busyAwait ∧
      execWriteError s = .next (settle (.errTransport .writeFailed) { s with tx := .idle })) := by
  cases h : s.tx <;> simp [execWriteError, h, emitResult]

/-- A run of ticks, the last tick split off. -/
theorem countTicks_succ (k : Nat) (s : State) : countTicks (k + 1) s = countTick (countTicks k s) := by
  induction k generalizing s with
  | zero => rfl
  | succ k ih => rw [countTicks, ih]; rfl

/-- R238: settling keeps results given plus results owed. -/
theorem settle_owed (r : Result) (s : State) :
    (settle r s).results.length + owed (settle r s) = s.results.length + owed s := by
  rcases settle_cases r s with ⟨_, e⟩ | ⟨l, n, h, e⟩ <;> rw [e]
  simp [owed, h]; omega

/-- R238: delivering keeps results given plus results owed. -/
theorem deliver_owed (e : Event) (s : State) :
    (deliver e s).results.length + owed (deliver e s) = s.results.length + owed s := by
  rcases deliver_aw_results s e with ⟨h1, h2⟩ | ⟨l, n, r, h1, _, h2, h3⟩
  · simp [h2, owed, h1]
  · rw [h3]; simp [owed, h1, h2]; omega

end Sys2Proof.Machine
end

