-- ==== Sys2Proof/Laws/Step.lean ====
section
/-! SUPPORT. What one instruction and one step can do, said once: every invariant is derived from
`execIn_next` and `stepWith_next`. `exec` and `step` are `execIn` and `stepIn` at the default
parameters. -/

namespace Sys2Proof.Machine

/-- An interpreted packet's event is a value of the type `Event` (R28). -/
theorem validEvent_classify {P : Params} {p : Bytes} {k : Packet} (h : parse P p = .ok k) :
    validEvent P (classify P k) = true := by
  have hm : k.data.length + 3 ≤ P.maxLen := ((parse_ok_iff P p k).1 h).2.2
  unfold classify
  repeat' split
  · rfl
  · rfl
  · unfold deviceTypeEvent; split <;> simp [validEvent, hm]
  · exact isFlagSet_decodeStatus _ _
  · unfold timecodeEvent; repeat' split
    all_goals simp [validEvent, hm]
  · simp [validEvent, hm]

/-- `exec` is the member of the family at the default parameters (log 9). -/
theorem execIn_params (i : Instr) (s : State) : execIn params i s = exec i s := by
  cases i <;> rfl

/-- `step` is the member of the family at the default parameters (log 9). -/
theorem stepIn_params (s : State) : stepIn params s = step s := by
  have h : execIn params = exec := funext fun i => funext (execIn_params i)
  unfold stepIn step
  rw [h]; rfl

/-- Everything an instruction can do when it answers a next state, in the block built for `P`; for `exec` by
`execIn_params`. -/
theorem execIn_next {P : Params} {i : Instr} {s t : State} (h : execIn P i s = .next t) :
    (∃ r, requestOf i = some r ∧ t = present r s) ∨
    (∃ v, t = answerCodec v s) ∨
    (∃ e, t = deliver e s ∧ (wellFormedIn P i = true → validEvent P e = true)) ∨
    (∃ c, i = .rx c ∧ t = receive P c s) ∨
    (i = .extract ∧ t = extract P s) ∨
    (∃ r, t = settle r s ∧ ((i = .arbiterAck ∧ r = .acked) ∨ ∃ rs, i = .arbiterNak rs ∧ r = .nakked rs)) ∨
    (i = .writeDone ∧ s.tx ≠ .idle ∧ execWriteDone s = .next t) ∨
    (i = .writeError ∧ s.tx ≠ .idle ∧ execWriteError s = .next t) ∨
    (i = .tick ∧ t = countTick s) := by
  have hcmd : ∀ (α : Type) (f : α → CodecValue) (r : Except CodecError α),
      ∃ v, answerOr f r s = answerCodec v s := by
    intro α f r
    cases r with
    | ok a => exact ⟨f a, rfl⟩
    | error e => exact ⟨.error e, rfl⟩
  cases i
  case openLink => cases h; exact .inl ⟨_, rfl, rfl⟩
  case closeLink => cases h; exact .inl ⟨_, rfl, rfl⟩
  case send => cases h; exact .inl ⟨_, rfl, rfl⟩
  case sendAwait => cases h; exact .inl ⟨_, rfl, rfl⟩
  case rx c =>
    cases c with
    | nil => cases h
    | cons b bs => cases h; exact .inr (.inr (.inr (.inl ⟨_, rfl, rfl⟩)))
  case extract => cases h; exact .inr (.inr (.inr (.inr (.inl ⟨rfl, rfl⟩))))
  case arbiterAck =>
    cases h; exact .inr (.inr (.inr (.inr (.inr (.inl ⟨_, rfl, .inl ⟨rfl, rfl⟩⟩)))))
  case arbiterNak rs =>
    cases h; exact .inr (.inr (.inr (.inr (.inr (.inl ⟨_, rfl, .inr ⟨rs, rfl, rfl⟩⟩)))))
  case writeDone =>
    refine .inr (.inr (.inr (.inr (.inr (.inr (.inl ⟨rfl, ?_, h⟩))))))
    intro hx; simp [execIn, exec, execWriteDone, hx] at h
  case writeError =>
    refine .inr (.inr (.inr (.inr (.inr (.inr (.inr (.inl ⟨rfl, ?_, h⟩)))))))
    intro hx; simp [execIn, exec, execWriteError, hx] at h
  case tick => cases h; exact .inr (.inr (.inr (.inr (.inr (.inr (.inr (.inr ⟨rfl, rfl⟩)))))))
  case ack => cases h; exact .inr (.inr (.inl ⟨_, rfl, fun _ => rfl⟩))
  case nak => cases h; exact .inr (.inr (.inl ⟨_, rfl, fun _ => rfl⟩))
  case deviceTypeReply data =>
    cases h
    refine .inr (.inr (.inl ⟨_, rfl, fun hw => ?_⟩))
    unfold deviceTypeEvent; split
    · rfl
    · exact hw
  case statusReply => cases h; exact .inr (.inr (.inl ⟨_, rfl, fun _ => isFlagSet_decodeStatus _ _⟩))
  case rawReply =>
    cases h; exact .inr (.inr (.inl ⟨_, rfl, fun hw => (Bool.and_eq_true_iff.1 hw).1⟩))
  case deliver => cases h; exact .inr (.inr (.inl ⟨_, rfl, fun hw => hw⟩))
  case interpret p =>
    refine .inr (.inl ?_)
    change execInterpretIn P p s = _ at h
    unfold execInterpretIn at h
    split at h <;> cases h
    · exact ⟨_, rfl⟩
    · exact ⟨_, rfl⟩
  case timecodeReply04 | timecodeReply06 | timecodeReply08 | timecodeReply10 | timecodeReply11
    | timecodeReply14 | timecodeReply16 | timecodeReply31 =>
    cases h
    refine .inr (.inr (.inl ⟨_, rfl, fun hw => ?_⟩))
    unfold timecodeEvent; repeat' split
    · exact hw
    · rfl
    · exact hw
  case csum | bcdPack | bcdUnpack | clamp99 | tcEncode | nakDecode | statusDecode | statusSenseByte
    | frontMatch => cases h; exact .inr (.inl ⟨_, rfl⟩)
  all_goals
    cases h
    exact .inr (.inl (hcmd _ _ _))

/-- Everything a step can do when it answers a next state (R6, R32, R286, R292). -/
theorem stepWith_next {dec : Input → Except DecodeError Instr}
    {run : Instr → State → Host.Outcome State Fault Refusal} {s t : State}
    (h : stepWith dec run s = .next t) :
    (nextMove s = .idle ∧ t = s) ∨
    (∃ rest, nextMove s = .reset rest ∧ t = applyReset rest) ∨
    (∃ r waiting, nextMove s = .take r waiting ∧ t = take r { s with held := waiting }) ∨
    (∃ x rest i, nextMove s = .input x rest ∧ dec x = .ok i ∧
      run i { s with inputs := rest } = .next t) := by
  unfold stepWith at h
  split at h
  · next hm => cases h; exact .inl ⟨hm, rfl⟩
  · next rest hm => cases h; exact .inr (.inl ⟨rest, hm, rfl⟩)
  · next r w hm => cases h; exact .inr (.inr (.inl ⟨r, w, hm, rfl⟩))
  · next x rest hm =>
    split at h
    · next i hd => exact .inr (.inr (.inr ⟨x, rest, i, hm, hd, h⟩))
    · cases h

/-- A request that `firstReady` chooses is one that waits and is ready; the others stay in their order. -/
theorem firstReady_some {s : State} {hs : List Request} {r : Request} {w : List Request}
    (h : firstReady s hs = some (r, w)) : ready s r = true ∧ ∃ a b, hs = a ++ r :: b ∧ w = a ++ b := by
  induction hs generalizing w with
  | nil => cases h
  | cons x xs ih =>
    unfold firstReady at h
    split at h
    · next hx => cases h; exact ⟨hx, [], xs, rfl, rfl⟩
    · cases hf : firstReady s xs with
      | none => simp [hf] at h
      | some q =>
        obtain ⟨q1, q2⟩ := q
        simp only [hf, Option.map_some, Option.some.injEq, Prod.mk.injEq] at h
        obtain ⟨rfl, rfl⟩ := h
        obtain ⟨hr, a, b, rfl, rfl⟩ := ih hf
        exact ⟨hr, x :: a, b, rfl, rfl⟩

/-- R278: an input of a batch goes before a waiting request exactly when its port's place is before the
host's. -/
theorem beforeHeld_of_mem_serialise {batch : List Input} {x : Input} (h : x ∈ serialise batch) :
    x.beforeHeld = decide (instantRank x.port < 4) := by
  simp only [serialise, List.mem_flatMap, List.mem_map, List.mem_filter, beq_iff_eq] at h
  obtain ⟨r, _, y, ⟨_, hy⟩, rfl⟩ := h
  simp [hy]

/-- The request a step takes from the port is ready (R32, R221). -/
theorem nextMove_take {s : State} {r : Request} {w : List Request} (h : nextMove s = .take r w) :
    ready s r = true ∧ ∃ a b, s.held = a ++ r :: b ∧ w = a ++ b := by
  have harr : ∀ xs, arrival xs ≠ .take r w := by
    intro xs; unfold arrival; split
    · simp
    · split <;> simp
  unfold nextMove at h
  split at h
  · exact absurd h (harr _)
  · next q hq _ => cases h; exact firstReady_some hq
  · next q x rest hq _ =>
    split at h
    · exact absurd h (harr _)
    · cases h; exact firstReady_some hq

/-- No waiting request is ready: none is chosen. -/
theorem firstReady_none {s : State} {hs : List Request} (h : ∀ r ∈ hs, ready s r = false) :
    firstReady s hs = none := by
  induction hs with
  | nil => rfl
  | cons x xs ih =>
    rw [firstReady, if_neg (by simp [h x]), ih (fun r hr => h r (by simp [hr]))]; rfl

/-- The oldest ready request is chosen (log 5). -/
theorem firstReady_first {s : State} {a b : List Request} {r : Request}
    (h : ∀ q ∈ a, ready s q = false) (hr : ready s r = true) :
    firstReady s (a ++ r :: b) = some (r, a ++ b) := by
  induction a with
  | nil => simp [firstReady, hr]
  | cons x xs ih =>
    rw [List.cons_append, firstReady, if_neg (by simp [h x]), ih (fun r hr => h r (by simp [hr]))]; rfl

/-- The next input is looked at when no waiting request is ready, or when it goes before them. -/
theorem nextMove_arrival {s : State} {x : Input} {rest : List Input} (hi : s.inputs = x :: rest)
    (hor : x.beforeHeld = true ∨ ∀ r ∈ s.held, ready s r = false) :
    nextMove s = arrival (x :: rest) := by
  unfold nextMove
  rw [hi]
  rcases hor with h | h
  · cases firstReady s s.held with
    | none => rfl
    | some q => simp [h]
  · rw [firstReady_none h]

end Sys2Proof.Machine
end

