-- ==== Sys2Proof/Laws/ListenBeforeSend.lean ====
section
/-! SUPPORT. The machine of R236's last clause beside the block: a packet that begins among the marked bytes
settles nothing, and without marked bytes the framing is the block's. -/

namespace Sys2Proof.Machine

variable (s : State)

/-! ### Announcing an event -/

@[simp] theorem announce_sess (e : Event) : (announce e s).sess = s.sess := by simp [announce]
@[simp] theorem announce_tx (e : Event) : (announce e s).tx = s.tx := by simp [announce]
@[simp] theorem announce_acc (e : Event) : (announce e s).acc = s.acc := by simp [announce]
@[simp] theorem announce_aw (e : Event) : (announce e s).aw = s.aw := by simp [announce]
@[simp] theorem announce_events (e : Event) : (announce e s).events = s.events ++ [e] := by simp [announce]
@[simp] theorem announce_results (e : Event) : (announce e s).results = s.results := by simp [announce]

/-- R195: DELIVER is announcing and then the arbiter. -/
theorem deliver_eq_arbitrate_announce (e : Event) : deliver e s = arbitrate e (announce e s) := rfl

/-! ### The mark -/

@[simp] theorem Marked.dropFront_state (n : Nat) (m : Marked) :
    (m.dropFront n).state = { m.state with acc := m.state.acc.drop n } := rfl
@[simp] theorem Marked.dropFront_older (n : Nat) (m : Marked) : (m.dropFront n).older = m.older - n := rfl

@[simp] theorem remark_zero (t : State) (h : ¬ (s.aw = .idle ∧ t.aw ≠ .idle)) : remark ⟨s, 0⟩ t = 0 := by
  simp [remark, h]

/-- R236's last clause: a packet that begins among the marked bytes gives its event and settles nothing. -/
theorem Marked.deliverFront_older {P : Params} {l : Nat} {m : Marked} {e : Event} (h : 0 < m.older)
    (hi : interpret P (m.state.acc.take l) = .ok e) :
    m.deliverFront P l = ⟨announce e { m.state with acc := m.state.acc.drop l }, m.older - l⟩ := by
  have : m.older ≠ 0 := by omega
  simp [Marked.deliverFront, hi, this]

/-- With no marked byte a framed packet is delivered as in the block. -/
theorem Marked.deliverFront_zero (P : Params) (l : Nat) :
    Marked.deliverFront P l ⟨s, 0⟩ = ⟨deliverPacket P (s.acc.take l) { s with acc := s.acc.drop l }, 0⟩ := by
  unfold Marked.deliverFront deliverPacket
  cases interpret P (s.acc.take l) <;> simp [Marked.dropFront]

/-- With no marked byte the loop is the block's. -/
theorem Marked.extractLoop_zero (P : Params) (k : Nat) :
    Marked.extractLoop P k ⟨s, 0⟩ = ⟨Machine.extractLoop P k s, 0⟩ := by
  induction k generalizing s with
  | zero => rfl
  | succ k ih =>
    simp only [Marked.extractLoop, Machine.extractLoop]
    cases turn P s.acc with
    | stop => rfl
    | accept l => simp only [Marked.deliverFront_zero, ih]
    | drop => exact ih _

/-- With no marked byte EXTRACT is the block's. -/
theorem Marked.extract_zero (P : Params) : Marked.extract P ⟨s, 0⟩ = ⟨Machine.extract P s, 0⟩ :=
  Marked.extractLoop_zero s P _

/-- With no marked byte RX is the block's. -/
theorem Marked.receive_zero (P : Params) (chunk : Bytes) :
    Marked.receive P chunk ⟨s, 0⟩ = ⟨Machine.receive P chunk s, 0⟩ := by
  have byte : ∀ (s : State) (b : Byte),
      Marked.receiveByte P ⟨s, 0⟩ b = ⟨Machine.receiveByte P s b, 0⟩ := by
    intro s b
    unfold Marked.receiveByte Machine.receiveByte
    by_cases h : P.accCap = some s.acc.length
    · simp [h, Marked.extract_zero]
    · simp [h]
  have fold : ∀ (bs : Bytes) (s : State),
      bs.foldl (Marked.receiveByte P) ⟨s, 0⟩ = ⟨bs.foldl (Machine.receiveByte P) s, 0⟩ := by
    intro bs
    induction bs with
    | nil => intro s; rfl
    | cons b bs ih => intro s; rw [List.foldl_cons, byte, ih, List.foldl_cons]
  unfold Marked.receive Machine.receive
  cases s.sess with
  | closed => rfl
  | opened => simp only [fold, Marked.extract_zero]

end Sys2Proof.Machine
end

