-- ==== Sys2Proof/Tests/Slice0.lean ====
section
/-! SUPPORT. The model's own tests. Expected results are the spec's: the encodings of
spec/opcode_table.json, the vectors of 95_test_vectors.md (W, S, Q: its numbers) and the rules named.
The last part has a witness for the hypotheses of every obligation. -/

open Sys2Proof Sys2Proof.Machine Sys2Proof.Claims

namespace Sys2Proof.Tests

/-! ### Helpers -/

/-- An open session with an idle transmitter. -/
def opened : State := { State.reset with sess := .opened }

/-- An open session with a wait armed. -/
def waiting (limit elapsed : Nat) : State := { opened with aw := .armed limit elapsed }

/-- An open session with a write draining. -/
def writing (tx : Transmitter) (aw : AckWait) : State := { opened with tx := tx, aw := aw }

/-- 95_test_vectors.md: the hypothetical test table TST; not the device's. -/
def tst : Params :=
  { params with status := { play := ⟨1, 0⟩, record := ⟨1, 1⟩, servoLock := ⟨2, 7⟩, cassetteOut := ⟨0, 5⟩,
                            others := [] } }

/-- What the instruction adds to the codec port, from reset. -/
def codecOf (i : Instr) : List CodecValue :=
  match exec i State.reset with
  | .next t => t.codec
  | _ => []

/-- A part of the next state, if there is one. -/
def after {α : Type} (part : State → α) (i : Instr) (s : State) : Option α :=
  match exec i s with
  | .next t => some (part t)
  | _ => none

/-- Events and `ACC` after chunks received from an empty `ACC` in an open session (2.9). -/
def received (chunks : List Bytes) : List Event × Bytes :=
  let t := receiveAll params chunks opened
  (t.events, t.acc)

/-! ### WellFormed refuses ill-formed terms -/

theorem test_wf_limit_over_its_width :
    wellFormedIn { params with timeoutBits := some 8 } (.sendAwait [] 256) = false ∧
    wellFormedIn { params with timeoutBits := some 8 } (.sendAwait [] 255) = true := by decide
theorem test_wf_reply_over_max_len : wellFormed (.ack (List.replicate 16 0)) = false := by decide
theorem test_wf_sense_reply_over_max_len : wellFormed (.statusReply 4 (List.replicate 16 0)) = false := by decide
theorem test_wf_raw_over_max_len : wellFormed (.rawReply 0x20 0x01 (List.replicate 16 0)) = false := by decide
theorem test_wf_raw_with_ack_key : wellFormed (.rawReply 0x10 0x01 []) = false := by decide
theorem test_wf_raw_with_timecode_key : wellFormed (.rawReply 0x7F 0x31 []) = false := by decide
theorem test_wf_empty_chunk : wellFormed (.rx []) = false := by decide
theorem test_wf_event_data_too_long :
    wellFormed (.deliver (.raw 0x20 0x01 (List.replicate 16 0))) = false := by decide
theorem test_wf_event_flag_twice : wellFormed (.deliver (.status [.play, .play])) = false := by decide
theorem test_wf_event_flags_out_of_order : wellFormed (.deliver (.status [.record, .play])) = false := by decide
theorem test_wf_accepts :
    wellFormed (.play (List.replicate 16 0)) = true ∧ wellFormed (.rawReply 0x11 0x12 [0x04]) = true ∧
    wellFormed (.deliver (.status [.play, .cassetteOut])) = true := by decide

/-! ### Decoding: every row's word, written out from its encoding in the spec -/

/-- R90 to R92. -/
theorem test_decode_system_control :
    decode { port := .command, bytes := [0x00, 0x0C, 0x0C] } = .ok (.localDisable []) ∧
    decodeTableWord 16 0x000C = some (.localDisable []) ∧
    decode { port := .command, bytes := [0x00, 0x11, 0x11] } = .ok (.deviceType []) ∧
    decodeTableWord 16 0x0011 = some (.deviceType []) ∧
    decode { port := .command, bytes := [0x00, 0x1D, 0x1D] } = .ok (.localEnable []) ∧
    decodeTableWord 16 0x001D = some (.localEnable []) := by decide
/-- R93 to R98. -/
theorem test_decode_forward_transport_1 :
    decode { port := .command, bytes := [0x20, 0x00, 0x20] } = .ok (.stop []) ∧
    decodeTableWord 16 0x2000 = some (.stop []) ∧
    decode { port := .command, bytes := [0x20, 0x01, 0x21] } = .ok (.play []) ∧
    decodeTableWord 16 0x2001 = some (.play []) ∧
    decode { port := .command, bytes := [0x20, 0x02, 0x22] } = .ok (.record []) ∧
    decodeTableWord 16 0x2002 = some (.record []) ∧
    decode { port := .command, bytes := [0x20, 0x04, 0x24] } = .ok (.standbyOff []) ∧
    decodeTableWord 16 0x2004 = some (.standbyOff []) ∧
    decode { port := .command, bytes := [0x20, 0x05, 0x25] } = .ok (.standbyOn []) ∧
    decodeTableWord 16 0x2005 = some (.standbyOn []) ∧
    decode { port := .command, bytes := [0x20, 0x0F, 0x2F] } = .ok (.eject []) ∧
    decodeTableWord 16 0x200F = some (.eject []) := by decide
/-- R99 to R103. -/
theorem test_decode_forward_transport_2 :
    decode { port := .command, bytes := [0x20, 0x10, 0x30] } = .ok (.fastFwd []) ∧
    decodeTableWord 16 0x2010 = some (.fastFwd []) ∧
    decode { port := .command, bytes := [0x20, 0x11, 0x31] } = .ok (.jogFwd []) ∧
    decodeTableWord 16 0x2011 = some (.jogFwd []) ∧
    decode { port := .command, bytes := [0x20, 0x12, 0x32] } = .ok (.varFwd []) ∧
    decodeTableWord 16 0x2012 = some (.varFwd []) ∧
    decode { port := .command, bytes := [0x20, 0x13, 0x33] } = .ok (.shuttleFwd []) ∧
    decodeTableWord 16 0x2013 = some (.shuttleFwd []) ∧
    decode { port := .command, bytes := [0x20, 0x14, 0x34] } = .ok (.frameStepFwd []) ∧
    decodeTableWord 16 0x2014 = some (.frameStepFwd []) := by decide
/-- R104 to R109. -/
theorem test_decode_reverse_and_edit_transport_1 :
    decode { port := .command, bytes := [0x20, 0x20, 0x40] } = .ok (.rewind []) ∧
    decodeTableWord 16 0x2020 = some (.rewind []) ∧
    decode { port := .command, bytes := [0x20, 0x21, 0x41] } = .ok (.jogRev []) ∧
    decodeTableWord 16 0x2021 = some (.jogRev []) ∧
    decode { port := .command, bytes := [0x20, 0x22, 0x42] } = .ok (.varRev []) ∧
    decodeTableWord 16 0x2022 = some (.varRev []) ∧
    decode { port := .command, bytes := [0x20, 0x23, 0x43] } = .ok (.shuttleRev []) ∧
    decodeTableWord 16 0x2023 = some (.shuttleRev []) ∧
    decode { port := .command, bytes := [0x20, 0x24, 0x44] } = .ok (.frameStepRev []) ∧
    decodeTableWord 16 0x2024 = some (.frameStepRev []) ∧
    decode { port := .command, bytes := [0x20, 0x30, 0x50] } = .ok (.preroll []) ∧
    decodeTableWord 16 0x2030 = some (.preroll []) := by decide
/-- R110 to R113. -/
theorem test_decode_reverse_and_edit_transport_2 :
    decode { port := .command, bytes := [0x20, 0x31, 0x51] } = .ok (.cueUpWithData []) ∧
    decodeTableWord 16 0x2031 = some (.cueUpWithData []) ∧
    decode { port := .command, bytes := [0x20, 0x34, 0x54] } = .ok (.syncPlay []) ∧
    decodeTableWord 16 0x2034 = some (.syncPlay []) ∧
    decode { port := .command, bytes := [0x20, 0x40, 0x60] } = .ok (.preview []) ∧
    decodeTableWord 16 0x2040 = some (.preview []) ∧
    decode { port := .command, bytes := [0x20, 0x41, 0x61] } = .ok (.review []) ∧
    decodeTableWord 16 0x2041 = some (.review []) := by decide
/-- R115 to R119. -/
theorem test_decode_sense_request :
    decode { port := .command, bytes := [0x60, 0x0A, 0x6A] } = .ok (.tcGenSense []) ∧
    decodeTableWord 16 0x600A = some (.tcGenSense []) ∧
    decode { port := .command, bytes := [0x60, 0x0C, 0x6C] } = .ok (.currentTimeSense []) ∧
    decodeTableWord 16 0x600C = some (.currentTimeSense []) ∧
    decode { port := .command, bytes := [0x60, 0x10, 0x70] } = .ok (.inDataSense []) ∧
    decodeTableWord 16 0x6010 = some (.inDataSense []) ∧
    decode { port := .command, bytes := [0x60, 0x11, 0x71] } = .ok (.outDataSense []) ∧
    decodeTableWord 16 0x6011 = some (.outDataSense []) ∧
    decode { port := .command, bytes := [0x60, 0x20, 0x80] } = .ok (.statusSense []) ∧
    decodeTableWord 16 0x6020 = some (.statusSense []) := by decide
/-- R73, R78: the class nibble and `cmd2` are the key; the length nibble is not compared. -/
theorem test_decode_command_length_nibble_free :
    decode { port := .command, bytes := [0x2F, 0x01, 0x30] } = .ok (.play []) ∧
    decode { port := .command, bytes := [0x20, 0x31, 0xAA, 0xFB] } = .ok (.cueUpWithData [0xAA]) := by decide
/-- R88, R114: a pair the catalogue does not list is encoded as given. R142: more than 15 data bytes reach ENCODE,
which rejects them. -/
theorem test_decode_commands_the_catalogue_does_not_list :
    decode { port := .command, bytes := [0x41, 0x05, 0xAA, 0xF0] } = .ok (.encodePkt 0x41 0x05 [0xAA]) ∧
    decode { port := .command, bytes := [0x20, 0x03, 0x23] } = .ok (.encodePkt 0x20 0x03 []) ∧
    decode { port := .command, bytes := [0x20, 0x01] ++ List.replicate 16 0 ++ [0x21] }
      = .ok (.play (List.replicate 16 0)) ∧
    codecOf (.play (List.replicate 16 0)) = [.error .invalidArgument] := by decide
/-- R81 to R83, R86 (W2, S3, S4). -/
theorem test_decode_replies :
    decode { port := .framed, bytes := [0x10, 0x01, 0x11] } = .ok (.ack []) ∧
    decode { port := .framed, bytes := [0x10, 0x12, 0x04, 0x26] } = .ok (.nak [0x04]) ∧
    decode { port := .framed, bytes := [0x12, 0x11, 0x20, 0x2A, 0x6D] } = .ok (.deviceTypeReply [0x20, 0x2A]) ∧
    decode { port := .framed, bytes := [0x11, 0x12, 0x04, 0x27] } = .ok (.rawReply 0x11 0x12 [0x04]) ∧
    decodeTableWord 16 0x1001 = some (.ack []) ∧ decodeTableWord 16 0x1012 = some (.nak []) ∧
    decodeTableWord 16 0x1211 = some (.deviceTypeReply [0, 0]) ∧
    decodeTableWord 16 0x0000 = some (.rawReply 0x00 0x00 []) := by decide
/-- R84, R85: class `0x7`, any length nibble (S6, S9, S10, S13 for four of the keys). -/
theorem test_decode_sense_returns :
    decode { port := .framed, bytes := [0x74, 0x20, 0x20, 0x03, 0x80, 0x00, 0x37] }
      = .ok (.statusReply 4 [0x20, 0x03, 0x80, 0x00]) ∧
    decode { port := .framed, bytes := [0x74, 0x04, 0x04, 0x03, 0x02, 0x01, 0x82] }
      = .ok (.timecodeReply04 4 [0x04, 0x03, 0x02, 0x01]) ∧
    decode { port := .framed, bytes := [0x74, 0x06, 0x07, 0x56, 0x34, 0x12, 0x1D] }
      = .ok (.timecodeReply06 4 [0x07, 0x56, 0x34, 0x12]) ∧
    decode { port := .framed, bytes := [0x70, 0x08, 0x78] } = .ok (.timecodeReply08 0 []) ∧
    decode { port := .framed, bytes := [0x70, 0x10, 0x80] } = .ok (.timecodeReply10 0 []) ∧
    decode { port := .framed, bytes := [0x7F, 0x11, 0x90] } = .ok (.timecodeReply11 15 []) ∧
    decode { port := .framed, bytes := [0x78, 0x14, 0x55, 0x30, 0x20, 0x10, 0x11, 0x22, 0x33, 0x44, 0xEB] }
      = .ok (.timecodeReply14 8 [0x55, 0x30, 0x20, 0x10, 0x11, 0x22, 0x33, 0x44]) ∧
    decode { port := .framed, bytes := [0x71, 0x16, 0x87] } = .ok (.timecodeReply16 1 []) ∧
    decode { port := .framed, bytes := [0x70, 0x31, 0xA1] } = .ok (.timecodeReply31 0 []) := by decide
theorem test_decode_sense_return_words :
    decodeTableWord 16 0x7020 = some (.statusReply 0 []) ∧
    decodeTableWord 16 0x7004 = some (.timecodeReply04 0 []) ∧
    decodeTableWord 16 0x7006 = some (.timecodeReply06 0 []) ∧
    decodeTableWord 16 0x7008 = some (.timecodeReply08 0 []) ∧
    decodeTableWord 16 0x7010 = some (.timecodeReply10 0 []) ∧
    decodeTableWord 16 0x7011 = some (.timecodeReply11 0 []) ∧
    decodeTableWord 16 0x7014 = some (.timecodeReply14 0 []) ∧
    decodeTableWord 16 0x7016 = some (.timecodeReply16 0 []) ∧
    decodeTableWord 16 0x7031 = some (.timecodeReply31 0 []) := by decide
/-- R128: the 8-bit codes of OPEN to TICK. -/
theorem test_decode_host_and_link_operations :
    decode { port := .host, bytes := [0x01], operands := { answer := .fail } } = .ok (.openLink {} .fail) ∧
    decode { port := .host, bytes := [0x02], operands := { answer := .fail } } = .ok (.closeLink .fail) ∧
    decode { port := .host, bytes := [0x03], operands := { bytes := [0x20] } } = .ok (.send [0x20]) ∧
    decode { port := .host, bytes := [0x04], operands := { bytes := [0x20], timeoutMs := 7 } } = .ok (.sendAwait [0x20] 7) ∧
    decode { port := .linkRx, bytes := [0x08], operands := { bytes := [0x55] } } = .ok (.rx [0x55]) ∧
    decode { port := .linkTx, bytes := [0x09], operands := {} } = .ok (.writeDone) ∧
    decode { port := .linkTx, bytes := [0x0A], operands := {} } = .ok (.writeError) ∧
    decode { port := .timeBase, bytes := [0x0B], operands := {} } = .ok (.tick) := by decide
/-- R128: the 8-bit codes of CSUM to STATUS_SENSE_BYTE. -/
theorem test_decode_codec_operations :
    decode { port := .codec, bytes := [0x10], operands := { bytes := [1, 2] } } = .ok (.csum [1, 2]) ∧
    decode { port := .codec, bytes := [0x11], operands := { cmd1 := 1, cmd2 := 2, bytes := [3] } } = .ok (.encodePkt 1 2 [3]) ∧
    decode { port := .codec, bytes := [0x12], operands := { bytes := [1] } } = .ok (.parsePkt [1]) ∧
    decode { port := .codec, bytes := [0x13], operands := { v := 59 } } = .ok (.bcdPack 59) ∧
    decode { port := .codec, bytes := [0x14], operands := { b := 0x59 } } = .ok (.bcdUnpack 0x59) ∧
    decode { port := .codec, bytes := [0x15], operands := { v := 150 } } = .ok (.clamp99 150) ∧
    decode { port := .codec, bytes := [0x16], operands := { tc := { frames := 4 } } } = .ok (.tcEncode { frames := 4 }) ∧
    decode { port := .codec, bytes := [0x17], operands := { wire := ⟨4, 3, 2, 1⟩ } } = .ok (.tcDecode ⟨4, 3, 2, 1⟩) ∧
    decode { port := .codec, bytes := [0x18], operands := { b := 0x81 } } = .ok (.nakDecode 0x81) ∧
    decode { port := .codec, bytes := [0x19], operands := { bytes := [0x20] } } = .ok (.statusDecode [0x20]) ∧
    decode { port := .codec, bytes := [0x1A], operands := { start := 2, size := 4 } } = .ok (.statusSenseByte 2 4) := by decide
/-- R128: the 8-bit codes of EXTRACT to ARBITER_NAK. -/
theorem test_decode_internal_operations :
    decode { port := .internal, bytes := [0x20], operands := {} } = .ok (.extract) ∧
    decode { port := .internal, bytes := [0x21], operands := { offset := 2 } } = .ok (.frontMatch 2) ∧
    decode { port := .internal, bytes := [0x22], operands := { bytes := [1] } } = .ok (.interpret [1]) ∧
    decode { port := .internal, bytes := [0x23], operands := { event := .ack } } = .ok (.deliver .ack) ∧
    decode { port := .internal, bytes := [0x24], operands := {} } = .ok (.arbiterAck) ∧
    decode { port := .internal, bytes := [0x25], operands := { reasons := { timeout := true } } } = .ok (.arbiterNak { timeout := true }) := by decide
theorem test_decode_host_and_link_words :
    decodeTableWord 8 0x01 = some (.openLink {} .ok) ∧
    decodeTableWord 8 0x02 = some (.closeLink .ok) ∧
    decodeTableWord 8 0x03 = some (.send []) ∧
    decodeTableWord 8 0x04 = some (.sendAwait [] 0) ∧
    decodeTableWord 8 0x08 = some (.rx [0]) ∧
    decodeTableWord 8 0x09 = some (.writeDone) ∧
    decodeTableWord 8 0x0A = some (.writeError) ∧
    decodeTableWord 8 0x0B = some (.tick) := by decide
theorem test_decode_codec_words :
    decodeTableWord 8 0x10 = some (.csum []) ∧
    decodeTableWord 8 0x11 = some (.encodePkt 0 0 []) ∧
    decodeTableWord 8 0x12 = some (.parsePkt []) ∧
    decodeTableWord 8 0x13 = some (.bcdPack 0) ∧
    decodeTableWord 8 0x14 = some (.bcdUnpack 0) ∧
    decodeTableWord 8 0x15 = some (.clamp99 0) ∧
    decodeTableWord 8 0x16 = some (.tcEncode {}) ∧
    decodeTableWord 8 0x17 = some (.tcDecode {}) ∧
    decodeTableWord 8 0x18 = some (.nakDecode 0) ∧
    decodeTableWord 8 0x19 = some (.statusDecode []) ∧
    decodeTableWord 8 0x1A = some (.statusSenseByte 0 0) := by decide
theorem test_decode_internal_words :
    decodeTableWord 8 0x20 = some (.extract) ∧
    decodeTableWord 8 0x21 = some (.frontMatch 0) ∧
    decodeTableWord 8 0x22 = some (.interpret [0, 0, 0]) ∧
    decodeTableWord 8 0x23 = some (.deliver .ack) ∧
    decodeTableWord 8 0x24 = some (.arbiterAck) ∧
    decodeTableWord 8 0x25 = some (.arbiterNak {}) := by decide
/-- R128: "No other code is used"; an operation is accepted on its own port only. R76: no packet.
R35, R28, R231: operands outside the operation's domain. R292. -/
theorem test_decode_rejects :
    decode { port := .host, bytes := [0x05] } = .error (.noSuchOperation 0x05) ∧
    decode { port := .host, bytes := [0x20] } = .error (.wrongPort 0x20) ∧
    decode { port := .codec, bytes := [] } = .error .notOneCode ∧
    decode { port := .command, bytes := [0x20, 0x01, 0x22] } = .error .notAPacket ∧
    decode { port := .framed, bytes := [0x20, 0x01] } = .error .notAPacket ∧
    decode { port := .linkRx, bytes := [0x08] } = .error .emptyChunk ∧
    decode { port := .internal, bytes := [0x23], operands := { event := .status [.record, .play] } }
      = .error .notAnEvent ∧
    decodeIn { params with timeoutBits := some 8 } { port := .host, bytes := [0x04], operands := { timeoutMs := 256 } }
      = .error (.limitTooWide 256) ∧
    decode { port := .reset, bytes := [] } = .error .resetLine := by decide

/-- R70, R71, R74: packets the encoder writes. -/
theorem test_encode_words :
    (encode (.cueUpWithData [0x04, 0x03, 0x02, 0x01])).bytes = [0x24, 0x31, 0x04, 0x03, 0x02, 0x01, 0x5F] ∧
    (encode (.statusSense [0x05])).bytes = [0x61, 0x20, 0x05, 0x86] ∧
    (encode (.nak [0x04])).bytes = [0x10, 0x12, 0x04, 0x26] ∧
    (encode (.timecodeReply04 4 [0x04, 0x03, 0x02, 0x01])).bytes
      = [0x74, 0x04, 0x04, 0x03, 0x02, 0x01, 0x82] ∧
    (encode .tick).bytes = [0x0B] := by decide

/-! ### Values -/

/-- R72. -/
theorem test_command_classes :
    commandClass 0x1F = some .systemControlReturn ∧ commandClass 0x40 = some .presetSelect ∧
    commandClass 0x74 = some .senseReturn ∧ commandClass 0x30 = none ∧
    hostToDevice .senseRequest = true ∧ hostToDevice .senseReturn = false := by decide

/-- R271: the numeric codes. -/
theorem test_result_codes :
    resultCode .ok = 0 ∧ resultCode .acked = 1 ∧ resultCode (.nakked {}) = 2 ∧ resultCode .timedOut = 3 ∧
    codecErrorCode .invalidArgument = 4 ∧ resultCode (.errTransport .openFailed) = 5 ∧
    resultCode (.errTransport .writeFailed) = 6 ∧ resultCode (.errTransport .closeFailed) = 7 ∧
    resultCode (.errTransport .notOpen) = 8 ∧ resultCode (.errTransport .alreadyOpen) = 9 ∧
    codecErrorCode .notAPacket = 10 ∧ codecErrorCode .tcMalformed = 11 := by decide

/-- R271: bit 0 is UNKNOWN_CMD, bit 5 TIMEOUT. -/
theorem test_nak_vector : nakVector { unknownCmd := true, timeout := true } = 0b100001#6 := by decide

/-! ### The codec (vectors 2.1 to 2.8) -/

theorem test_csum : codecOf (.csum [0xFF, 0xFF]) = [.checksum 0xFE] := by decide
theorem test_csum_empty : codecOf (.csum []) = [.checksum 0x00] := by decide
theorem test_encode_drops_low_nibble : codecOf (.encodePkt 0x2F 0x01 []) = [.packet [0x20, 0x01, 0x21]] := by decide
theorem test_encode_16_bytes : codecOf (.encodePkt 0x20 0x01 (List.replicate 16 0)) = [.error .invalidArgument] := by
  decide
theorem test_parse : codecOf (.parsePkt [0xF1, 0xFF, 0xFF, 0xEF]) = [.fields ⟨0xF1, 0xF0, 0xFF, [0xFF]⟩] := by decide
theorem test_parse_bad_checksum : codecOf (.parsePkt [0x20, 0x01, 0x22]) = [.error .notAPacket] := by decide
theorem test_bcd_pack : codecOf (.bcdPack 59) = [.bcd 0x59] ∧ codecOf (.bcdPack 99) = [.bcd 0x99] := by decide
theorem test_bcd_unpack : codecOf (.bcdUnpack 0x1F) = [.unbcd 25] ∧ codecOf (.bcdUnpack 0xFF) = [.unbcd 165] := by decide
theorem test_clamp99 : codecOf (.clamp99 150) = [.clamped 99] ∧ codecOf (.clamp99 99) = [.clamped 99] := by decide
theorem test_tc_encode :
    codecOf (.tcEncode { hours := 23, minutes := 59, seconds := 59, frames := 29, dropFrame := true })
      = [.timecodeWire ⟨0x69, 0x59, 0x59, 0x23⟩] := by decide
theorem test_tc_encode_clamps_and_ors :
    codecOf (.tcEncode ⟨150, 100, 255, 99, true, true⟩) = [.timecodeWire ⟨0xD9, 0x99, 0x99, 0x99⟩] := by decide
theorem test_tc_decode :
    codecOf (.tcDecode ⟨0x99, 0x99, 0x99, 0x99⟩) = [.timecode ⟨99, 99, 99, 19, false, true⟩] := by decide
theorem test_tc_decode_malformed : codecOf (.tcDecode ⟨0x80, 0x9A, 0x00, 0x00⟩) = [.error .tcMalformed] := by decide
theorem test_nak_decode : codecOf (.nakDecode 0x81) = [.reasons { unknownCmd := true, timeout := true }] := by decide
theorem test_nak_decode_unused_bits : codecOf (.nakDecode 0x0A) = [.reasons {}] := by decide
theorem test_status_decode :
    decodeStatus tst.status [0x20, 0x03, 0x80] = [.play, .record, .servoLock, .cassetteOut] := by decide
theorem test_status_decode_ignores_byte_5 :
    decodeStatus tst.status [0x00, 0x00, 0x00, 0x00, 0x00, 0xFF] = [] := by decide
theorem test_status_sense_byte : codecOf (.statusSenseByte 17 20) = [.senseByte 0x14] := by decide
/-- R127, R120 (2.2). -/
theorem test_pseudo_instructions :
    codecOf (statusSenseCommand 2 4) = [.packet [0x61, 0x20, 0x24, 0xA5]] ∧
    codecOf (currentTimeSenseCommand .vitcUb) = [.packet [0x61, 0x0C, 0x20, 0x8D]] ∧
    codecOf (currentTimeSenseCommand .timer2) = [.packet [0x61, 0x0C, 0x08, 0x75]] := by decide

/-! ### The catalogue: each command answers its packet (R90 to R119) -/

theorem test_run_system_control :
    codecOf (.localDisable []) = [.packet [0x00, 0x0C, 0x0C]] ∧
    codecOf (.deviceType []) = [.packet [0x00, 0x11, 0x11]] ∧
    codecOf (.localEnable []) = [.packet [0x00, 0x1D, 0x1D]] := by decide
theorem test_run_forward_transport_1 :
    codecOf (.stop []) = [.packet [0x20, 0x00, 0x20]] ∧
    codecOf (.play []) = [.packet [0x20, 0x01, 0x21]] ∧
    codecOf (.record []) = [.packet [0x20, 0x02, 0x22]] ∧
    codecOf (.standbyOff []) = [.packet [0x20, 0x04, 0x24]] ∧
    codecOf (.standbyOn []) = [.packet [0x20, 0x05, 0x25]] ∧
    codecOf (.eject []) = [.packet [0x20, 0x0F, 0x2F]] := by decide
theorem test_run_forward_transport_2 :
    codecOf (.fastFwd []) = [.packet [0x20, 0x10, 0x30]] ∧
    codecOf (.jogFwd []) = [.packet [0x20, 0x11, 0x31]] ∧
    codecOf (.varFwd []) = [.packet [0x20, 0x12, 0x32]] ∧
    codecOf (.shuttleFwd []) = [.packet [0x20, 0x13, 0x33]] ∧
    codecOf (.frameStepFwd []) = [.packet [0x20, 0x14, 0x34]] := by decide
theorem test_run_reverse_and_edit_transport_1 :
    codecOf (.rewind []) = [.packet [0x20, 0x20, 0x40]] ∧
    codecOf (.jogRev []) = [.packet [0x20, 0x21, 0x41]] ∧
    codecOf (.varRev []) = [.packet [0x20, 0x22, 0x42]] ∧
    codecOf (.shuttleRev []) = [.packet [0x20, 0x23, 0x43]] ∧
    codecOf (.frameStepRev []) = [.packet [0x20, 0x24, 0x44]] ∧
    codecOf (.preroll []) = [.packet [0x20, 0x30, 0x50]] := by decide
theorem test_run_reverse_and_edit_transport_2 :
    codecOf (.cueUpWithData []) = [.packet [0x20, 0x31, 0x51]] ∧
    codecOf (.syncPlay []) = [.packet [0x20, 0x34, 0x54]] ∧
    codecOf (.preview []) = [.packet [0x20, 0x40, 0x60]] ∧
    codecOf (.review []) = [.packet [0x20, 0x41, 0x61]] := by decide
theorem test_run_sense_request :
    codecOf (.tcGenSense []) = [.packet [0x60, 0x0A, 0x6A]] ∧
    codecOf (.currentTimeSense []) = [.packet [0x60, 0x0C, 0x6C]] ∧
    codecOf (.inDataSense []) = [.packet [0x60, 0x10, 0x70]] ∧
    codecOf (.outDataSense []) = [.packet [0x60, 0x11, 0x71]] ∧
    codecOf (.statusSense []) = [.packet [0x60, 0x20, 0x80]] := by decide

/-! ### The resynchronizer (vectors W2, W6, W7, S1 to S25) -/

theorem test_S1 : received [[0x10, 0x01, 0x11]] = ([.ack], []) := by decide
theorem test_S2_S3 :
    received [[0x10, 0x12, 0x22]] = ([.nak {}], []) ∧
    received [[0x11, 0x12, 0x04, 0x27]] = ([.raw 0x11 0x12 [0x04]], []) := by decide
theorem test_S4_S5 :
    received [[0x12, 0x11, 0x20, 0x2A, 0x6D]] = ([.deviceType 0x202A], []) ∧
    received [[0x12, 0x11, 0x23]] = ([.raw 0x12 0x11 []], []) := by decide
theorem test_S6_S7 :
    (receive tst [0x74, 0x20, 0x20, 0x03, 0x80, 0x00, 0x37] opened).events
      = [.status [.play, .record, .servoLock, .cassetteOut]] ∧
    (receive tst [0x70, 0x20, 0x90] opened).lastStatus = some [] := by decide
theorem test_S10_S11 :
    received [[0x74, 0x06, 0x07, 0x56, 0x34, 0x12, 0x1D]] = ([.timecode ⟨12, 34, 56, 7, false, false⟩], []) ∧
    received [[0x74, 0x04, 0x00, 0x00, 0x00, 0xA0, 0x18]] = ([.raw 0x74 0x04 [0x00, 0x00, 0x00, 0xA0]], []) := by
  decide
theorem test_S12_S13 :
    received [[0x72, 0x04, 0x10, 0x20, 0xA6]] = ([.raw 0x72 0x04 [0x10, 0x20]], []) ∧
    received [[0x78, 0x14, 0x55, 0x30, 0x20, 0x10, 0x11, 0x22, 0x33, 0x44, 0xEB]]
      = ([.timecode ⟨10, 20, 30, 15, true, false⟩], []) := by decide
theorem test_S14 :
    received [[0x78], [0x14], [0x55], [0x30], [0x20], [0x10], [0x11], [0x22], [0x33], [0x44], [0xEB]]
      = ([.raw 0x11 0x22 []], [0x44, 0xEB]) := by decide
theorem test_S15_S16 :
    received [[0x21, 0x01, 0x22, 0x44]] = ([.raw 0x21 0x01 []], [0x44]) ∧
    received [[0x10, 0x01, 0x11, 0x10, 0x12, 0x04, 0x26]] = ([.ack, .nak { checksumError := true }], []) := by
  decide
theorem test_S17 : received [List.replicate 20 0xFF] = ([], List.replicate 17 0xFF) := by decide
theorem test_S18 :
    received [List.replicate 20 0xFF, [0x10, 0x01, 0x11]]
      = ([.raw 0xFF 0xFF (List.replicate 13 0xFF ++ [0x10])], [0x11]) := by decide
theorem test_S22_W7 :
    received [[0x55, 0x74, 0x04, 0x04, 0x03, 0x02, 0x01, 0x82]] = ([.timecode ⟨1, 2, 3, 4, false, false⟩], []) ∧
    received [[0x10, 0x12, 0x04], [0x26]] = ([.nak { checksumError := true }], []) := by decide
theorem test_S24_P_MAX_LEN_18 :
    received [[0x7F, 0x50, 0x01, 0x02, 0x03, 0x04, 0x05, 0x06, 0x07, 0x08, 0x09, 0x0A, 0x0B, 0x0C, 0x0D, 0x0E,
        0x0F, 0x10, 0x57]]
      = ([.raw 0x01 0x02 []], [0x04, 0x05, 0x06, 0x07, 0x08, 0x09, 0x0A, 0x0B, 0x0C, 0x0D, 0x0E, 0x0F, 0x10,
          0x57]) := by decide
theorem test_S25_P_MAX_LEN_256 :
    (receive { params with maxLen := 256 } [0x7F, 0x50, 0x01, 0x02, 0x03, 0x04, 0x05, 0x06, 0x07, 0x08, 0x09,
        0x0A, 0x0B, 0x0C, 0x0D, 0x0E, 0x0F, 0x10, 0x57] opened).acc = [] := by decide
/-- R182: a full accumulator is extracted from before the next byte. -/
theorem test_full_accumulator :
    (receive { params with accCap := some 18 } (List.replicate 20 0xFF) opened).acc = List.replicate 17 0xFF := by
  decide
/-- R184's value on the codec port. -/
theorem test_front_match :
    after State.codec (.frontMatch 2) { opened with acc := [0xFF, 0xFF, 0x20, 0x01, 0x21] }
      = some [.matchLength (some 3)] ∧
    after State.codec (.frontMatch 0) { opened with acc := [0xFF, 0xFF, 0x20, 0x01, 0x21] }
      = some [.matchLength none] := by decide
theorem test_extract :
    after State.acc .extract { opened with acc := [0xFF, 0xFF, 0x20, 0x01, 0x21] } = some [] ∧
    after State.events .extract { opened with acc := [0xFF, 0xFF, 0x20, 0x01, 0x21] }
      = some [.raw 0x20 0x01 []] := by decide
theorem test_interpret : codecOf (.interpret [0x10, 0x12, 0x04, 0x26]) = [.event (.nak { checksumError := true })] := by
  decide
theorem test_deliver_caches :
    after State.lastTc (.deliver (.timecode ⟨1, 2, 3, 4, false, false⟩)) opened
      = some (some ⟨1, 2, 3, 4, false, false⟩) ∧
    after State.lastStatus (.deliver (.status [.play])) { opened with lastStatus := some [.record] }
      = some (some [.play]) := by decide
theorem test_deliver_settles : after State.results (.deliver .ack) (waiting 100 7) = some [(.sendAwait, .acked)] := by
  decide

/-! ### The reply rows -/

theorem test_ack_row : after State.events (.ack [0x55]) opened = some [.ack] := by decide
theorem test_nak_row :
    after State.results (.nak [0x81]) (waiting 100 7)
      = some [(.sendAwait, .nakked { unknownCmd := true, timeout := true })] := by decide
theorem test_device_type_row :
    after State.lastDevType (.deviceTypeReply [0x20, 0x2A]) opened = some (some 0x202A) ∧
    after State.events (.deviceTypeReply [0x20]) opened = some [.raw 0x12 0x11 [0x20]] := by decide
theorem test_status_row_keeps_the_others :
    after State.lastTc (.statusReply 4 []) { opened with lastTc := some ⟨1, 2, 3, 4, false, false⟩ }
      = some (some ⟨1, 2, 3, 4, false, false⟩) := by decide

theorem test_timecode_row_04 :
    after State.events (.timecodeReply04 2 [0x10, 0x20]) opened = some [.raw 0x72 0x04 [0x10, 0x20]] ∧
    after State.lastTc (.timecodeReply04 4 [0x69, 0x59, 0x59, 0x23]) opened
      = some (some ⟨23, 59, 59, 29, true, false⟩) := by decide
theorem test_timecode_row_06 :
    after State.events (.timecodeReply06 2 [0x10, 0x20]) opened = some [.raw 0x72 0x06 [0x10, 0x20]] ∧
    after State.lastTc (.timecodeReply06 4 [0x69, 0x59, 0x59, 0x23]) opened
      = some (some ⟨23, 59, 59, 29, true, false⟩) := by decide
theorem test_timecode_row_08 :
    after State.events (.timecodeReply08 2 [0x10, 0x20]) opened = some [.raw 0x72 0x08 [0x10, 0x20]] ∧
    after State.lastTc (.timecodeReply08 4 [0x69, 0x59, 0x59, 0x23]) opened
      = some (some ⟨23, 59, 59, 29, true, false⟩) := by decide
theorem test_timecode_row_10 :
    after State.events (.timecodeReply10 2 [0x10, 0x20]) opened = some [.raw 0x72 0x10 [0x10, 0x20]] ∧
    after State.lastTc (.timecodeReply10 4 [0x69, 0x59, 0x59, 0x23]) opened
      = some (some ⟨23, 59, 59, 29, true, false⟩) := by decide
theorem test_timecode_row_11 :
    after State.events (.timecodeReply11 2 [0x10, 0x20]) opened = some [.raw 0x72 0x11 [0x10, 0x20]] ∧
    after State.lastTc (.timecodeReply11 4 [0x69, 0x59, 0x59, 0x23]) opened
      = some (some ⟨23, 59, 59, 29, true, false⟩) := by decide
theorem test_timecode_row_14 :
    after State.events (.timecodeReply14 2 [0x10, 0x20]) opened = some [.raw 0x72 0x14 [0x10, 0x20]] ∧
    after State.lastTc (.timecodeReply14 4 [0x69, 0x59, 0x59, 0x23]) opened
      = some (some ⟨23, 59, 59, 29, true, false⟩) := by decide
theorem test_timecode_row_16 :
    after State.events (.timecodeReply16 2 [0x10, 0x20]) opened = some [.raw 0x72 0x16 [0x10, 0x20]] ∧
    after State.lastTc (.timecodeReply16 4 [0x69, 0x59, 0x59, 0x23]) opened
      = some (some ⟨23, 59, 59, 29, true, false⟩) := by decide
theorem test_timecode_row_31 :
    after State.events (.timecodeReply31 2 [0x10, 0x20]) opened = some [.raw 0x72 0x31 [0x10, 0x20]] ∧
    after State.lastTc (.timecodeReply31 4 [0x69, 0x59, 0x59, 0x23]) opened
      = some (some ⟨23, 59, 59, 29, true, false⟩) := by decide
theorem test_raw_row : after State.events (.rawReply 0x2F 0x01 []) opened = some [.raw 0x2F 0x01 []] := by decide
theorem test_arbiter :
    after State.results .arbiterAck (waiting 100 7) = some [(.sendAwait, .acked)] ∧
    after State.aw (.arbiterNak { timeout := true }) (waiting 100 7) = some .idle ∧
    after State.results .arbiterAck opened = some [] := by decide

/-! ### The session (vectors Q1 to Q23) -/

theorem test_Q1 : after State.sess (.openLink {} .ok) State.reset = some .opened := by decide
theorem test_Q2_Q3 :
    after State.results (.openLink {} .fail) State.reset = some [(.openLink, .errTransport .openFailed)] ∧
    after State.link (.openLink {} .ok) opened = some [] := by decide
theorem test_Q4 : after State.results (.closeLink .ok) State.reset = some [(.closeLink, .errTransport .notOpen)] := by
  decide
theorem test_Q5 : after State.sess (.closeLink .fail) opened = some .opened := by decide
theorem test_Q6 : after State.link (.send [0x20]) State.reset = some [] := by decide
theorem test_send_writes : after State.link (.send [0x20, 0x01]) opened = some [.write [0x20, 0x01]] := by decide
theorem test_Q7 : after State.aw (.sendAwait [0x20] 5) State.reset = some .idle := by decide
theorem test_send_await_arms : after State.aw (.sendAwait [0x20] 5) opened = some (.armed 5 0) := by decide
theorem test_Q8 : after State.results .writeDone (writing .busyPlain .idle) = some [(.send, .ok)] := by decide
theorem test_Q10 : after State.aw .writeDone (writing .busyAwait (.armed 100 0)) = some (.armed 100 0) := by decide
theorem test_Q9 :
    after State.results .writeError (writing .busyPlain .idle) = some [(.send, .errTransport .writeFailed)] := by decide
theorem test_Q11_Q12 :
    after State.results .writeError (writing .busyAwait (.armed 100 4))
      = some [(.sendAwait, .errTransport .writeFailed)] ∧
    after State.results .writeError (writing .busyAwait .idle) = some [] := by decide
theorem test_Q13 : after State.aw .tick (waiting 3 1) = some (.armed 3 2) := by decide
theorem test_Q14_Q15_Q16 :
    after State.results .tick (waiting 3 2) = some [(.sendAwait, .timedOut)] ∧
    after State.results .tick (waiting 0 0) = some [(.sendAwait, .timedOut)] ∧
    after State.aw .tick (waiting 1 0) = some .idle := by decide
theorem test_Q21 :
    after State.results (.rx [0x10, 0x01, 0x11, 0x10, 0x12, 0x04, 0x26]) (waiting 100 7)
      = some [(.sendAwait, .acked)] := by decide
theorem test_Q23 : after State.events (.rx [0x10, 0x01, 0x11]) State.reset = some [] := by decide

/-! ### A step -/

/-- R127: a name of the catalogue from the opcode table runs as the first instruction after reset. -/
theorem test_step_runs_the_placed_word :
    (match step (State.reset.withFetchWord 16 0x2001) with
      | .next t => t.codec
      | _ => []) = [.packet [0x20, 0x01, 0x21]] := by decide
/-- R32: a held request is taken before the next input once it is ready. -/
theorem test_step_takes_the_held_request :
    (match step { opened with held := [.send [0x55]], inputs := [encode (.csum [])] } with
      | .next t => (t.link, t.codec)
      | _ => ([], [])) = ([.write [0x55]], []) := by decide
/-- R292. -/
theorem test_step_reset :
    (match step { (waiting 5 1) with inputs := [{ port := .reset, bytes := [] }] } with
      | .next t => decide (t = State.reset)
      | _ => false) = true := by decide
/-- S25: in the block built with `P_MAX_LEN = 256` a step frames the packet of 19 bytes that the block with 18
misframes. -/
theorem test_step_S25 :
    (match (machine { params with maxLen := 256 }).step { opened with inputs := [encode (.rx [0x7F, 0x50, 0x01, 0x02, 0x03,
        0x04, 0x05, 0x06, 0x07, 0x08, 0x09, 0x0A, 0x0B, 0x0C, 0x0D, 0x0E, 0x0F, 0x10, 0x57])] } with
      | .next t => (t.events.length, t.acc)
      | _ => (0, [])) = (1, []) := by decide
/-- R236's last clause in the machine that keeps the mark (log 28): the ACK whose first two bytes were there at
arming is an event and the wait goes on; an ACK that comes whole afterwards settles it. -/
theorem test_marked_machine :
    (match (markedMachine params).step
        ⟨{ (waiting 100 7) with acc := [0x10, 0x01], inputs := [encode (.rx [0x11, 0x10, 0x01, 0x11])] }, 2⟩ with
      | .next m => (m.state.events, m.state.results, m.older)
      | _ => ([], [], 0)) = ([.ack, .ack], [(.sendAwait, .acked)], 0) ∧
    (match (markedMachine params).step
        ⟨{ opened with acc := [0x10, 0x01], inputs := [encode (.sendAwait [0x20, 0x01, 0x21] 100)] }, 0⟩ with
      | .next m => (m.state.aw, m.older)
      | _ => (.idle, 0)) = (.armed 100 0, 2) := by decide
/-- R278 with logs 19 and 27: reset, the receiving ports, the write answer, the tick, the host's ports. -/
theorem test_serialise :
    (serialise [encode (.stop []), encode (.send []), encode .tick, encode .writeDone, encode (.ack []),
        { port := .reset, bytes := [] }]).map (fun x => (x.port, x.beforeHeld))
      = [(.reset, true), (.framed, true), (.linkTx, true), (.timeBase, true), (.command, false), (.host, false)] := by
  decide
/-- R286. -/
theorem test_step_idle :
    (match step opened with
      | .next t => decide (t = opened)
      | _ => false) = true := by decide

/-! ### Witnesses: a state and operands that meet the hypotheses of each obligation -/

/-- A state with a held request, an input after it, and nothing ready. -/
def stuck : State :=
  { writing .busyPlain .idle with held := [.send [0x55]], inputs := [encode .tick] }

theorem witness_DecodingAnEncodingGivesTheInstruction :
    wellFormed (.play (List.replicate 16 0)) = true ∧
    wellFormedIn { params with maxLen := 256, timeoutBits := some 8 } (.sendAwait [] 255) = true ∧ wellFormed (.rawReply 0xFF 0xFF (List.replicate 15 0)) = true ∧
    wellFormed (.deliver (.raw 0 0 (List.replicate 15 0))) = true := by decide

theorem witness_DecodedInputIsTheInstructionsEncoding :
    decode { port := .command, bytes := [0x2F, 0x01, 0x30] } = .ok (.play []) ∧
    decode { port := .command, bytes := [0x2F, 0x03, 0x32] } = .ok (.encodePkt 0x2F 0x03 []) ∧
    decode { port := .framed, bytes := [0x20, 0x01, 0x21] } = .ok (.rawReply 0x20 0x01 []) ∧
    decode { port := .timeBase, bytes := [0x0B] } = .ok .tick := by decide

theorem witness_EncodeWritesThePacketOrRejects :
    (List.replicate 15 0#8).length ≤ 15 ∧ 15 < (List.replicate 16 0#8).length := by decide

theorem witness_ParseSplitsExactlyTheWellFormedPackets :
    (List.replicate 15 0#8).length + 3 ≤ params.maxLen ∧ ([0x20#8, 0x01#8]).length < 3 ∧
    params.maxLen < (List.replicate 19 0#8).length ∧
    (∀ (q : Bytes) (b : Byte), [0x20#8, 0x01#8, 0x22#8] = q ++ [b] → b.toNat ≠ byteSum q % 256) ∧
    parse params [0x20, 0x01, 0x21] = .ok ⟨0x20, 0x20, 0x01, []⟩ ∧
    parse params [0x20, 0x01, 0x22] = .error .notAPacket := by
  refine ⟨by decide, by decide, by decide, ?_, by decide, by decide⟩
  intro q b h
  obtain ⟨h1, h2⟩ := List.append_inj' (s₁ := [0x20#8, 0x01#8]) (t₁ := [0x22#8]) h rfl
  cases h1; cases h2; decide

theorem witness_ParseRecoversWhatEncodeWrote : (List.replicate 15 0#8).length ≤ 15 := by decide

theorem witness_EncodedPacketEndsInTheChecksumOfTheRest :
    encodePacket 0x20 0x01 [] = .ok [0x20, 0x01, 0x21] := by decide

theorem witness_BcdHelpersComputeTheirValues : 0 ≤ 99 ∧ 99 ≤ 99 ∧ ¬ 100 ≤ 99 := by decide

theorem witness_TimecodeDecodeGivesFieldsOrMalformed :
    (twoDigits 0x99 ≤ 99 ∧ twoDigits 0x9A = 100 ∧ twoDigits 0xA0 = 100 ∧ twoDigits 0x3F = 45) := by decide

theorem witness_TimecodeRoundTripUpTo39Frames :
    (39 : Fin 100).val ≤ 39 ∧ 40 ≤ (40 : Fin 100).val ∧ 40 ≤ (99 : Fin 100).val := by decide

theorem witness_CodecCallsReadAndWriteNoState :
    (encode (.bcdPack 7)).port = .codec ∧ (encode (.stop [])).port = .command := by decide

theorem witness_ModelsChoicesWhereTheSpecGivesNone :
    wellFormedPacket params [0x20, 0x01] = false ∧ State.reset.tx = .idle := by decide

/-- One packet for each row of INTERPRET, with the first row's other clauses excluded. -/
theorem witness_InterpretTriesTheRowsInOrder :
    ([] : Bytes).length ≤ 15 ∧ (List.replicate 15 0#8).length ≤ 15 ∧
    (List.replicate 16 0#8).length + 3 ≤ ({ params with maxLen := 256 } : Params).maxLen ∧
    codecOf (.interpret (written 0x10 0x01 [])) = [.event .ack] ∧
    codecOf (.interpret (written 0x10 0x12 [])) = [.event (.nak {})] ∧
    codecOf (.interpret (written 0x12 0x11 [0x20])) = [.event (.raw 0x12 0x11 [0x20])] ∧
    codecOf (.interpret (written 0x74 0x31 [0, 0, 0, 0xA0])) = [.event (.raw 0x74 0x31 [0, 0, 0, 0xA0])] ∧
    codecOf (.interpret (written 0x74 0x31 [0, 0, 0])) = [.event (.raw 0x74 0x31 [0, 0, 0])] ∧
    codecOf (.interpret (written 0x10 0x20 [])) = [.event (.raw 0x10 0x20 [])] := by decide

theorem witness_AckAndNakRepliesArePublishedAndSettle :
    after State.events (.nak []) opened = some [.nak {}] ∧
    after State.results (.nak [0x04]) (waiting 5 0)
      = some [(.sendAwait, .nakked { checksumError := true })] := by decide

theorem witness_DeviceTypeStatusAndRawRepliesUpdateTheirCache :
    ([0x20#8]).length < 2 ∧ ([] : Bytes).length < 2 := by decide

theorem witness_TimecodeRepliesUpdateTheTimecodeCache :
    (Instr.timecodeReply04, 0x04#8) ∈ [(Instr.timecodeReply04, 0x04#8)] ∧
    decodeTimecode ⟨0x04, 0x03, 0x02, 0x01⟩ = .ok ⟨1, 2, 3, 4, false, false⟩ ∧
    decodeTimecode ⟨0, 0, 0, 0xA0⟩ = .error .tcMalformed := by
  refine ⟨List.mem_singleton.2 rfl, by decide, by decide⟩

theorem witness_ReplyRowIsInterpretThenDeliver :
    wellFormed (.timecodeReply31 15 (List.replicate 15 0)) = true ∧
    (encode (.timecodeReply31 15 (List.replicate 15 0))).port = .framed := by decide

theorem witness_ArbiterSettlesAnArmedWaitOnly : opened.aw = .idle ∧ (waiting 5 2).aw = .armed 5 2 := by decide

theorem witness_ReceiveWhileClosedChangesNothing : [0x10#8] ≠ [] ∧ State.reset.sess = .closed := by decide

theorem witness_ReceiveAndExtractOnlyDeliverEvents : [0x10#8] ≠ [] := by decide

/-- A witness for each of the loop's steps (a) to (e). -/
theorem witness_ExtractFollowsTheLoopOfTheSpec :
    ([0x20#8, 0x01#8]).length < 3 ∧
    (3 ≤ ([0x20#8, 0x01#8, 0x21#8]).length ∧ frontMatch params [0x20, 0x01, 0x21] 0 = some 3) ∧
    (3 ≤ (List.replicate 18 0xFF#8).length ∧ frontMatch params (List.replicate 18 0xFF) 0 = none ∧
      params.maxLen ≤ (List.replicate 18 0xFF#8).length) ∧
    (3 ≤ ([0xFF#8, 0x20#8, 0x01#8, 0x21#8]).length ∧ frontMatch params [0xFF, 0x20, 0x01, 0x21] 0 = none ∧
      1 ≤ ([0xFF#8, 0x20#8, 0x01#8, 0x21#8]).length - 3 ∧
      frontMatch params [0xFF, 0x20, 0x01, 0x21] 1 ≠ none) ∧
    (3 ≤ ([0x74#8, 0x04#8, 0x04#8]).length ∧ frontMatch params [0x74, 0x04, 0x04] 0 = none ∧
      ([0x74#8, 0x04#8, 0x04#8]).length < params.maxLen ∧ ([0x74#8, 0x04#8, 0x04#8]).length - 3 = 0) ∧
    ([0x74#8] ≠ [] ∧ opened.sess = .opened) := by decide

theorem witness_AccumulatorStaysBelowMaxLen :
    legalParams params = true ∧ legalParams { params with maxLen := 3, accCap := some 3 } = true ∧
    ({ opened with acc := List.replicate 17 0xFF } : State).acc.length ≤ params.maxLen - 1 := by decide

theorem witness_FullAccumulatorActsAsAChunkBoundary :
    legalParams { params with accCap := some 18 } = true ∧
    ({ params with accCap := some 18 } : Params).accCap = some 18 ∧ opened.sess = .opened ∧
    ({ opened with acc := List.replicate 17 0xFF } : State).acc.length ≤ params.maxLen - 1 ∧
    [0xFF#8, 0xFF#8] ≠ [] := by decide

theorem witness_SameEventsAsTheSourceAlgorithm :
    legalParams params = true ∧ opened.sess = .opened ∧ opened.acc = [] ∧
    (∀ cap, params.accCap = some cap → ([0x20#8, 0x01#8, 0x21#8]).length ≤ cap) ∧
    (∀ cap, ({ params with accCap := some 18 } : Params).accCap = some cap → ([0x20#8]).length ≤ cap) := by
  refine ⟨by decide, rfl, rfl, fun cap h => by simp [params] at h, fun cap h => ?_⟩
  cases h; decide

theorem clean_play : Clean [0x20, 0x01, 0x21] := by
  intro o l h3 h1 h2
  simp only [List.length_cons, List.length_nil] at h1 h2
  omega

theorem clean_nak : Clean [0x10, 0x12, 0x04, 0x26] := by
  intro o l h3 h1 h2
  simp only [List.length_cons, List.length_nil] at h1 h2
  obtain ⟨rfl, ho⟩ : l = 3 ∧ o ≤ 1 := by omega
  interval_cases o <;> decide

theorem witness_CleanPacketSurvivesEverySplit :
    wellFormedPacket params [0x10, 0x12, 0x04, 0x26] = true ∧ Clean [0x10, 0x12, 0x04, 0x26] ∧
    (∀ c ∈ [[0x10#8, 0x12#8], [0x04#8, 0x26#8]], c ≠ []) ∧
    [[0x10#8, 0x12#8], [0x04#8, 0x26#8]].flatten = [0x10#8, 0x12#8, 0x04#8, 0x26#8] :=
  ⟨by decide, clean_nak, by decide, by decide⟩

theorem witness_LeadingJunkIsDropped :
    wellFormedPacket params [0x20, 0x01, 0x21] = true ∧ Clean [0x20, 0x01, 0x21] ∧
    (∀ l, 3 ≤ l → matchesAt [0xFF, 0xFF, 0x20, 0x01, 0x21] l = false) ∧
    (∀ l, 3 ≤ l → matchesAt [0xFF, 0x20, 0x01, 0x21] l = false) := by
  have key : ∀ a : Bytes, a.length ≤ 5 → (∀ l, 3 ≤ l → l ≤ 5 → matchesAt a l = false) →
      ∀ l, 3 ≤ l → matchesAt a l = false := by
    intro a ha h l h3
    by_cases h5 : l ≤ 5
    · exact h l h3 h5
    · rw [matchesAt, List.getElem?_eq_none (by omega)]; rfl
  refine ⟨by decide, clean_play, key _ (by decide) ?_, key _ (by decide) ?_⟩ <;>
    (intro l h3 h5; interval_cases l <;> decide)

theorem witness_ShortestMatchIsFramedFirst :
    params.accCap = none ∧ opened.sess = .opened ∧ opened.acc = [] ∧
    frontMatch params [0x21, 0x01, 0x22, 0x44] 0 = some 3 := by decide

theorem witness_AckThenNakInOneChunkSettlesAsAcked :
    (waiting 100 7).sess = .opened ∧ (waiting 100 7).acc = [] ∧ (waiting 100 7).aw = .armed 100 7 := by decide

theorem witness_OpenAnswersInItsOwnStep : opened.sess = .opened ∧ State.reset.sess = .closed := by decide

theorem witness_CloseAnswersInItsOwnStep :
    (opened.tx = .idle ∧ opened.sess = .opened) ∧ (State.reset.tx = .idle ∧ State.reset.sess = .closed) := by decide

theorem witness_SendWritesTheBytesUnchanged :
    (opened.tx = .idle ∧ opened.sess = .opened) ∧ (State.reset.tx = .idle ∧ State.reset.sess = .closed) := by decide

theorem witness_SendAwaitArmsTheWaitAndWrites :
    (opened.tx = .idle ∧ opened.aw = .idle ∧ opened.sess = .opened) ∧
    (State.reset.tx = .idle ∧ State.reset.aw = .idle ∧ State.reset.sess = .closed) := by decide

theorem witness_RequestThatIsNotReadyIsHeld :
    (writing .busyPlain .idle).tx ≠ .idle ∧ (waiting 5 0).aw ≠ .idle := by decide

theorem witness_WriteAnswersEndTheWrite :
    (writing .busyPlain .idle).tx = .busyPlain ∧
    ((writing .busyAwait .idle).tx = .busyAwait ∧ (writing .busyAwait .idle).aw = .idle) ∧
    ((writing .busyAwait (.armed 5 0)).tx = .busyAwait ∧
      (writing .busyAwait (.armed 5 0)).aw = .armed 5 0) := by decide

/-- At the boundary: limits 0 and 1 end at the first tick, limit 2 at the second. -/
theorem witness_TickCountsTheArmedWait :
    opened.aw = .idle ∧ ((waiting 2 0).aw = .armed 2 0 ∧ 0 + 1 < max 2 1) ∧
    ((waiting 2 1).aw = .armed 2 1 ∧ max 2 1 ≤ 1 + 1) ∧ ((waiting 0 0).aw = .armed 0 0 ∧ max 0 1 ≤ 0 + 1) := by decide

/-- The first tick may come at once (1) or a whole tick (1000) after the acceptance. -/
theorem witness_WaitEndsAtItsLimitAndNotBefore :
    (waiting 100 0).aw = .armed 100 0 ∧ 99 < max 100 1 ∧ 0 < 1 ∧ 1 ≤ params.tick ∧ 1000 ≤ params.tick ∧
    limitFits { params with timeoutBits := some 8 } 255 = true ∧ 254 < max 255 1 := by decide

theorem witness_EveryRequestGetsExactlyOneResult :
    ready opened (.sendAwait [0x20] 5) = true ∧ requestOf (.send [0x20]) = some (.send [0x20]) ∧
    requestOf .tick = none ∧ ∃ t, exec .tick (waiting 1 0) = .next t :=
  ⟨by decide, by decide, by decide, ⟨_, rfl⟩⟩

theorem witness_ResultsAreOfTheirOperation :
    ∃ t, exec .tick (waiting 1 0) = .next t ∧ t.results = [(.sendAwait, .timedOut)] := ⟨_, rfl, by decide⟩

/-- An open idle session; no wait and a chunk; a marked front with a match; two bytes of an ACK and a wait. -/
theorem witness_ListenBeforeSendInBothReadings :
    (opened.sess = .opened ∧ opened.tx = .idle ∧ opened.aw = .idle) ∧
    (∃ t, execIn params (.rx [0x10, 0x01, 0x11]) opened = .next t ∧ t.events = [.ack]) ∧
    (0 < 2 ∧ 3 ≤ ([0x10#8, 0x01#8, 0x11#8]).length ∧ frontMatch params [0x10, 0x01, 0x11] 0 = some 3) ∧
    (({ (waiting 100 7) with acc := [0x10, 0x01] } : State).sess = .opened ∧
      ({ (waiting 100 7) with acc := [0x10, 0x01] } : State).aw = .armed 100 7) :=
  ⟨by decide, ⟨_, rfl, by decide⟩, by decide, by decide⟩

theorem witness_EveryDutifulInstructionGoesOn :
    dutiful (writing .busyPlain .idle) .writeDone = true ∧ dutiful State.reset .tick = true := by decide

/-- For the whole-machine statements: a run of each kind of instruction that changes what they name. -/
theorem witness_WholeMachine :
    (∃ t, exec (.openLink {} .ok) State.reset = .next t ∧ t.sess ≠ State.reset.sess) ∧
    (∃ t, exec (.sendAwait [0x20] 5) opened = .next t ∧ t.tx ≠ opened.tx ∧ t.aw ≠ opened.aw ∧
      t.link ≠ opened.link) ∧
    (∃ t, exec (.rx [0x74]) opened = .next t ∧ t.acc ≠ opened.acc) ∧
    (∃ t, exec (.deliver (.status [])) opened = .next t ∧ t.lastStatus ≠ opened.lastStatus) ∧
    (∃ t, exec (.rx [0x74]) State.reset = .next t ∧ State.reset.sess = .closed) :=
  ⟨⟨_, rfl, by decide⟩, ⟨_, rfl, by decide, by decide, by decide⟩, ⟨_, rfl, by decide⟩, ⟨_, rfl, by decide⟩,
    ⟨_, rfl, rfl⟩⟩

/-- A waiting SEND whose turn has come; a step that takes it and one that is a tick. -/
theorem witness_LinkWritesNeverOverlap :
    (∃ t, exec (.send [0x20]) opened = .next t ∧ t.link = [.write [0x20]]) ∧
    ready opened (.send [0x20]) = true ∧
    (nextMove { opened with held := [.send [0x20]] } = .take (.send [0x20]) [] ∧
      ∃ t, step { opened with held := [.send [0x20]] } = .next t ∧ t.link = [.write [0x20]] ∧ t.tx = .busyPlain) :=
  ⟨⟨_, rfl, by decide⟩, by decide, by decide, ⟨_, rfl, by decide, by decide⟩⟩

theorem witness_ResetStateAnswersAsTheSpecSays : [0x10#8] ≠ [] := by decide

theorem inv_opened : State.Inv params opened :=
  ⟨fun h => by simp [opened] at h, fun l e h => by simp [opened, State.reset] at h, by decide,
    fun fs h => by simp [opened, State.reset] at h, fun l e h => by simp [opened, State.reset] at h,
    fun bs l h => by simp [opened, State.reset] at h⟩

/-- The default parameters and, at the bounds of R5, the smallest. -/
theorem witness_InvariantHoldsAtReset :
    legalParams params = true ∧
    legalParams { params with maxLen := 3, accCap := some 3, timeoutBits := some 0, tick := 1 } = true := by decide

theorem witness_EveryParameterChoiceHasItsMachine :
    parse { params with maxLen := 256 } (written 0x20 0x01 (List.replicate 16 0))
      = .ok ⟨0x20, 0x20, 0x01, List.replicate 16 0⟩ ∧
    parse { params with maxLen := 3 } [0x10, 0x12, 0x04, 0x26] = .error .notAPacket ∧
    interpret { params with maxLen := 256 } [0x10, 0x01, 0x11] = .ok .ack ∧
    interpret { params with maxLen := 3 } [0x10, 0x12, 0x04, 0x26] = .error .notAPacket ∧
    [0x10#8] ≠ [] ∧ readsParameter (.play []) = false ∧ readsParameter .tick = false := by decide

theorem witness_EveryStepKeepsTheInvariant :
    State.Inv params { opened with inputs := [encode (.sendAwait [0x20] 5)] } ∧
    (∃ t, step { opened with inputs := [encode (.sendAwait [0x20] 5)] } = .next t) ∧
    legalParams { params with maxLen := 256, accCap := some 256, timeoutBits := some 8 } = true :=
  ⟨⟨inv_opened.1, inv_opened.2, inv_opened.3, inv_opened.4, inv_opened.5, inv_opened.6⟩, ⟨_, rfl⟩, by decide⟩

theorem witness_StepRunsTheDecodedInstruction :
    (stuck.inputs = encode .tick :: [] ∧ (encode .tick).port ≠ .reset ∧
      (∀ r ∈ stuck.held, ready stuck r = false) ∧ decode (encode .tick) = .ok .tick) ∧
    decode { port := .host, bytes := [0x05] } = .error (.noSuchOperation 0x05) ∧
    ({ port := .host, bytes := [0x05], beforeHeld := true } : Input).beforeHeld = true := by decide

theorem witness_StepTakesWaitingRequestsAndReset :
    (opened.inputs = [] ∧ ∀ r ∈ opened.held, ready opened r = false) ∧
    (({ (waiting 5 0) with held := [.sendAwait [] 1, .send [0x55]] } : State).held
        = [.sendAwait [] 1] ++ .send [0x55] :: [] ∧
      ready (waiting 5 0) (.sendAwait [] 1) = false ∧ ready (waiting 5 0) (.send [0x55]) = true ∧
      (encode .tick).beforeHeld = false) ∧
    ({ port := .reset, bytes := [], beforeHeld := true } : Input).port = .reset := by decide

/-- A wait at its last tick, with the transmitter idle and with the await's write draining. -/
theorem witness_SimultaneousInputsAreOrdered :
    ((waiting 8 7).inputs = [] ∧ (waiting 8 7).sess = .opened ∧ (waiting 8 7).acc = [] ∧
      (waiting 8 7).aw = .armed 8 7 ∧ (waiting 8 7).tx = .idle ∧ (waiting 8 7).held = [] ∧ max 8 1 ≤ 7 + 1) ∧
    ((writing .busyAwait (.armed 8 7)).inputs = [] ∧ (writing .busyAwait (.armed 8 7)).sess = .opened ∧
      (writing .busyAwait (.armed 8 7)).acc = [] ∧ (writing .busyAwait (.armed 8 7)).aw = .armed 8 7 ∧
      (writing .busyAwait (.armed 8 7)).tx = .busyAwait) := by decide

end Sys2Proof.Tests
end

section
/-! The decoder and the encoder: what each branch of the decoder accepts, and the two directions of the
round trip (O2, O3). -/

namespace Sys2Proof.Laws.EncodedForm

open Sys2Proof

/-- Every instruction has the form its own lemma gives. -/
theorem statement : ∀ i : Instr, Statement i
  | .localDisable d => localDisable d | .deviceType d => deviceType d | .localEnable d => localEnable d
  | .stop d => stop d | .play d => play d | .record d => record d | .standbyOff d => standbyOff d
  | .standbyOn d => standbyOn d | .eject d => eject d | .fastFwd d => fastFwd d | .jogFwd d => jogFwd d
  | .varFwd d => varFwd d | .shuttleFwd d => shuttleFwd d | .frameStepFwd d => frameStepFwd d
  | .rewind d => rewind d | .jogRev d => jogRev d | .varRev d => varRev d | .shuttleRev d => shuttleRev d
  | .frameStepRev d => frameStepRev d | .preroll d => preroll d | .cueUpWithData d => cueUpWithData d
  | .syncPlay d => syncPlay d | .preview d => preview d | .review d => review d
  | .tcGenSense d => tcGenSense d | .currentTimeSense d => currentTimeSense d
  | .inDataSense d => inDataSense d | .outDataSense d => outDataSense d | .statusSense d => statusSense d
  | .ack d => ack d | .nak d => nak d | .deviceTypeReply d => deviceTypeReply d
  | .statusReply l d => statusReply l d | .timecodeReply04 l d => timecodeReply04 l d
  | .timecodeReply06 l d => timecodeReply06 l d | .timecodeReply08 l d => timecodeReply08 l d
  | .timecodeReply10 l d => timecodeReply10 l d | .timecodeReply11 l d => timecodeReply11 l d
  | .timecodeReply14 l d => timecodeReply14 l d | .timecodeReply16 l d => timecodeReply16 l d
  | .timecodeReply31 l d => timecodeReply31 l d | .rawReply h c d => rawReply h c d
  | .openLink c a => openLink c a | .closeLink a => closeLink a | .send b => send b
  | .sendAwait b t => sendAwait b t | .rx c => rx c | .writeDone => writeDone | .writeError => writeError
  | .tick => tick | .csum b => csum b | .encodePkt c1 c2 d => encodePkt c1 c2 d
  | .parsePkt b => parsePkt b | .bcdPack v => bcdPack v | .bcdUnpack b => bcdUnpack b
  | .clamp99 v => clamp99 v | .tcEncode t => tcEncode t | .tcDecode w => tcDecode w
  | .nakDecode b => nakDecode b | .statusDecode d => statusDecode d
  | .statusSenseByte s n => statusSenseByte s n | .extract => extract | .frontMatch o => frontMatch o
  | .interpret p => interpret p | .deliver e => deliver e | .arbiterAck => arbiterAck
  | .arbiterNak r => arbiterNak r

end Sys2Proof.Laws.EncodedForm

namespace Sys2Proof

open Machine Laws.EncodedForm

/-! ### The decoder on each shape's input -/

/-- R78: a command packet whose key is in the catalogue is that row's command. -/
theorem decodeCommand_listed {hdr cmd2 : Byte} {r : CommandRow}
    (hr : commandOf (classBits hdr) cmd2 = some r) (data : Bytes) :
    decodeCommand (wirePacket hdr cmd2 data) = .ok (r.build data) := by
  simp [decodeCommand, parse_wirePacket, hr]

/-- R88, R114: a command packet with any other key is ENCODE of its own fields (log 23). -/
theorem decodeCommand_unlisted {hdr cmd2 : Byte} (hr : commandOf (classBits hdr) cmd2 = none)
    (data : Bytes) : decodeCommand (wirePacket hdr cmd2 data) = .ok (.encodePkt hdr cmd2 data) := by
  simp [decodeCommand, parse_wirePacket, hr]

theorem decodeReply_wirePacket {P : Params} {data : Bytes} (hdr cmd2 : Byte)
    (hm : data.length + 3 ≤ P.maxLen) :
    decodeReply P (wirePacket hdr cmd2 data) = .ok (replyOf hdr cmd2 data) := by
  rw [decodeReply, parse_wirePacket P _ _ _ hm]

/-- An operation's input is on a port that takes operations, so the decoder reads it as one (R128). -/
theorem decodeIn_operation (P : Params) (code : Byte) (o : Operands) :
    decodeIn P (inputOf (.operation code o)) = decodeOperation P (operationPort code) [code] o := by
  obtain ⟨hc, hf, hr⟩ := operationPort_ne code
  simp only [decodeIn, inputOf]
  cases hp : operationPort code with
  | command => exact absurd hp hc
  | framed => exact absurd hp hf
  | reset => exact absurd hp hr
  | host | codec | linkTx | linkRx | timeBase | internal => rfl

/-- What the tables recover, the decoder reads from the input of the shape. -/
theorem decodeIn_inputOf {P : Params} {i : Instr} (hw : wellFormedIn P i = true) :
    ∀ {sh : Shape}, Recovers P i sh → decodeIn P (inputOf sh) = .ok i
  | .command c1 c2 d, ⟨r, hr, hb⟩ => by
    change decodeCommand (wirePacket (header c1 d.length) c2 d) = _
    rw [decodeCommand_listed (by rwa [classBits_header]), hb]
  | .reply h c2 d, ⟨hm, hi⟩ => by
    change decodeReply P (wirePacket h c2 d) = _
    rw [decodeReply_wirePacket h c2 hm, hi]
  | .operation code o, hi => by
    have hi : operationOf code o = some i := hi
    simp [decodeIn_operation, decodeOperation, hi, hw]

theorem decodeIn_encode {P : Params} {i : Instr} (hw : wellFormedIn P i = true) :
    decodeIn P (encode i) = .ok i :=
  decodeIn_inputOf hw (statement i P hw)

/-- Settles O2: the tables recover the instruction from each of the three shapes, and the packet layout
takes the fields apart again. -/
theorem decodingAnEncodingGivesTheInstruction : Obligations.DecodingAnEncodingGivesTheInstruction :=
  ⟨fun _ hw => decodeIn_encode hw, fun _ _ hw => decodeIn_encode hw⟩

/-! ### What the decoder accepts -/

/-- R70: the packet written out is the encoder's wire layout. -/
theorem written_eq_wirePacket (hdr cmd2 : Byte) (data : Bytes) :
    Claims.written hdr cmd2 data = wirePacket hdr cmd2 data := by
  simp [Claims.written, wirePacket, checksum, byteSum, Nat.add_assoc]

/-- R78, R88: everything the command port accepts. -/
theorem decodeCommand_ok {bytes : Bytes} {i : Instr} (h : decodeCommand bytes = .ok i) :
    ∃ hdr cmd2 data, bytes = wirePacket hdr cmd2 data ∧
      ((∃ r, commandOf (classBits hdr) cmd2 = some r ∧ i = r.build data) ∨
        (commandOf (classBits hdr) cmd2 = none ∧ i = .encodePkt hdr cmd2 data)) := by
  cases hp : parse { params with maxLen := bytes.length } bytes with
  | error e => simp [decodeCommand, hp] at h
  | ok p =>
    obtain ⟨hb, -, -⟩ := (parse_ok_iff _ _ p).1 hp
    refine ⟨p.hdr, p.cmd2, p.data, hb, ?_⟩
    rw [hb] at h
    cases hr : commandOf (classBits p.hdr) p.cmd2 with
    | some r => exact .inl ⟨r, rfl, Except.ok.inj (h.symm.trans (decodeCommand_listed hr _))⟩
    | none => exact .inr ⟨rfl, Except.ok.inj (h.symm.trans (decodeCommand_unlisted hr _))⟩

/-- R80, R87: everything the framed port accepts. -/
theorem decodeReply_ok {P : Params} {bytes : Bytes} {i : Instr} (h : decodeReply P bytes = .ok i) :
    ∃ hdr cmd2 data, bytes = wirePacket hdr cmd2 data ∧ data.length + 3 ≤ P.maxLen ∧
      i = replyOf hdr cmd2 data := by
  cases hp : parse P bytes with
  | error e => simp [decodeReply, hp] at h
  | ok p =>
    obtain ⟨hb, -, hm⟩ := (parse_ok_iff _ _ p).1 hp
    rw [hb, decodeReply_wirePacket _ _ hm] at h
    exact ⟨p.hdr, p.cmd2, p.data, hb, hm, by simpa using h.symm⟩

/-- R128: everything an operation's port accepts. -/
theorem decodeOperation_ok {P : Params} {port : Port} {bytes : Bytes} {o : Operands} {i : Instr}
    (h : decodeOperation P port bytes o = .ok i) :
    ∃ code, bytes = [code] ∧ operationOf code o = some i ∧ operationPort code = port ∧
      wellFormedIn P i = true := by
  unfold decodeOperation at h
  split at h
  · next code =>
    refine ⟨code, rfl, ?_⟩
    split at h
    · cases h
    · next j hj =>
      split at h
      · cases h
      · next hport =>
        split at h
        · next hw => cases h; exact ⟨hj, by simpa using hport, hw⟩
        · split at h <;> cases h
  · cases h

/-- Everything the decoder accepts: a command, a framed packet or an operation. -/
theorem decodeIn_ok {P : Params} {x : Input} {i : Instr} (h : decodeIn P x = .ok i) :
    (x.port = .command ∧ decodeCommand x.bytes = .ok i) ∨
    (x.port = .framed ∧ decodeReply P x.bytes = .ok i) ∨
    (x.port ≠ .command ∧ x.port ≠ .framed ∧ decodeOperation P x.port x.bytes x.operands = .ok i) := by
  unfold decodeIn at h
  split at h <;> rename_i hp
  · exact .inl ⟨hp, h⟩
  · exact .inr (.inl ⟨hp, h⟩)
  · cases h
  all_goals exact .inr (.inr ⟨by simp [hp], by simp [hp], by rwa [hp] at h ⊢⟩)

/-- R128: the shape of a decoded operation has the operands that the operation names and no others. -/
theorem operationOf_operands {code : Byte} {o : Operands} {i : Instr} (h : operationOf code o = some i) :
    shape i = .operation code (Claims.operandsOf code o) := by
  have hcode : code = byteOf code.toNat := by simp [byteOf]
  unfold operationOf at h
  split at h
  case h_26 => cases h
  all_goals
    rename_i hc
    rw [hc] at hcode
    subst hcode
    cases h
    rfl

theorem commandOf_some {cls cmd2 : Byte} {r : CommandRow} (h : commandOf cls cmd2 = some r) :
    r ∈ catalogue ∧ r.cmd1 = cls ∧ r.cmd2 = cmd2 :=
  ⟨List.mem_of_find?_eq_some h, by simpa using List.find?_some h⟩

theorem commandOf_none {cls cmd2 : Byte} (h : commandOf cls cmd2 = none) :
    ∀ r ∈ catalogue, ¬ (r.cmd1 = cls ∧ r.cmd2 = cmd2) := by
  simpa [commandOf] using h

theorem encode_reply {hdr cmd2 : Byte} {data : Bytes} {i : Instr} (h : i = replyOf hdr cmd2 data) :
    encode i = { port := .framed, bytes := wirePacket hdr cmd2 data } := by
  rw [h, encode, replyOf_shape, inputOf]

theorem encode_operation {code : Byte} {o : Operands} {i : Instr} (h : operationOf code o = some i) :
    encode i = { port := operationPort code, bytes := [code], operands := Claims.operandsOf code o } := by
  rw [encode, operationOf_operands h, inputOf]

/-- R71: what a row of the catalogue builds is encoded with the row's class and the data's length. -/
theorem encode_build {r : CommandRow} (hr : r ∈ catalogue) (data : Bytes) :
    encode (r.build data) =
      { port := .command, bytes := wirePacket (r.cmd1 + byteOf (data.length % 16)) r.cmd2 data } := by
  obtain ⟨hcls, hshape, -⟩ := catalogue_row hr
  rw [encode, hshape, inputOf, header_eq_add, hcls]

/-- Whatever the decoder accepts is well-formed (R75, R86, R128). -/
theorem wellFormedIn_of_decodeIn {P : Params} {x : Input} {i : Instr} (h : decodeIn P x = .ok i) :
    wellFormedIn P i = true := by
  rcases decodeIn_ok h with ⟨-, h⟩ | ⟨-, h⟩ | ⟨-, -, h⟩
  · obtain ⟨_, _, data, -, ⟨r, hr, rfl⟩ | ⟨-, rfl⟩⟩ := decodeCommand_ok h
    · exact (catalogue_row (commandOf_some hr).1).2.2 P data
    · rfl
  · obtain ⟨_, _, _, -, hm, rfl⟩ := decodeReply_ok h
    exact replyOf_wellFormed _ _ _ P hm
  · obtain ⟨_, -, -, -, hw⟩ := decodeOperation_ok h
    exact hw

/-- A command packet is its row's encoding but for the length nibble, or ENCODE of its own fields (R73, R88). -/
theorem command_bytes {bytes : Bytes} {i : Instr} (h : decodeCommand bytes = .ok i) :
    ∃ hdr cmd2 data, bytes = Claims.written hdr cmd2 data ∧
      (((∃ r ∈ catalogue, r.cmd1 = hdr &&& 0xF0#8 ∧ r.cmd2 = cmd2) ∧ (encode i).port = .command ∧
          (encode i).bytes = Claims.written ((hdr &&& 0xF0#8) + byteOf (data.length % 16)) cmd2 data) ∨
        ((∀ r ∈ catalogue, ¬ (r.cmd1 = hdr &&& 0xF0#8 ∧ r.cmd2 = cmd2)) ∧ i = .encodePkt hdr cmd2 data)) := by
  obtain ⟨hdr, cmd2, data, hb, hi⟩ := decodeCommand_ok h
  refine ⟨hdr, cmd2, data, by rw [hb, written_eq_wirePacket], ?_⟩
  rcases hi with ⟨r, hr, rfl⟩ | ⟨hr, hi⟩
  · obtain ⟨hmem, hc1, hc2⟩ := commandOf_some hr
    have he := encode_build hmem data
    rw [hc1, hc2] at he
    exact .inl ⟨⟨r, hmem, hc1, hc2⟩, by rw [he], by rw [he, written_eq_wirePacket]; rfl⟩
  · exact .inr ⟨commandOf_none hr, hi⟩

/-- Settles O3: one case for each of the decoder's three branches. -/
theorem decodedInputIsTheInstructionsEncoding : Obligations.DecodedInputIsTheInstructionsEncoding := by
  intro P x i h
  refine ⟨wellFormedIn_of_decodeIn h, ?_⟩
  rcases decodeIn_ok h with ⟨hp, hd⟩ | ⟨hp, hd⟩ | ⟨hc, hf, hd⟩
  · exact ⟨fun hn => absurd hp hn, fun hn => absurd hp hn, fun _ => command_bytes hd,
      fun _ o => by simpa [decodeIn, hp] using hd⟩
  · obtain ⟨_, _, _, hb, -, hi⟩ := decodeReply_ok hd
    have he := encode_reply hi
    exact ⟨fun _ => ⟨by rw [he, hp], by rw [he, hb]⟩, fun _ hn => absurd hp hn,
      fun hn => by simp [hp] at hn, fun _ o => by simpa [decodeIn, hp] using hd⟩
  · obtain ⟨code, hb, hi, hport, -⟩ := decodeOperation_ok hd
    have he := encode_operation hi
    exact ⟨fun _ => ⟨by rw [he, hport], by rw [he, hb]⟩, fun _ _ => ⟨code, hb, by rw [he]⟩,
      fun hn => absurd hn hc, fun hn => by simp [hc, hf] at hn⟩

end Sys2Proof
end

section
/-! The invariant of R40, R25 and R231: it holds at reset, and every shared operation, instruction and step
keeps it (O56, O57). -/

namespace Sys2Proof.Machine

/-! ### The invariant with `ACC` left aside -/

/-- The invariant but for the length of `ACC`, which is longer while a chunk is being received. -/
def State.InvBesidesAcc (P : Params) (s : State) : Prop := State.Inv P { s with acc := [] }

theorem inv_iff_besidesAcc {P : Params} {s : State} :
    State.Inv P s ↔ s.InvBesidesAcc P ∧ s.acc.length ≤ P.maxLen - 1 :=
  ⟨fun h => ⟨⟨h.closed_idle, h.elapsed_lt, Nat.zero_le _, h.flags_legal, h.limit_fits, h.held_fits⟩,
      h.acc_short⟩,
    fun ⟨h, ha⟩ => ⟨h.closed_idle, h.elapsed_lt, ha, h.flags_legal, h.limit_fits, h.held_fits⟩⟩

theorem State.InvBesidesAcc.withAcc {P : Params} {s : State} (h : s.InvBesidesAcc P) (a : Bytes) :
    State.InvBesidesAcc P { s with acc := a } := h

/-- R195: delivering an event of the type `Event` keeps the invariant: a status set is legal, and the wait
stays or becomes idle. -/
theorem State.InvBesidesAcc.deliver {P : Params} {s : State} (h : s.InvBesidesAcc P) {e : Event}
    (he : validEvent P e = true) : (deliver e s).InvBesidesAcc P := by
  have haw : (Machine.deliver e s).aw = s.aw ∨ (Machine.deliver e s).aw = .idle := by
    rcases deliver_aw_results s e with ⟨h, -⟩ | ⟨_, _, _, -, -, h, -⟩
    · exact .inl h
    · exact .inr h
  have harmed : ∀ l n, (Machine.deliver e s).aw = .armed l n → s.aw = .armed l n := by
    rcases haw with haw | haw <;> simp [haw]
  refine ⟨by simpa using h.closed_idle, fun l n hn => h.elapsed_lt l n (harmed l n hn), Nat.zero_le _,
    ?_, fun l n hn => h.limit_fits l n (harmed l n hn), by simpa using h.held_fits⟩
  intro fs hfs
  have hfs : (Machine.deliver e s).lastStatus = some fs := hfs
  rw [deliver_lastStatus] at hfs
  cases e with
  | status gs => cases hfs; exact he
  | ack | nak | deviceType | timecode | raw => exact h.flags_legal fs hfs

theorem State.InvBesidesAcc.extract {P : Params} {s : State} (h : s.InvBesidesAcc P) :
    (extract P s).InvBesidesAcc P :=
  extract_induct (C := State.InvBesidesAcc P) 
    (fun _ _ _ h hk => (h.withAcc _).deliver (validEvent_classify hk)) (fun _ h => h) s h

theorem State.InvBesidesAcc.receive {P : Params} {s : State} (h : s.InvBesidesAcc P) (chunk : Bytes) :
    (receive P chunk s).InvBesidesAcc P :=
  receive_induct (C := State.InvBesidesAcc P) (fun _ _ h => h)
    (fun _ _ _ h hk => (h.withAcc _).deliver (validEvent_classify hk)) (fun _ h => h) chunk s h

/-! ### What keeps the invariant -/

theorem inv_reset (P : Params) : State.Inv P State.reset where
  closed_idle _ := rfl
  elapsed_lt _ _ h := nomatch h
  acc_short := Nat.zero_le _
  flags_legal _ h := nomatch h
  limit_fits _ _ h := nomatch h
  held_fits _ _ h := nomatch h

namespace State.Inv

variable {P : Params} {s : State}

/-- The invariant reads neither the ports' logs nor the inputs, and an idle transmitter or an idle wait
cannot break it. -/
theorem of_idle {t : State} (h : State.Inv P s) (hsess : t.sess = s.sess)
    (htx : t.tx = s.tx ∨ t.tx = .idle) (hacc : t.acc = s.acc) (haw : t.aw = s.aw ∨ t.aw = .idle)
    (hstatus : t.lastStatus = s.lastStatus) (hheld : t.held = s.held) : State.Inv P t := by
  have harmed : ∀ l n, t.aw = .armed l n → s.aw = .armed l n := by
    rcases haw with haw | haw <;> simp [haw]
  refine ⟨fun hc => ?_, fun l n hn => h.elapsed_lt l n (harmed l n hn), hacc ▸ h.acc_short,
    hstatus ▸ h.flags_legal, fun l n hn => h.limit_fits l n (harmed l n hn), hheld ▸ h.held_fits⟩
  rcases htx with htx | htx
  · rw [htx]; exact h.closed_idle (hsess ▸ hc)
  · exact htx

theorem answerCodec (h : State.Inv P s) (v : CodecValue) : State.Inv P (answerCodec v s) :=
  h.of_idle rfl (.inl rfl) rfl (.inl rfl) rfl rfl

theorem settle (h : State.Inv P s) (r : Result) : State.Inv P (settle r s) :=
  h.of_idle (settle_sess s r) (.inl (settle_tx s r)) (settle_acc s r) (.inr (settle_aw s r))
    (settle_lastStatus s r) (settle_held s r)

theorem deliver (h : State.Inv P s) {e : Event} (he : validEvent P e = true) :
    State.Inv P (deliver e s) := by
  obtain ⟨hb, ha⟩ := inv_iff_besidesAcc.1 h
  exact inv_iff_besidesAcc.2 ⟨hb.deliver he, by simpa using ha⟩

/-- R187: whatever `ACC` held, it is short when extraction has stopped. -/
theorem extract (hP : 3 ≤ P.maxLen) (h : s.InvBesidesAcc P) : State.Inv P (extract P s) :=
  inv_iff_besidesAcc.2 ⟨h.extract, by have := extract_acc_length hP s; omega⟩

theorem receive (hP : 3 ≤ P.maxLen) (h : State.Inv P s) (chunk : Bytes) :
    State.Inv P (receive P chunk s) := by
  cases hs : s.sess with
  | closed => rwa [receive_closed hs]
  | opened =>
    refine inv_iff_besidesAcc.2 ⟨(inv_iff_besidesAcc.1 h).1.receive chunk, ?_⟩
    have hr : Machine.receive P chunk s = Machine.extract P (chunk.foldl (receiveByte P) s) := by
      simp [Machine.receive, hs]
    have := extract_acc_length hP (chunk.foldl (receiveByte P) s)
    rw [hr]; omega

/-- R223: CLOSE is taken with an idle transmitter only. R225: SEND_AWAIT arms at elapsed 0. -/
theorem take {r : Request} (h : State.Inv P s) (hr : ready s r = true)
    (hfits : ∀ bs l, r = .sendAwait bs l → limitFits P l = true) : State.Inv P (take r s) := by
  rcases take_cases r s with ⟨_, _, _, ht, -⟩ | ⟨_, -, -, ht⟩ | ⟨rfl, -, ht⟩ | ⟨_, -, ho, ht⟩
    | ⟨bs, l, rfl, ho, ht⟩ <;> rw [ht]
  · exact h.of_idle rfl (.inl rfl) rfl (.inl rfl) rfl rfl
  · exact ⟨nofun, h.elapsed_lt, Nat.zero_le _, nofun, h.limit_fits, h.held_fits⟩
  · exact ⟨fun _ => by simpa [ready] using hr, h.elapsed_lt, h.acc_short, h.flags_legal, h.limit_fits,
      h.held_fits⟩
  · exact ⟨fun hc => by simp [ho] at hc, h.elapsed_lt, h.acc_short, h.flags_legal, h.limit_fits,
      h.held_fits⟩
  · refine ⟨fun hc => by simp [ho] at hc, ?_, h.acc_short, h.flags_legal, ?_, h.held_fits⟩
    · rintro _ _ ⟨⟩; omega
    · rintro _ _ ⟨⟩; exact hfits bs l rfl

theorem hold {r : Request} (h : State.Inv P s)
    (hfits : ∀ bs l, r = .sendAwait bs l → limitFits P l = true) : State.Inv P (hold r s) := by
  refine ⟨h.closed_idle, h.elapsed_lt, h.acc_short, h.flags_legal, h.limit_fits, fun bs l hm => ?_⟩
  rcases List.mem_append.1 hm with hm | hm
  · exact h.held_fits bs l hm
  · exact hfits bs l (List.mem_singleton.1 hm).symm

theorem present {r : Request} (h : State.Inv P s)
    (hfits : ∀ bs l, r = .sendAwait bs l → limitFits P l = true) : State.Inv P (present r s) := by
  cases hr : ready s r with
  | true => rw [present_ready hr]; exact h.take hr hfits
  | false => rw [present_held hr]; exact h.hold hfits

/-- R228: a wait that does not expire at a tick is still below its limit. -/
theorem countTick (h : State.Inv P s) : State.Inv P (countTick s) := by
  rcases countTick_cases s with ⟨-, ht⟩ | ⟨l, e, ha, hlt, ht⟩ | ⟨_, _, -, -, ht⟩ <;> rw [ht]
  · exact h
  · refine ⟨h.closed_idle, ?_, h.acc_short, h.flags_legal, ?_, h.held_fits⟩
    · rintro _ _ ⟨⟩; exact hlt
    · rintro _ _ ⟨⟩; exact h.limit_fits l e ha
  · exact h.of_idle rfl (.inl rfl) rfl (.inr rfl) rfl rfl

theorem execWriteDone {t : State} (h : State.Inv P s) (ht : execWriteDone s = .next t) :
    State.Inv P t := by
  rcases execWriteDone_cases s with ⟨-, he⟩ | ⟨-, he⟩ | ⟨-, he⟩ <;> rw [he] at ht <;> cases ht <;>
    exact h.of_idle rfl (.inr rfl) rfl (.inl rfl) rfl rfl

theorem execWriteError {t : State} (h : State.Inv P s) (ht : execWriteError s = .next t) :
    State.Inv P t := by
  have hidle : State.Inv P { s with tx := .idle } := h.of_idle rfl (.inr rfl) rfl (.inl rfl) rfl rfl
  rcases execWriteError_cases s with ⟨-, he⟩ | ⟨-, he⟩ | ⟨-, he⟩ <;> rw [he] at ht <;> cases ht
  · exact hidle.of_idle rfl (.inl rfl) rfl (.inl rfl) rfl rfl
  · exact hidle.settle _

/-! ### Instructions and steps -/

/-- The limit of a well-formed SEND_AWAIT fits `P_TIMEOUT_BITS` (R231). -/
theorem limitFits_of_requestOf {i : Instr} {r : Request} (hw : wellFormedIn P i = true)
    (hi : requestOf i = some r) : ∀ bs l, r = .sendAwait bs l → limitFits P l = true := by
  rintro bs l rfl
  cases i <;> cases hi
  exact hw

theorem execIn {i : Instr} {t : State} (hP : 3 ≤ P.maxLen) (h : State.Inv P s)
    (hw : wellFormedIn P i = true) (ht : execIn P i s = .next t) : State.Inv P t := by
  rcases execIn_next ht with ⟨r, hi, rfl⟩ | ⟨v, rfl⟩ | ⟨e, rfl, he⟩ | ⟨c, -, rfl⟩ | ⟨-, rfl⟩ |
    ⟨r, rfl, -⟩ | ⟨-, -, ht⟩ | ⟨-, -, ht⟩ | ⟨-, rfl⟩
  · exact h.present (limitFits_of_requestOf hw hi)
  · exact h.answerCodec v
  · exact h.deliver (he hw)
  · exact h.receive hP c
  · exact extract hP (inv_iff_besidesAcc.1 h).1
  · exact h.settle r
  · exact h.execWriteDone ht
  · exact h.execWriteError ht
  · exact h.countTick

/-- R32: a waiting request that is taken was held with a limit that fits. -/
theorem takeHeld {r : Request} {waiting : List Request} (h : State.Inv P s)
    (hm : nextMove s = .take r waiting) : State.Inv P (Machine.take r { s with held := waiting }) := by
  obtain ⟨hr, a, b, hheld, rfl⟩ := nextMove_take hm
  have hs : State.Inv P { s with held := a ++ b } := by
    refine ⟨h.closed_idle, h.elapsed_lt, h.acc_short, h.flags_legal, h.limit_fits, fun bs l hmem => ?_⟩
    have hmem : Request.sendAwait bs l ∈ a ++ b := hmem
    exact h.held_fits bs l (by rw [hheld]; simp at hmem ⊢; tauto)
  refine hs.take (by cases r <;> exact hr) ?_
  rintro bs l rfl
  exact h.held_fits bs l (by simp [hheld])

end State.Inv

theorem stepIn_keepsTheInvariant {P : Params} (hP : legalParams P = true) :
    Claims.keepsTheInvariant (stepIn P) P := by
  intro s t h ht
  rcases stepWith_next ht with ⟨-, rfl⟩ | ⟨rest, -, rfl⟩ | ⟨r, waiting, hm, rfl⟩ | ⟨x, rest, i, -, hd, ht⟩
  · exact h
  · exact (inv_reset P).of_idle rfl (.inl rfl) rfl (.inl rfl) rfl rfl
  · exact h.takeHeld hm
  · have hrest : State.Inv P { s with inputs := rest } := h.of_idle rfl (.inl rfl) rfl (.inl rfl) rfl rfl
    exact hrest.execIn (legalParams_maxLen hP) (wellFormedIn_of_decodeIn hd) ht

theorem legalParams_params : legalParams params = true := by decide

/-- Settles O57: what a step can do, case by case, keeps the invariant; the closed machine is the block at the
defaults. -/
theorem everyStepKeepsTheInvariant : Obligations.EveryStepKeepsTheInvariant := by
  refine ⟨fun s t h ht => ?_, fun _ hP => stepIn_keepsTheInvariant hP⟩
  exact stepIn_keepsTheInvariant legalParams_params s t h (by rwa [stepIn_params])

/-- Settles O56: every clause is about an element that reset empties or makes idle. -/
theorem invariantHoldsAtReset : Obligations.InvariantHoldsAtReset := fun P _ => inv_reset P

end Sys2Proof.Machine
end

section
/-! The block for every choice of its parameters and its step (O22, O55, O58). -/

namespace Sys2Proof.Machine

open Claims

/-! ### INTERPRET -/

theorem execIn_interpret_ok {P : Params} {p : Bytes} {e : Event} (h : interpret P p = .ok e) (s : State) :
    execIn P (.interpret p) s = .next (answerCodec (.event e) s) := by
  simp [execIn, execInterpretIn, h]

theorem execIn_interpret_error {P : Params} {p : Bytes} {e : CodecError} (h : interpret P p = .error e)
    (s : State) : execIn P (.interpret p) s = .next (answerCodec (.error e) s) := by
  simp [execIn, execInterpretIn, h]

/-- R188: INTERPRET of a packet written out classifies its fields. -/
theorem execIn_interpret_written {P : Params} {data : Bytes} (hdr cmd2 : Byte) (s : State)
    (hm : data.length + 3 ≤ P.maxLen) :
    execIn P (.interpret (written hdr cmd2 data)) s
      = .next { s with codec := s.codec ++ [.event (classify P ⟨hdr, classBits hdr, cmd2, data⟩)] } :=
  execIn_interpret_ok
    (by rw [interpret, written_eq_wirePacket, parse_wirePacket P _ _ _ hm]; rfl) s

/-- R190: a reason byte of zero signals no reason. -/
@[simp] theorem decodeNak_zero (t : NakTable) : decodeNak t 0#8 = {} :=
  nakSet_ext fun r => by rw [nakHas_decodeNak]; cases r <;> simp [nakSignalled, nakHas]

/-- R188: `classify` on a packet's fields, with the class nibble and the timecode keys written out. -/
theorem classify_fields (P : Params) (hdr cmd2 : Byte) (data : Bytes) :
    classify P ⟨hdr, classBits hdr, cmd2, data⟩ =
      if hdr = 0x10#8 ∧ cmd2 = 0x01#8 then .ack
      else if hdr = 0x10#8 ∧ cmd2 = 0x12#8 then nakEvent P data
      else if hdr = 0x12#8 ∧ cmd2 = 0x11#8 then deviceTypeEvent hdr cmd2 data
      else if hdr &&& 0xF0#8 = 0x70#8 ∧ cmd2 = 0x20#8 then statusEvent P data
      else if hdr &&& 0xF0#8 = 0x70#8 ∧
          cmd2 ∈ [0x04#8, 0x06#8, 0x08#8, 0x10#8, 0x11#8, 0x14#8, 0x16#8, 0x31#8] then
        timecodeEvent hdr cmd2 data
      else .raw hdr cmd2 data := rfl

/-- R188 to R194: the rows of the statement, in order, are the rows of `classify`. -/
theorem interpretsByRows_execIn {P : Params} {data : Bytes} (hdr cmd2 : Byte) (s : State)
    (hm : data.length + 3 ≤ P.maxLen) : interpretsByRows P (execIn P) hdr cmd2 data s := by
  have hrun := execIn_interpret_written hdr cmd2 s hm
  unfold interpretsByRows
  rw [classify_fields] at hrun
  split_ifs at hrun ⊢ with hAck hNak hDev hStatus hTc
  · exact hrun
  · cases data with
    | nil => simpa [nakEvent] using hrun
    | cons r _ => exact hrun
  · match data with
    | [] | [_] => exact hrun
    | d0 :: d1 :: _ => exact ⟨_, hrun, deviceTypeValue_toNat d0 d1⟩
  · exact hrun
  · match data with
    | [] | [_] | [_, _] | [_, _, _] => exact hrun
    | f :: sec :: m :: h :: _ =>
      cases hd : decodeTimecode ⟨f, sec, m, h⟩ with
      | ok tc => simpa [timecodeEvent, timecodeBytes?, hd] using hrun
      | error e => simpa [timecodeEvent, timecodeBytes?, hd] using hrun
  · exact hrun

/-- Settles O22: the closed machine's packets of up to 15 data bytes are those of its `P_MAX_LEN`. -/
theorem interpretTriesTheRowsInOrder : Obligations.InterpretTriesTheRowsInOrder := by
  refine ⟨fun hdr cmd2 data s hd => ?_, fun P hdr cmd2 data s hm => interpretsByRows_execIn hdr cmd2 s hm⟩
  have hrun : execIn params = exec := funext fun i => funext (execIn_params i)
  have hm : data.length + 3 ≤ params.maxLen := Nat.add_le_add_right hd 3
  exact hrun ▸ interpretsByRows_execIn hdr cmd2 s hm

/-! ### The family of blocks -/

/-- R195: DELIVER is the cache, and then the event and the arbiter, which `publish` states as one update. -/
theorem deliver_eq_publish (e : Event) (s : State) : deliver e s = publish e (updateCache e s) := by
  cases haw : s.aw with
  | idle =>
    rw [deliver, arbitrate_idle (by simpa using haw)]
    simp [publish, haw, emitEvent]
  | armed l n =>
    rw [deliver, arbitrate_armed (l := l) (n := n) (by simpa using haw)]
    cases hr : settling e <;> simp [publish, haw, hr, emitEvent]

/-- R5: only the nine instructions that read a parameter differ between blocks. -/
theorem execIn_eq_exec {P : Params} {i : Instr} (h : readsParameter i = false) (s : State) :
    execIn P i s = exec i s := by
  cases i
  case parsePkt | nakDecode | statusDecode | nak | statusReply | rx | extract | frontMatch | interpret => cases h
  all_goals rfl

/-- Settles O55: the closed machine is the member at the defaults, and each instruction that reads a parameter
answers with that parameter's value. -/
theorem everyParameterChoiceHasItsMachine : Obligations.EveryParameterChoiceHasItsMachine := by
  refine ⟨⟨fun _ => rfl, execIn_params, stepIn_params, legalParams_params, rfl, rfl, rfl, rfl, by decide⟩,
    fun P s => ⟨rfl, rfl, fun p k hp => ?_, fun p e hp => ?_, fun _ => rfl, fun _ => rfl,
      fun p e he => execIn_interpret_ok he s, fun p e he => execIn_interpret_error he s, fun _ => rfl,
      fun data => ?_, fun len data => ?_, fun chunk hc => ?_, rfl, fun i hi => execIn_eq_exec hi s⟩⟩
  · simp [execIn, execParseIn, hp, answerOr, answerCodec]
  · simp [execIn, execParseIn, hp, answerOr, answerCodec]
  · exact congrArg Host.Outcome.next (deliver_eq_publish _ s)
  · exact congrArg Host.Outcome.next (deliver_eq_publish _ s)
  · obtain ⟨b, bs, rfl⟩ := List.exists_cons_of_ne_nil hc
    rfl

/-! ### A step that looks at the next input -/

/-- R6: whatever the decoder and the meanings, the input that is looked at is decoded and run, or refused. -/
theorem runsTheNextInput_stepWith (dec : Input → Except DecodeError Instr)
    (run : Instr → State → Host.Outcome State Fault Refusal) :
    runsTheNextInput (stepWith dec run) dec run := by
  intro s x rest hi hport hlook
  have hmove : nextMove s = .input x rest := by
    rw [nextMove_arrival hi hlook, arrival, if_neg hport]
  exact ⟨fun i hd => by simp [stepWith, hmove, hd], fun e hd => by simp [stepWith, hmove, hd]⟩

/-- Settles O58: `step` and `stepIn` are `stepWith` at their decoders and meanings. -/
theorem stepRunsTheDecodedInstruction : Obligations.StepRunsTheDecodedInstruction :=
  ⟨runsTheNextInput_stepWith decode exec, fun P => runsTheNextInput_stepWith (decodeIn P) (execIn P)⟩

end Sys2Proof.Machine
end

section
/-! Host requests: how a step takes one, what it asks of the link, its one result; and what writes the session, the
transmitter and the wait (O47, O51, O53, O59). -/

namespace Sys2Proof.Machine

open Claims

/-! ### A step that takes a waiting request, or is reset -/

/-- The oldest ready request is taken when no input goes before the waiting ones (R32; log 5, log 6). -/
theorem nextMove_take_oldest {s : State} {a b : List Request} {r : Request} (hheld : s.held = a ++ r :: b)
    (ha : ∀ q ∈ a, ready s q = false) (hr : ready s r = true)
    (hx : ∀ x rest, s.inputs = x :: rest → x.beforeHeld = false) : nextMove s = .take r (a ++ b) := by
  unfold nextMove
  rw [hheld, firstReady_first ha hr]
  cases hi : s.inputs with
  | nil => rfl
  | cons x rest => simp [hx x rest hi]

theorem takesWaitingAndReset_stepWith (dec : Input → Except DecodeError Instr)
    (run : Instr → State → Host.Outcome State Fault Refusal) : takesWaitingAndReset (stepWith dec run) := by
  refine fun s => ⟨fun hi hn => ?_, fun a r b hheld ha hr hx => ?_, fun x rest hi hp hlook => ?_⟩
  · have hmove : nextMove s = .idle := by rw [nextMove, firstReady_none hn, hi]; rfl
    simp [stepWith, hmove]
  · simp [stepWith, nextMove_take_oldest hheld ha hr hx]
  · have hmove : nextMove s = .reset rest := by rw [nextMove_arrival hi hlook, arrival, if_pos hp]
    simp [stepWith, hmove, applyReset]

/-- Settles O59: `step` and `stepIn` are `stepWith`, whose move is reset, a waiting request or none whatever the
decoder. -/
theorem stepTakesWaitingRequestsAndReset : Obligations.StepTakesWaitingRequestsAndReset :=
  ⟨takesWaitingAndReset_stepWith decode exec,
    fun P => takesWaitingAndReset_stepWith (decodeIn P) (execIn P)⟩

/-! ### What a tick and a write answer leave unchanged -/

/-- R228: a tick writes the wait and the result port only. -/
theorem countTick_frame (s : State) :
    countTick s = { s with aw := (countTick s).aw, results := (countTick s).results } := by
  rcases countTick_cases s with ⟨-, h⟩ | ⟨_, _, -, -, h⟩ | ⟨_, _, -, -, h⟩ <;> rw [h]

/-- R226: a write completion writes the transmitter and the result port only. -/
theorem execWriteDone_frame {s t : State} (h : execWriteDone s = .next t) :
    t = { s with tx := t.tx, results := t.results } := by
  rcases execWriteDone_cases s with ⟨-, he⟩ | ⟨-, he⟩ | ⟨-, he⟩ <;> rw [he] at h <;> cases h <;> rfl

/-- R227: a write error writes the transmitter, the wait and the result port only. -/
theorem execWriteError_frame {s t : State} (h : execWriteError s = .next t) :
    t = { s with tx := t.tx, aw := t.aw, results := t.results } := by
  rcases execWriteError_cases s with ⟨-, he⟩ | ⟨-, he⟩ | ⟨-, he⟩ <;> rw [he] at h <;> cases h
  · rfl
  · ext1 <;> simp

/-! ### Requests of the link -/

/-- R222 to R225: taking a ready request asks the link at most once, and a write is begun only with an idle
transmitter (R221). (`take_cases` does not bound the number of requests, so the split is by request.) -/
theorem take_asksLinkOnce {r : Request} {s : State} (hr : ready s r = true) : asksLinkOnce s (take r s) := by
  cases r with
  | openLink cfg a =>
    cases hs : s.sess with
    | opened => exact .inl (by simp [take, takeOpen, hs])
    | closed => cases a <;> exact .inr ⟨.openLink cfg, by simp [take, takeOpen, hs]⟩
  | closeLink a =>
    cases hs : s.sess with
    | closed => exact .inl (by simp [take, takeClose, hs])
    | opened => cases a <;> exact .inr ⟨.closeLink, by simp [take, takeClose, hs]⟩
  | send bs =>
    have htx : s.tx = .idle := by simpa [ready] using hr
    cases hs : s.sess with
    | closed => exact .inl (by simp [take, takeSend, hs])
    | opened => exact .inr ⟨.write bs, by simp [take, takeSend, hs, htx]⟩
  | sendAwait bs l =>
    have htx : s.tx = .idle ∧ s.aw = .idle := by simpa [ready] using hr
    cases hs : s.sess with
    | closed => exact .inl (by simp [take, takeSendAwait, hs])
    | opened => exact .inr ⟨.write bs, by simp [take, takeSendAwait, hs, htx]⟩

theorem execIn_asksLinkOnce {P : Params} {i : Instr} {s t : State} (h : execIn P i s = .next t) :
    asksLinkOnce s t := by
  rcases execIn_next h with ⟨r, -, rfl⟩ | ⟨v, rfl⟩ | ⟨e, rfl, -⟩ | ⟨c, -, rfl⟩ | ⟨-, rfl⟩ | ⟨r, rfl, -⟩ |
    ⟨-, -, ht⟩ | ⟨-, -, ht⟩ | ⟨-, rfl⟩
  · cases hr : ready s r with
    | true => rw [present_ready hr]; exact take_asksLinkOnce hr
    | false => rw [present_held hr]; exact .inl rfl
  · exact .inl rfl
  · exact .inl (deliver_link s e)
  · obtain ⟨-, -, hlink, -⟩ := receive_sameOutside P c s
    exact .inl hlink
  · obtain ⟨-, -, hlink, -⟩ := extract_sameOutside P s
    exact .inl hlink
  · exact .inl (settle_link s r)
  · exact .inl (by rw [execWriteDone_frame ht])
  · exact .inl (by rw [execWriteError_frame ht])
  · exact .inl (by rw [countTick_frame s])

theorem exec_asksLinkOnce {i : Instr} {s t : State} (h : exec i s = .next t) : asksLinkOnce s t :=
  execIn_asksLinkOnce (P := params) (by rwa [execIn_params])

/-- The ready condition reads the transmitter and the wait only (R221). -/
theorem ready_congr {s t : State} (htx : t.tx = s.tx) (haw : t.aw = s.aw) (r : Request) :
    ready t r = ready s r := by
  cases r <;> simp [ready, htx, haw]

theorem step_asksLinkOnce {s t : State} (hm : ∀ rest, nextMove s ≠ .reset rest) (h : step s = .next t) :
    asksLinkOnce s t := by
  rcases stepWith_next h with ⟨-, rfl⟩ | ⟨rest, hr, -⟩ | ⟨r, waiting, hr, rfl⟩ | ⟨x, rest, i, -, -, ht⟩
  · exact .inl rfl
  · exact absurd hr (hm rest)
  · exact take_asksLinkOnce (s := { s with held := waiting })
      ((ready_congr rfl rfl r).trans (nextMove_take hr).1)
  · exact exec_asksLinkOnce (s := { s with inputs := rest }) ht

/-- Settles O53: only taking a request asks the link, and a write is ready only with an idle transmitter. -/
theorem linkWritesNeverOverlap : Obligations.LinkWritesNeverOverlap :=
  ⟨fun _ _ _ => exec_asksLinkOnce, fun _ _ => take_asksLinkOnce, fun _ _ => step_asksLinkOnce⟩

/-! ### Results given and results owed -/

/-- R37, R238: the results given so far plus those still owed. -/
def resultsDue (s : State) : Nat := s.results.length + owed s

theorem take_resultsDue {r : Request} {s : State} (hr : ready s r = true) :
    resultsDue (take r s) = resultsDue s + 1 := by
  rcases take_cases r s with ⟨_, _, _, ht, -⟩ | ⟨_, -, -, ht⟩ | ⟨-, -, ht⟩ | ⟨_, rfl, -, ht⟩
    | ⟨bs, l, rfl, -, ht⟩ <;> rw [ht]
  · simp [resultsDue, owed]; omega
  · simp [resultsDue, owed]; omega
  · simp [resultsDue, owed]; omega
  · have htx : s.tx = .idle := by simpa [ready] using hr
    simp [resultsDue, owed, htx]; omega
  · have htx : s.tx = .idle ∧ s.aw = .idle := by simpa [ready] using hr
    simp [resultsDue, owed, htx]

theorem resultsDue_execWriteDone {s t : State} (h : execWriteDone s = .next t) :
    resultsDue t = resultsDue s := by
  rcases execWriteDone_cases s with ⟨-, he⟩ | ⟨htx, he⟩ | ⟨htx, he⟩ <;> rw [he] at h <;> cases h
  · simp [resultsDue, owed, htx]; omega
  · simp [resultsDue, owed, htx]

theorem resultsDue_execWriteError {s t : State} (h : execWriteError s = .next t) :
    resultsDue t = resultsDue s := by
  rcases execWriteError_cases s with ⟨-, he⟩ | ⟨htx, he⟩ | ⟨htx, he⟩ <;> rw [he] at h <;> cases h
  · simp [resultsDue, owed, htx]; omega
  · exact (settle_owed _ _).trans (by simp [resultsDue, owed, htx])

theorem resultsDue_countTick (s : State) : resultsDue (countTick s) = resultsDue s := by
  rcases countTick_cases s with ⟨-, h⟩ | ⟨_, _, ha, -, h⟩ | ⟨_, _, ha, -, h⟩ <;> rw [h]
  · simp [resultsDue, owed, ha]
  · simp [resultsDue, owed, ha]; omega

theorem resultsDue_extract (P : Params) (s : State) : resultsDue (extract P s) = resultsDue s :=
  extract_induct (C := fun t => resultsDue t = resultsDue s)
    (fun _ _ _ h _ => (deliver_owed _ _).trans h) (fun _ h => h) s rfl

theorem resultsDue_receive (P : Params) (chunk : Bytes) (s : State) :
    resultsDue (receive P chunk s) = resultsDue s :=
  receive_induct (C := fun t => resultsDue t = resultsDue s) (fun _ _ h => h)
    (fun _ _ _ h _ => (deliver_owed _ _).trans h) (fun _ h => h) chunk s rfl

/-- R238: whatever is no host request keeps results given plus results owed. -/
theorem resultsDue_execIn {P : Params} {i : Instr} {s t : State} (hi : requestOf i = none)
    (h : execIn P i s = .next t) : resultsDue t = resultsDue s := by
  rcases execIn_next h with ⟨r, hr, -⟩ | ⟨v, rfl⟩ | ⟨e, rfl, -⟩ | ⟨c, -, rfl⟩ | ⟨-, rfl⟩ | ⟨r, rfl, -⟩ |
    ⟨-, -, ht⟩ | ⟨-, -, ht⟩ | ⟨-, rfl⟩
  · simp [hi] at hr
  · rfl
  · exact deliver_owed e s
  · exact resultsDue_receive P c s
  · exact resultsDue_extract P s
  · exact settle_owed r s
  · exact resultsDue_execWriteDone ht
  · exact resultsDue_execWriteError ht
  · exact resultsDue_countTick s

/-- A request instruction presents its request on the request port (R32). -/
theorem exec_of_requestOf {i : Instr} {r : Request} (h : requestOf i = some r) (s : State) :
    exec i s = .next (present r s) := by
  cases i <;> cases h <;> rfl

/-- Settles O47: taking gives a result or begins to owe one, and every other operation only turns a result owed
into one given. -/
theorem everyRequestGetsExactlyOneResult : Obligations.EveryRequestGetsExactlyOneResult :=
  ⟨fun _ _ => take_resultsDue, fun _ _ s hr => exec_of_requestOf hr s,
    fun i s _ hi h => resultsDue_execIn (P := params) hi (by rwa [execIn_params])⟩

/-! ### What writes the session, the transmitter and the wait -/

/-- The instruction that presents a request on the request port. -/
def instrOf : Request → Instr
  | .openLink cfg a => .openLink cfg a
  | .closeLink a => .closeLink a
  | .send bs => .send bs
  | .sendAwait bs l => .sendAwait bs l

theorem eq_instrOf {i : Instr} {r : Request} (h : requestOf i = some r) : i = instrOf r := by
  cases i <;> cases h <;> rfl

/-- R222 to R225: of the session, the transmitter and the wait, OPEN and CLOSE write the first, SEND the second,
SEND_AWAIT the last two. -/
theorem present_fsm (r : Request) (s : State) :
    ((present r s).sess = s.sess ∨ (∃ cfg a, r = .openLink cfg a) ∨ ∃ a, r = .closeLink a) ∧
    ((present r s).tx = s.tx ∨ (∃ bs, r = .send bs) ∨ ∃ bs l, r = .sendAwait bs l) ∧
    ((present r s).aw = s.aw ∨ ∃ bs l, r = .sendAwait bs l) := by
  cases hr : ready s r with
  | false => rw [present_held hr]; exact ⟨.inl rfl, .inl rfl, .inl rfl⟩
  | true =>
    rw [present_ready hr]
    rcases take_cases r s with ⟨_, _, _, ht, -⟩ | ⟨cfg, rfl, -, ht⟩ | ⟨rfl, -, ht⟩ | ⟨bs, rfl, -, ht⟩
      | ⟨bs, l, rfl, -, ht⟩ <;> rw [ht]
    · exact ⟨.inl rfl, .inl rfl, .inl rfl⟩
    · exact ⟨.inr (.inl ⟨cfg, .ok, rfl⟩), .inl rfl, .inl rfl⟩
    · exact ⟨.inr (.inr ⟨.ok, rfl⟩), .inl rfl, .inl rfl⟩
    · exact ⟨.inl rfl, .inr (.inl ⟨bs, rfl⟩), .inl rfl⟩
    · exact ⟨.inl rfl, .inr (.inr ⟨bs, l, rfl⟩), .inr ⟨bs, l, rfl⟩⟩

/-- The event that an instruction delivers by itself, not by framing received bytes (R189 to R195; log 7). -/
def eventOf (P : Params) : Instr → Option Event
  | .ack _ => some .ack
  | .nak data => some (nakEvent P data)
  | .deviceTypeReply data => some (deviceTypeEvent 0x12#8 0x11#8 data)
  | .statusReply _ data => some (statusEvent P data)
  | .timecodeReply04 len data => some (timecodeEvent (senseReturnHeader len) 0x04#8 data)
  | .timecodeReply06 len data => some (timecodeEvent (senseReturnHeader len) 0x06#8 data)
  | .timecodeReply08 len data => some (timecodeEvent (senseReturnHeader len) 0x08#8 data)
  | .timecodeReply10 len data => some (timecodeEvent (senseReturnHeader len) 0x10#8 data)
  | .timecodeReply11 len data => some (timecodeEvent (senseReturnHeader len) 0x11#8 data)
  | .timecodeReply14 len data => some (timecodeEvent (senseReturnHeader len) 0x14#8 data)
  | .timecodeReply16 len data => some (timecodeEvent (senseReturnHeader len) 0x16#8 data)
  | .timecodeReply31 len data => some (timecodeEvent (senseReturnHeader len) 0x31#8 data)
  | .rawReply hdr cmd2 data => some (.raw hdr cmd2 data)
  | .deliver e => some e
  | _ => none

theorem execIn_of_eventOf {P : Params} {i : Instr} {e : Event} (h : eventOf P i = some e) (s : State) :
    execIn P i s = .next (deliver e s) := by
  cases i <;> cases h <;> rfl

theorem present_events (r : Request) (s : State) : (present r s).events = s.events := by
  cases hr : ready s r with
  | false => rw [present_held hr, hold_events]
  | true =>
    rw [present_ready hr]
    rcases take_cases r s with ⟨_, _, _, ht, -⟩ | ⟨_, -, -, ht⟩ | ⟨-, -, ht⟩ | ⟨_, -, -, ht⟩
      | ⟨_, _, -, -, ht⟩ <;> rw [ht]

@[simp] theorem answerOr_events {α : Type} (f : α → CodecValue) (r : Except CodecError α) (s : State) :
    (answerOr f r s).events = s.events := by
  cases r <;> rfl

/-- R33: besides the instructions of `eventOf` only framing writes the event port. -/
theorem execIn_events {P : Params} {i : Instr} {s t : State} (he : eventOf P i = none) (hrx : ∀ c, i ≠ .rx c)
    (hex : i ≠ .extract) (h : execIn P i s = .next t) : t.events = s.events := by
  cases i
  case rx c => exact absurd rfl (hrx c)
  case extract => exact absurd rfl hex
  case ack | nak | deviceTypeReply | statusReply | timecodeReply04 | timecodeReply06 | timecodeReply08
    | timecodeReply10 | timecodeReply11 | timecodeReply14 | timecodeReply16 | timecodeReply31 | rawReply
    | deliver => cases he
  case openLink | closeLink | send | sendAwait => cases h; exact present_events _ s
  case arbiterAck | arbiterNak => cases h; exact settle_events s _
  case tick => cases h; rw [countTick_frame s]
  case writeDone => rw [execWriteDone_frame h]
  case writeError => rw [execWriteError_frame h]
  case interpret p =>
    cases hp : interpret P p with
    | ok e => rw [execIn_interpret_ok hp] at h; cases h; rfl
    | error e => rw [execIn_interpret_error hp] at h; cases h; rfl
  case csum | bcdPack | bcdUnpack | clamp99 | tcEncode | nakDecode | statusDecode | statusSenseByte
    | frontMatch => cases h; rfl
  all_goals
    cases h
    exact answerOr_events _ _ s

/-- R188, R195: what an instruction delivers is its event, unless it frames received bytes. -/
theorem eventOf_of_execIn_deliver {P : Params} {i : Instr} {e : Event} {s : State}
    (h : execIn P i s = .next (deliver e s)) : eventOf P i = some e ∨ (∃ c, i = .rx c) ∨ i = .extract := by
  cases he : eventOf P i with
  | some e' =>
    have hd : deliver e' s = deliver e s := Host.Outcome.next.inj ((execIn_of_eventOf he s).symm.trans h)
    have hev := congrArg State.events hd
    simp only [deliver_events, List.append_cancel_left_eq, List.cons.injEq, and_true] at hev
    exact .inl (congrArg some hev)
  | none =>
    by_contra hn
    simp only [reduceCtorEq, false_or, not_or, not_exists] at hn
    simpa using execIn_events he hn.1 hn.2 h

@[simp] theorem settling_deviceTypeEvent (hdr cmd2 : Byte) (data : Bytes) :
    settling (deviceTypeEvent hdr cmd2 data) = none := by
  unfold deviceTypeEvent; split <;> rfl

@[simp] theorem settling_timecodeEvent (hdr cmd2 : Byte) (data : Bytes) :
    settling (timecodeEvent hdr cmd2 data) = none := by
  unfold timecodeEvent; repeat' split
  all_goals rfl

/-- R229, R230: the instructions whose own event settles a wait. -/
theorem settling_eventOf {P : Params} {i : Instr} {e : Event} {r : Result} (he : eventOf P i = some e)
    (hr : settling e = some r) :
    (∃ d, i = .ack d) ∨ (∃ d, i = .nak d) ∨ i = .deliver .ack ∨ ∃ rs, i = .deliver (.nak rs) := by
  cases i
  case ack d => exact .inl ⟨d, rfl⟩
  case nak d => exact .inr (.inl ⟨d, rfl⟩)
  case deliver e' =>
    cases he
    cases e with
    | ack => exact .inr (.inr (.inl rfl))
    | nak rs => exact .inr (.inr (.inr ⟨rs, rfl⟩))
    | deviceType | status | timecode | raw => cases hr
  case statusReply | rawReply => cases he; cases hr
  case deviceTypeReply | timecodeReply04 | timecodeReply06 | timecodeReply08 | timecodeReply10
    | timecodeReply11 | timecodeReply14 | timecodeReply16 | timecodeReply31 => cases he; simp at hr
  all_goals cases he

/-- R21, R22: in every block only requests and write answers write the session and the transmitter. -/
theorem execIn_sess_tx {P : Params} {i : Instr} {s t : State} (h : execIn P i s = .next t) :
    (t.sess = s.sess ∨ (∃ cfg a, i = .openLink cfg a) ∨ ∃ a, i = .closeLink a) ∧
    (t.tx = s.tx ∨ (∃ bs, i = .send bs) ∨ (∃ bs l, i = .sendAwait bs l) ∨ i = .writeDone ∨ i = .writeError) := by
  rcases execIn_next h with ⟨r, hr, rfl⟩ | ⟨v, rfl⟩ | ⟨e, rfl, -⟩ | ⟨c, -, rfl⟩ | ⟨-, rfl⟩ | ⟨r, rfl, -⟩ |
    ⟨hi, -, ht⟩ | ⟨hi, -, ht⟩ | ⟨-, rfl⟩
  · obtain ⟨hsess, htx, -⟩ := present_fsm r s
    have hi := eq_instrOf hr
    refine ⟨hsess.imp_right ?_, htx.imp_right ?_⟩
    · rintro (⟨cfg, a, rfl⟩ | ⟨a, rfl⟩)
      · exact .inl ⟨cfg, a, hi⟩
      · exact .inr ⟨a, hi⟩
    · rintro (⟨bs, rfl⟩ | ⟨bs, l, rfl⟩)
      · exact .inl ⟨bs, hi⟩
      · exact .inr (.inl ⟨bs, l, hi⟩)
  · exact ⟨.inl rfl, .inl rfl⟩
  · exact ⟨.inl (deliver_sess s e), .inl (deliver_tx s e)⟩
  · obtain ⟨hsess, htx, -⟩ := receive_sameOutside P c s
    exact ⟨.inl hsess, .inl htx⟩
  · obtain ⟨hsess, htx, -⟩ := extract_sameOutside P s
    exact ⟨.inl hsess, .inl htx⟩
  · exact ⟨.inl (settle_sess s r), .inl (settle_tx s r)⟩
  · exact ⟨.inl (by rw [execWriteDone_frame ht]), .inr (.inr (.inr (.inl hi)))⟩
  · exact ⟨.inl (by rw [execWriteError_frame ht]), .inr (.inr (.inr (.inr hi)))⟩
  · exact ⟨.inl (by rw [countTick_frame s]), .inl (by rw [countTick_frame s])⟩

/-- R24: in every block only arming, a tick, a write error and an ACK or NAK write the wait. -/
theorem execIn_aw {P : Params} {i : Instr} {s t : State} (h : execIn P i s = .next t) :
    t.aw = s.aw ∨ (∃ bs l, i = .sendAwait bs l) ∨ i = .tick ∨ i = .writeError ∨ i = .arbiterAck
      ∨ (∃ rs, i = .arbiterNak rs) ∨ (∃ d, i = .ack d) ∨ (∃ d, i = .nak d) ∨ i = .deliver .ack
      ∨ (∃ rs, i = .deliver (.nak rs)) ∨ (∃ c, i = .rx c) ∨ i = .extract := by
  rcases execIn_next h with ⟨r, hr, rfl⟩ | ⟨v, rfl⟩ | ⟨e, rfl, -⟩ | ⟨c, rfl, -⟩ | ⟨rfl, -⟩ | ⟨_, -, hi⟩ |
    ⟨rfl, -, ht⟩ | ⟨rfl, -⟩ | ⟨rfl, -⟩
  · obtain ⟨-, -, haw | ⟨bs, l, rfl⟩⟩ := present_fsm r s
    · exact .inl haw
    · exact .inr (.inl ⟨bs, l, eq_instrOf hr⟩)
  · exact .inl rfl
  · rcases deliver_aw_results s e with ⟨haw, -⟩ | ⟨_, _, r, -, hr, -⟩
    · exact .inl haw
    · rcases eventOf_of_execIn_deliver h with he | ⟨c, rfl⟩ | rfl
      · rcases settling_eventOf he hr with ⟨d, rfl⟩ | ⟨d, rfl⟩ | rfl | ⟨rs, rfl⟩ <;> simp
      · simp
      · simp
  · simp
  · simp
  · rcases hi with ⟨rfl, -⟩ | ⟨rs, rfl, -⟩ <;> simp
  · exact .inl (by rw [execWriteDone_frame ht])
  · simp
  · simp

/-- Settles O51: whatever else an instruction does, it is one of the shared operations, which keep these elements. -/
theorem onlyTheNamedInputsWriteTheFsm : Obligations.OnlyTheNamedInputsWriteTheFsm := by
  intro i s t h
  rw [← execIn_params] at h
  obtain ⟨hsess, htx⟩ := execIn_sess_tx h
  exact ⟨hsess.resolve_left, htx.resolve_left, (execIn_aw h).resolve_left⟩

end Sys2Proof.Machine
end

section
/-! The machine of R236's last clause beside the block (O49). -/

namespace Sys2Proof.Machine

/-! ### While no wait is armed -/

/-- With no wait armed a delivery arms none and gives no result (R229, R230). -/
theorem deliver_of_idle {e : Event} {s : State} (h : s.aw = .idle) :
    (deliver e s).aw = .idle ∧ (deliver e s).results = s.results := by
  rcases deliver_aw_results s e with ⟨haw, hres⟩ | ⟨_, _, _, haw, -⟩
  · exact ⟨haw.trans h, hres⟩
  · rw [h] at haw; cases haw

/-- The wait is idle and the result port holds `rs`. -/
def QuietWith (rs : List (HostOp × Result)) (s : State) : Prop := s.aw = .idle ∧ s.results = rs

theorem QuietWith.deliver {rs : List (HostOp × Result)} {s : State} (h : QuietWith rs s) (e : Event) :
    QuietWith rs (deliver e s) := by
  obtain ⟨haw, hres⟩ := deliver_of_idle (e := e) h.1
  exact ⟨haw, hres.trans h.2⟩

/-- R236: with no wait armed EXTRACT arms none and gives no result. -/
theorem QuietWith.extract {rs : List (HostOp × Result)} {s : State} (h : QuietWith rs s) (P : Params) :
    QuietWith rs (extract P s) :=
  extract_induct (C := QuietWith rs) (fun s _ l h _ => QuietWith.deliver (s := { s with acc := s.acc.drop l }) h _)
    (fun _ h => h) s h

/-- R236: with no wait armed RX arms none and gives no result. -/
theorem QuietWith.receive {rs : List (HostOp × Result)} {s : State} (h : QuietWith rs s) (P : Params)
    (chunk : Bytes) : QuietWith rs (receive P chunk s) :=
  receive_induct (C := QuietWith rs) (fun _ _ h => h)
    (fun s _ l h _ => QuietWith.deliver (s := { s with acc := s.acc.drop l }) h _) (fun _ h => h) chunk s h

/-! ### The marked loop -/

@[simp] theorem Marked.deliverFront_acc (P : Params) (l : Nat) (m : Marked) :
    (m.deliverFront P l).state.acc = m.state.acc.drop l := by
  unfold Marked.deliverFront
  cases interpret P (m.state.acc.take l) with
  | ok e => by_cases h : m.older = 0 <;> simp [h]
  | error e => rfl

theorem Marked.extractLoop_stop {P : Params} {m : Marked} (h : turn P m.state.acc = .stop) (n : Nat) :
    Marked.extractLoop P n m = m := by
  cases n <;> simp [Marked.extractLoop, h]

/-- As `extractLoop_fuel`: more turns than `ACC` has bytes change nothing (R183). -/
theorem Marked.extractLoop_fuel (P : Params) :
    ∀ j k (m : Marked), m.state.acc.length ≤ j → m.state.acc.length ≤ k →
      Marked.extractLoop P j m = Marked.extractLoop P k m := by
  intro j
  induction j with
  | zero =>
    intro k m hj _
    have h : turn P m.state.acc = .stop := by rw [turn, if_pos (by omega)]
    rw [Marked.extractLoop_stop h, Marked.extractLoop_stop h]
  | succ j ih =>
    intro k m hj hk
    rcases turn_cases P m.state.acc with ⟨ht, -⟩ | ⟨l, ht, -, h3, hl, -⟩ | ⟨ht, h3, -⟩ | ⟨ht, -⟩
    · rw [Marked.extractLoop_stop ht, Marked.extractLoop_stop ht]
    · obtain ⟨k, rfl⟩ : ∃ n, k = n + 1 := ⟨k - 1, by omega⟩
      rw [Marked.extractLoop, Marked.extractLoop, ht]
      exact ih k _ (by simp; omega) (by simp; omega)
    · obtain ⟨k, rfl⟩ : ∃ n, k = n + 1 := ⟨k - 1, by omega⟩
      rw [Marked.extractLoop, Marked.extractLoop, ht]
      exact ih k _ (by simp; omega) (by simp; omega)
    · rw [Marked.extractLoop_stop ht, Marked.extractLoop_stop ht]

theorem Marked.extract_stop {P : Params} {m : Marked} (h : turn P m.state.acc = .stop) : m.extract P = m :=
  Marked.extractLoop_stop h _

theorem turn_of_frontMatch {P : Params} {acc : Bytes} {l : Nat} (h3 : 3 ≤ acc.length)
    (hf : frontMatch P acc 0 = some l) : turn P acc = .accept l := by
  rw [turn, if_neg (by omega), hf]

/-- R183 (b): a match at the front is one delivery, and the loop goes on with what is left. -/
theorem Marked.extract_accept {P : Params} {m : Marked} {l : Nat} (h3 : 3 ≤ m.state.acc.length)
    (hf : frontMatch P m.state.acc 0 = some l) : m.extract P = (m.deliverFront P l).extract P := by
  obtain ⟨n, hn⟩ : ∃ n, m.state.acc.length = n + 1 := ⟨m.state.acc.length - 1, by omega⟩
  have hl : 3 ≤ l := (frontMatch_eq_some.1 hf).1
  rw [Marked.extract, hn, Marked.extractLoop, turn_of_frontMatch h3 hf]
  exact Marked.extractLoop_fuel P _ _ _ (by simp; omega) le_rfl

/-- A packet accepted at the front has an event (R183, R188). -/
theorem interpret_of_frontMatch {P : Params} {acc : Bytes} {l : Nat} (h : frontMatch P acc 0 = some l) :
    ∃ e, interpret P (acc.take l) = .ok e := by
  obtain ⟨k, hk, -⟩ := parse_of_frontMatch h
  exact ⟨classify P k, by rw [interpret, hk]; rfl⟩

/-- R236's last clause: a packet at the front that begins among the marked bytes is announced, and extraction
goes on. -/
theorem Marked.extract_older {P : Params} {m : Marked} {l : Nat} {e : Event} (hn : 0 < m.older)
    (h3 : 3 ≤ m.state.acc.length) (hf : frontMatch P m.state.acc 0 = some l)
    (he : interpret P (m.state.acc.take l) = .ok e) :
    m.extract P
      = Marked.extract P ⟨announce e { m.state with acc := m.state.acc.drop l }, m.older - l⟩ := by
  rw [Marked.extract_accept h3 hf, Marked.deliverFront_older hn he]

/-! ### Without a marked byte -/

/-- With no marked byte an instruction does what it does in the block: framing arms no wait, so no byte becomes
marked by it. -/
theorem Marked.exec_zero (P : Params) (i : Instr) (s : State) :
    Marked.exec P i ⟨s, 0⟩ = Marked.follow ⟨s, 0⟩ (execIn P i s) := by
  cases i
  case rx c =>
    cases c with
    | nil => rfl
    | cons b bs =>
      have hmark : remark ⟨s, 0⟩ (Machine.receive P (b :: bs) s) = 0 :=
        remark_zero s _ fun ⟨h, ht⟩ => ht (QuietWith.receive (rs := s.results) ⟨h, rfl⟩ P _).1
      change Host.Outcome.next (Marked.receive P (b :: bs) ⟨s, 0⟩)
        = .next ⟨Machine.receive P (b :: bs) s, remark ⟨s, 0⟩ (Machine.receive P (b :: bs) s)⟩
      rw [hmark, Marked.receive_zero]
  case extract =>
    have hmark : remark ⟨s, 0⟩ (Machine.extract P s) = 0 :=
      remark_zero s _ fun ⟨h, ht⟩ => ht (QuietWith.extract (rs := s.results) ⟨h, rfl⟩ P).1
    change Host.Outcome.next (Marked.extract P ⟨s, 0⟩)
      = .next ⟨Machine.extract P s, remark ⟨s, 0⟩ (Machine.extract P s)⟩
    rw [hmark, Marked.extract_zero]
  all_goals rfl

/-- The mark does not read the inputs still to come. -/
theorem Marked.follow_withInputs (s : State) (n : Nat) (rest : List Input)
    (o : Host.Outcome State Fault Refusal) :
    Marked.follow ⟨{ s with inputs := rest }, n⟩ o = Marked.follow ⟨s, n⟩ o := by
  cases o <;> rfl

theorem Marked.step_zero (P : Params) (s : State) :
    Marked.step P ⟨s, 0⟩ = Marked.follow ⟨s, 0⟩ (stepIn P s) := by
  cases hm : nextMove s with
  | idle | reset | take => simp [Marked.step, hm]
  | input x rest =>
    cases hd : decodeIn P x with
    | error e => simp [Marked.step, stepIn, stepWith, hm, hd, Marked.follow]
    | ok i => simp [Marked.step, stepIn, stepWith, hm, hd, Marked.exec_zero, Marked.follow_withInputs]

/-! ### Arming, and the spec's ACK begun before it -/

/-- R225: SEND_AWAIT taken with the session open arms the wait and issues the write, whatever `ACC` holds. -/
theorem execIn_sendAwait_open (P : Params) {s : State} (bs : Bytes) (t : Nat) (hs : s.sess = .opened)
    (htx : s.tx = .idle) (haw : s.aw = .idle) :
    execIn P (.sendAwait bs t) s
      = .next { s with tx := .busyAwait, aw := .armed t 0, link := s.link ++ [.write bs] } := by
  have hr : ready s (.sendAwait bs t) = true := by simp [ready, htx, haw]
  change Host.Outcome.next (present (.sendAwait bs t) s) = _
  rw [present_ready hr]
  simp [take, takeSendAwait, hs, askLink]

/-- As `execIn_sendAwait_open`; all of `ACC` becomes marked. -/
theorem Marked.exec_sendAwait_open (P : Params) {s : State} (bs : Bytes) (t n : Nat) (hs : s.sess = .opened)
    (htx : s.tx = .idle) (haw : s.aw = .idle) :
    Marked.exec P (.sendAwait bs t) ⟨s, n⟩
      = .next ⟨{ s with tx := .busyAwait, aw := .armed t 0, link := s.link ++ [.write bs] }, s.acc.length⟩ := by
  change Marked.follow ⟨s, n⟩ (execIn P (.sendAwait bs t) s) = _
  rw [execIn_sendAwait_open P bs t hs htx haw]
  simp [Marked.follow, remark, haw]

theorem frontMatch_ack : frontMatch params [0x10, 0x01, 0x11] 0 = some 3 := by decide

theorem interpret_ack : interpret params [0x10, 0x01, 0x11] = .ok .ack := rfl

/-- R183, R229: the block settles an armed wait with an ACK whose first two bytes it held (log 28). -/
theorem exec_rx_completing_ack {s : State} {l n : Nat} (hs : s.sess = .opened) (hacc : s.acc = [0x10, 0x01])
    (haw : s.aw = .armed l n) :
    exec (.rx [0x11]) s = .next { s with acc := [], aw := .idle, events := s.events ++ [.ack],
                                         results := s.results ++ [(.sendAwait, .acked)] } := by
  have hr : receive params [0x11] s = extract params { s with acc := [0x10, 0x01, 0x11] } := by
    rw [receive_noCap rfl _ hs, hacc]; rfl
  have hd : deliverPacket params [0x10, 0x01, 0x11] { s with acc := [] } = deliver .ack { s with acc := [] } := by
    simp only [deliverPacket, interpret_ack]
  change Host.Outcome.next (receive params [0x11] s) = _
  rw [hr, extract_accept (turn_of_frontMatch (by simp) frontMatch_ack)]
  change Host.Outcome.next (extract params (deliverPacket params [0x10, 0x01, 0x11] { s with acc := [] })) = _
  rw [hd, extract_stop (by rw [deliver_acc]; rfl), deliver_eq_publish]
  simp [Claims.publish, updateCache, settling, haw]

/-- R236's last clause: on that ACK the second machine settles nothing. -/
theorem Marked.exec_rx_completing_ack {s : State} (hs : s.sess = .opened) (hacc : s.acc = [0x10, 0x01]) :
    Marked.exec params (.rx [0x11]) ⟨s, 2⟩
      = .next ⟨{ s with acc := [], events := s.events ++ [.ack] }, 0⟩ := by
  have hr : Marked.receive params [0x11] ⟨s, 2⟩
      = Marked.extract params ⟨{ s with acc := [0x10, 0x01, 0x11] }, 2⟩ := by
    simp [Marked.receive, hs, Marked.receiveByte, params, hacc]
  change Host.Outcome.next (Marked.receive params [0x11] ⟨s, 2⟩) = _
  rw [hr, Marked.extract_older (by simp) (by simp) frontMatch_ack interpret_ack]
  exact congrArg Host.Outcome.next (Marked.extract_stop rfl)

/-- Settles O49: the second machine's framing differs from the block's at a marked byte only, and only arming
marks one. -/
theorem listenBeforeSendInBothReadings : Obligations.ListenBeforeSendInBothReadings := by
  refine ⟨fun P s => ⟨fun bs t n hs htx haw => ?_, fun c t haw h => ?_, fun n l hn h3 hf => ?_, ?_⟩,
    fun s l n hs hacc haw => ?_⟩
  · exact ⟨execIn_sendAwait_open P bs t hs htx haw, Marked.exec_sendAwait_open P bs t n hs htx haw⟩
  · cases c with
    | nil => cases h
    | cons b bs => cases h; exact QuietWith.receive (rs := s.results) ⟨haw, rfl⟩ P _
  · obtain ⟨e, he⟩ := interpret_of_frontMatch hf
    exact ⟨e, announce e { s with acc := s.acc.drop l }, he, by simp, by simp, by simp, by simp,
      congrArg Host.Outcome.next (Marked.extract_older (m := ⟨s, n⟩) hn h3 hf he)⟩
  · exact Marked.step_zero P s
  · exact ⟨exec_rx_completing_ack hs hacc haw, Marked.exec_rx_completing_ack hs hacc⟩

end Sys2Proof.Machine
end

section
/-! What writes the accumulator and the caches (O52). -/

namespace Sys2Proof.Machine

/-- The three caches hold what they held (R25 to R27). -/
def SameCaches (s t : State) : Prop :=
  t.lastStatus = s.lastStatus ∧ t.lastTc = s.lastTc ∧ t.lastDevType = s.lastDevType

/-- R222 to R225, R32: of the requests only OPEN writes the accumulator or a cache. -/
theorem present_acc_caches (r : Request) (s : State) :
    ((present r s).acc = s.acc ∧ SameCaches s (present r s)) ∨ ∃ cfg a, r = .openLink cfg a := by
  cases hr : ready s r with
  | false => rw [present_held hr]; exact .inl ⟨rfl, rfl, rfl, rfl⟩
  | true =>
    rw [present_ready hr]
    rcases take_cases r s with ⟨_, _, _, ht, -⟩ | ⟨cfg, rfl, -, -⟩ | ⟨-, -, ht⟩ | ⟨_, -, -, ht⟩
      | ⟨_, _, -, -, ht⟩
    case inr.inl => exact .inr ⟨cfg, .ok, rfl⟩
    all_goals
      rw [ht]
      exact .inl ⟨rfl, rfl, rfl, rfl⟩

theorem settle_sameCaches (s : State) (r : Result) : SameCaches s (settle r s) :=
  ⟨settle_lastStatus s r, settle_lastTc s r, settle_lastDevType s r⟩

/-- R80, R128: an instruction with an event of its own is DELIVER or a framed reply. -/
theorem deliver_or_framed_of_eventOf {P : Params} {i : Instr} {e : Event} (h : eventOf P i = some e) :
    (∃ e, i = .deliver e) ∨ (encode i).port = .framed := by
  cases i
  case deliver e' => exact .inl ⟨e', rfl⟩
  case ack | nak | deviceTypeReply | statusReply | timecodeReply04 | timecodeReply06 | timecodeReply08
    | timecodeReply10 | timecodeReply11 | timecodeReply14 | timecodeReply16 | timecodeReply31
    | rawReply => exact .inr rfl
  all_goals cases h

/-- R51, R59: in every block only RX, EXTRACT and OPEN write the accumulator. -/
theorem execIn_acc {P : Params} {i : Instr} {s t : State} (h : execIn P i s = .next t) :
    t.acc = s.acc ∨ (∃ c, i = .rx c) ∨ i = .extract ∨ ∃ cfg a, i = .openLink cfg a := by
  rcases execIn_next h with ⟨r, hr, rfl⟩ | ⟨v, rfl⟩ | ⟨e, rfl, -⟩ | ⟨c, hi, -⟩ | ⟨hi, -⟩ | ⟨r, rfl, -⟩ |
    ⟨-, -, ht⟩ | ⟨-, -, ht⟩ | ⟨-, rfl⟩
  · rcases present_acc_caches r s with ⟨hacc, -⟩ | ⟨cfg, a, rfl⟩
    · exact .inl hacc
    · exact .inr (.inr (.inr ⟨cfg, a, eq_instrOf hr⟩))
  · exact .inl rfl
  · exact .inl (deliver_acc s e)
  · exact .inr (.inl ⟨c, hi⟩)
  · exact .inr (.inr (.inl hi))
  · exact .inl (settle_acc s r)
  · exact .inl (by rw [execWriteDone_frame ht])
  · exact .inl (by rw [execWriteError_frame ht])
  · exact .inl (by rw [countTick_frame s])

/-- R196: in every block only RX, EXTRACT, OPEN and an event delivered by itself write a cache. -/
theorem execIn_caches {P : Params} {i : Instr} {s t : State} (h : execIn P i s = .next t) :
    SameCaches s t ∨ (∃ c, i = .rx c) ∨ i = .extract ∨ (∃ cfg a, i = .openLink cfg a)
      ∨ (∃ e, i = .deliver e) ∨ (encode i).port = .framed := by
  rcases execIn_next h with ⟨r, hr, rfl⟩ | ⟨v, rfl⟩ | ⟨e, rfl, -⟩ | ⟨c, hi, -⟩ | ⟨hi, -⟩ | ⟨r, rfl, -⟩ |
    ⟨-, -, ht⟩ | ⟨-, -, ht⟩ | ⟨-, rfl⟩
  · rcases present_acc_caches r s with ⟨-, hcaches⟩ | ⟨cfg, a, rfl⟩
    · exact .inl hcaches
    · exact .inr (.inr (.inr (.inl ⟨cfg, a, eq_instrOf hr⟩)))
  · exact .inl ⟨rfl, rfl, rfl⟩
  · rcases eventOf_of_execIn_deliver h with he | hrx | hex
    · exact .inr (.inr (.inr (.inr (deliver_or_framed_of_eventOf he))))
    · exact .inr (.inl hrx)
    · exact .inr (.inr (.inl hex))
  · exact .inr (.inl ⟨c, hi⟩)
  · exact .inr (.inr (.inl hi))
  · exact .inl (settle_sameCaches s r)
  · rw [execWriteDone_frame ht]; exact .inl ⟨rfl, rfl, rfl⟩
  · rw [execWriteError_frame ht]; exact .inl ⟨rfl, rfl, rfl⟩
  · rw [countTick_frame s]; exact .inl ⟨rfl, rfl, rfl⟩

/-- R198: in every block RX while the session is closed changes nothing. -/
theorem execIn_rx_closed {P : Params} {c : Bytes} {s t : State} (hs : s.sess = .closed)
    (h : execIn P (.rx c) s = .next t) : t = s := by
  cases c with
  | nil => cases h
  | cons b bs => cases h; exact receive_closed hs

/-- Settles O52: of the shared operations only framing and OPEN write `ACC`, and only these and delivering write
a cache. -/
theorem onlyReceivingAndOpenWriteAccumulatorAndCaches :
    Obligations.OnlyReceivingAndOpenWriteAccumulatorAndCaches := by
  intro i s t h
  rw [← execIn_params] at h
  refine ⟨(execIn_acc h).resolve_left, fun hne => (execIn_caches h).resolve_left ?_, fun hs => ?_⟩
  · rintro ⟨hstatus, htc, hdev⟩
    rcases hne with hne | hne | hne
    · exact hne hstatus
    · exact hne htc
    · exact hne hdev
  · rintro ⟨c, rfl⟩
    exact execIn_rx_closed hs h

end Sys2Proof.Machine
end

section
/-! Calls of the codec functions and of the catalogue commands: each answers one value in every state (O19, O4, O5,
O6); and packets and codes written out from the spec (O1). -/

namespace Sys2Proof.Machine

open Claims

/-! ### One value in every state -/

/-- R10, R38: what stands on the codec port for an answer or an error. -/
def codecResult {α : Type} (form : α → CodecValue) : Except CodecError α → CodecValue
  | .ok a => form a
  | .error e => .error e

theorem answerOr_eq_answerCodec {α : Type} (form : α → CodecValue) (r : Except CodecError α) (s : State) :
    answerOr form r s = answerCodec (codecResult form r) s := by
  cases r <;> rfl

/-- R127: whatever the encoder gives the shape of a command is a call of ENCODE with that command's key. -/
theorem exec_of_shape_command {i : Instr} {cmd1 cmd2 : Byte} {data : Bytes}
    (h : shape i = .command cmd1 cmd2 data) (s : State) : exec i s = callCommand cmd1 cmd2 data s := by
  cases i <;> cases h <;> rfl

theorem answers_of_shape_command {i : Instr} {cmd1 cmd2 : Byte} {data : Bytes}
    (h : shape i = .command cmd1 cmd2 data) (s : State) :
    answers i s (codecResult .packet (encodePacket cmd1 cmd2 data)) := by
  rw [answers, exec_of_shape_command h, callCommand, answerOr_eq_answerCodec, answerCodec]

theorem shape_of_command_port {i : Instr} (h : (encode i).port = .command) :
    ∃ cmd1 cmd2 data, shape i = .command cmd1 cmd2 data := by
  rw [encode] at h
  cases hs : shape i with
  | command cmd1 cmd2 data => exact ⟨cmd1, cmd2, data, rfl⟩
  | reply hdr cmd2 data => rw [hs] at h; cases h
  | operation code o => rw [hs] at h; exact absurd h (operationPort_ne code).1

/-- R140: the eleven codec functions; three of them can answer an error. -/
theorem exists_answers_of_codec_port {i : Instr} (h : (encode i).port = .codec) :
    ∃ v, ∀ s, answers i s v := by
  cases i
  case encodePkt | parsePkt | tcDecode =>
    exact ⟨_, fun s => congrArg Host.Outcome.next (answerOr_eq_answerCodec _ _ s)⟩
  case csum | bcdPack | bcdUnpack | clamp99 | tcEncode | nakDecode | statusDecode | statusSenseByte =>
    exact ⟨_, fun _ => rfl⟩
  all_goals cases h

/-- Settles O19: a command is a call of ENCODE, and every codec function answers a function of its operands. -/
theorem codecCallsReadAndWriteNoState : Obligations.CodecCallsReadAndWriteNoState := by
  rintro i (hcodec | hcommand)
  · exact exists_answers_of_codec_port hcodec
  · obtain ⟨_, _, _, hs⟩ := shape_of_command_port hcommand
    exact ⟨_, answers_of_shape_command hs⟩

/-! ### The catalogue's packets -/

/-- R8: adding to a byte before the sum's reduction is adding to the sum. -/
theorem byteOf_add_byteOf (b : Byte) (n m : Nat) : byteOf ((b + byteOf n).toNat + m) = byteOf (b.toNat + n + m) := by
  apply BitVec.eq_of_toNat_eq
  simp [byteOf]

/-- R71, R142: with a class for `cmd1` the header is `cmd1` plus the data length. -/
theorem codecResult_encodePacket {cmd1 : Byte} (hcls : classBits cmd1 = cmd1) (cmd2 : Byte) (data : Bytes) :
    codecResult .packet (encodePacket cmd1 cmd2 data) = commandAnswer cmd1 cmd2 data := by
  by_cases hd : data.length ≤ 15
  · have hhdr : header cmd1 data.length = cmd1 + byteOf data.length := by
      rw [header_eq_add, hcls, Nat.mod_eq_of_lt (by omega)]
    rw [encodePacket, if_neg (by omega), commandAnswer, if_pos hd, codecResult, hhdr, ← written_eq_wirePacket,
      written, Nat.add_assoc, byteOf_add_byteOf, Nat.add_assoc _ cmd2.toNat]
  · rw [encodePacket, if_pos (by omega), commandAnswer, if_neg hd, codecResult]

/-- R127: a row of the catalogue, found by its key, encodes as the catalogue says. -/
theorem encodes_of_commandOf {cmd1 cmd2 : Byte} {command : Bytes → Instr} {wire : Bytes}
    (h : commandOf cmd1 cmd2 = some ⟨cmd1, cmd2, command⟩) (hwire : wirePacket cmd1 cmd2 [] = wire) :
    encodes command cmd1 cmd2 wire := by
  obtain ⟨hcls, hshape, -⟩ := catalogue_row (commandOf_some h).1
  have hany : ∀ data s, answers (command data) s (commandAnswer cmd1 cmd2 data) := fun data s =>
    codecResult_encodePacket hcls cmd2 data ▸ answers_of_shape_command (hshape data) s
  refine ⟨hany, fun s => ?_⟩
  simpa [commandAnswer, written, byteSum, byteOf, ← hwire, ← written_eq_wirePacket] using hany [] s

/-- Settles O4: each is a row of the catalogue. -/
theorem forwardTransportCommandsEncode : Obligations.ForwardTransportCommandsEncode := by
  refine ⟨?_, ?_, ?_, ?_, ?_, ?_, ?_, ?_, ?_, ?_, ?_⟩ <;> exact encodes_of_commandOf rfl rfl

/-- Settles O5: each is a row of the catalogue; R110's example is one with its data. -/
theorem reverseAndEditTransportCommandsEncode : Obligations.ReverseAndEditTransportCommandsEncode := by
  have hcue : encodes .cueUpWithData 0x20 0x31 [0x20, 0x31, 0x51] := encodes_of_commandOf rfl rfl
  refine ⟨?_, ?_, ?_, ?_, ?_, ?_, hcue, ?_, ?_, ?_, hcue.1 [0x04, 0x03, 0x02, 0x01]⟩ <;>
    exact encodes_of_commandOf rfl rfl

/-- Settles O6: each is a row of the catalogue, the two with a data byte and R127's pseudo-instructions too. -/
theorem systemControlAndSenseRequestCommandsEncode :
    Obligations.SystemControlAndSenseRequestCommandsEncode := by
  have htime : encodes .currentTimeSense 0x60 0x0C [0x60, 0x0C, 0x6C] := encodes_of_commandOf rfl rfl
  have hstatus : encodes .statusSense 0x60 0x20 [0x60, 0x20, 0x80] := encodes_of_commandOf rfl rfl
  refine ⟨?_, ?_, ?_, ?_, htime, ?_, ?_, hstatus, fun f => htime.1 [f], fun b => hstatus.1 [b],
    htime.1 [timeSenseByte .ltcTc], hstatus.1 [senseByte 0 5]⟩ <;>
    exact encodes_of_commandOf rfl rfl

/-! ### Inputs written out -/

theorem decode_of_encode_eq {i : Instr} {x : Input} (hw : wellFormed i = true) (hx : encode i = x) :
    decode x = .ok i :=
  hx ▸ decodeIn_encode hw

/-- Settles O1: ten inputs are the encoding of their instruction; of the other two one has a key that no row of the
catalogue has, and one a code of another port. -/
theorem writtenWordsDecodeToTheirInstruction : Obligations.WrittenWordsDecodeToTheirInstruction := by
  refine ⟨?_, ?_, ?_, decodeCommand_unlisted (hdr := 0x41) (cmd2 := 0x05) rfl [0xAA], ?_, ?_, ?_, ?_, ?_, ?_, ?_, rfl⟩ <;>
    exact decode_of_encode_eq rfl rfl

end Sys2Proof.Machine
end

section
/-! The codec functions: the packet and operand formats as numbers, what each function answers (O7 to O18), and the
model's choices where the spec gives none (O20). -/

namespace Sys2Proof.Machine

open Claims

/-! ### The packet format: CSUM, ENCODE and PARSE -/

theorem encodePacket_ok_iff {cmd1 cmd2 : Byte} {data p : Bytes} :
    encodePacket cmd1 cmd2 data = .ok p ↔
      data.length ≤ 15 ∧ p = wirePacket (header cmd1 data.length) cmd2 data := by
  unfold encodePacket
  split
  · next h => simp only [reduceCtorEq, false_iff]; omega
  · next h => simp only [Except.ok.injEq, eq_comm, iff_and_self]; omega

theorem encodePacket_rejects {data : Bytes} (cmd1 cmd2 : Byte) (h : 15 < data.length) :
    encodePacket cmd1 cmd2 data = .error .invalidArgument := if_pos h

theorem parse_of_not_wellFormed {P : Params} {p : Bytes} (h : wellFormedPacket P p = false) :
    parse P p = .error .notAPacket := by
  simp [parse, h]

/-- R142: ENCODE answers the result of the encoder. -/
theorem answers_encodePkt {cmd1 cmd2 : Byte} {data : Bytes} {r : Except CodecError Bytes}
    (h : encodePacket cmd1 cmd2 data = r) (s : State) :
    answers (.encodePkt cmd1 cmd2 data) s (codecResult .packet r) :=
  h ▸ congrArg Host.Outcome.next (answerOr_eq_answerCodec _ _ s)

/-- R143: PARSE answers the result of the parser. -/
theorem answers_parsePkt {p : Bytes} {r : Except CodecError Packet} (h : parse params p = r) (s : State) :
    answers (.parsePkt p) s (codecResult .fields r) :=
  h ▸ congrArg Host.Outcome.next (answerOr_eq_answerCodec _ _ s)

/-- R71 as a number. -/
theorem classBits_toNat (b : Byte) : (classBits b).toNat = b.toNat / 16 * 16 := by
  revert b; decide

/-- R70 as a number: the class nibble above the data length. -/
theorem header_toNat {n : Nat} (cmd1 : Byte) (h : n ≤ 15) :
    (header cmd1 n).toNat = cmd1.toNat / 16 * 16 + n := by
  have hlt := cmd1.isLt
  rw [header_eq_add, BitVec.toNat_add, classBits_toNat, byteOf, BitVec.toNat_ofNat]
  omega

/-- R141: the checksum of a packet's body, its first two bytes written apart. -/
theorem checksum_body_toNat (hdr cmd2 : Byte) (data : Bytes) :
    (checksum (hdr :: cmd2 :: data)).toNat = (hdr.toNat + cmd2.toNat + byteSum data) % 256 := by
  rw [checksum_toNat, byteSum, List.map_cons, List.map_cons, List.sum_cons, List.sum_cons, Nat.add_assoc]

/-- R158: a byte string followed by its own checksum sums to twice that checksum. -/
theorem byteSum_append_checksum (q : Bytes) :
    byteSum (q ++ [checksum q]) % 256 = 2 * (checksum q).toNat % 256 := by
  have hc : (checksum q).toNat = byteSum q % 256 := checksum_toNat q
  have hs : byteSum (q ++ [checksum q]) = byteSum q + (checksum q).toNat := by simp [byteSum]
  omega

/-- Settles O8: the packet is the encoder's wire layout, its header and checksum read as numbers. -/
theorem encodeWritesThePacketOrRejects : Obligations.EncodeWritesThePacketOrRejects := by
  intro cmd1 cmd2 data s
  refine ⟨fun h => ?_, fun h => answers_encodePkt (encodePacket_rejects cmd1 cmd2 h) s⟩
  exact ⟨header cmd1 data.length, _, answers_encodePkt (encodePacket_ok_iff.2 ⟨h, rfl⟩) s,
    header_toNat cmd1 h, checksum_body_toNat _ cmd2 data⟩

/-- R76: a string that is too short, too long or has a wrong last byte is no well-formed packet. -/
theorem not_wellFormed_of_length_or_last {P : Params} {p : Bytes}
    (h : p.length < 3 ∨ P.maxLen < p.length ∨ ∀ q (b : Byte), p = q ++ [b] → b.toNat ≠ byteSum q % 256) :
    wellFormedPacket P p = false := by
  rw [← Bool.not_eq_true]
  intro hw
  obtain ⟨hdr, cmd2, data, rfl, hm⟩ := (wellFormedPacket_iff P p).1 hw
  rw [wirePacket_length] at h
  rcases h with hshort | hlong | hlast
  · omega
  · omega
  · exact hlast _ _ rfl (checksum_toNat _)

/-- Settles O9: a packet written out is the wire layout, and every other string is not well-formed. -/
theorem parseSplitsExactlyTheWellFormedPackets : Obligations.ParseSplitsExactlyTheWellFormedPackets := by
  refine ⟨fun P hdr cmd2 data hm => ?_, fun P p h => ?_, fun p k s h => ?_, fun p e s h => ?_⟩
  · rw [written_eq_wirePacket]
    exact parse_wirePacket P hdr cmd2 data hm
  · exact parse_of_not_wellFormed (not_wellFormed_of_length_or_last h)
  · exact answers_parsePkt h s
  · exact answers_parsePkt h s

/-- Settles O10: PARSE takes the encoder's wire layout apart, and the header keeps the class. The packet
`21 01 22 44` is framed at its third byte, which is the sum of the two before. -/
theorem parseRecoversWhatEncodeWrote : Obligations.ParseRecoversWhatEncodeWrote := by
  refine ⟨fun cmd1 cmd2 data h => ?_, 0x20, 0x01, [0x22], [0x21, 0x01, 0x22, 0x44], 3, rfl, rfl, by decide⟩
  have hm : data.length + 3 ≤ params.maxLen := Nat.add_le_add_right h 3
  exact ⟨_, answers_encodePkt (encodePacket_ok_iff.2 ⟨h, rfl⟩),
    (wellFormedPacket_iff params _).2 ⟨_, _, _, rfl, hm⟩,
    _, answers_parsePkt (parse_wirePacket params _ _ _ hm), classBits_header cmd1 _, rfl, rfl⟩

/-- Settles O11: the wire layout is a body followed by its checksum; `20 01 21` sums to 0x42. -/
theorem encodedPacketEndsInTheChecksumOfTheRest : Obligations.EncodedPacketEndsInTheChecksumOfTheRest := by
  refine ⟨fun cmd1 cmd2 data p h => ?_, 0x20, 0x01, [], [0x20, 0x01, 0x21], rfl, by decide⟩
  obtain ⟨-, rfl⟩ := encodePacket_ok_iff.1 h
  exact ⟨_, _, rfl, rfl, byteSum_append_checksum _⟩

/-- Settles O7: the checksum is a sum, which no reordering changes. -/
theorem checksumIsTheSumModulo256 : Obligations.ChecksumIsTheSumModulo256 := fun bs _ =>
  ⟨checksum bs, rfl, checksum_toNat bs, fun _ hperm => checksum_perm hperm ▸ rfl⟩

/-! ### BCD and the status-sense byte -/

/-- R146: the smaller of the operand and 99. -/
theorem clampTo99_eq_ite (v : Nat) : clampTo99 v = if v ≤ 99 then v else 99 := Nat.min_def

theorem clampTo99_of_le {v : Nat} (h : v ≤ 99) : clampTo99 v = v := Nat.min_eq_left h

/-- R144, R146: a field of the timecode encoder as a number. -/
theorem bcd_clampTo99_toNat (v : Nat) : (bcd (clampTo99 v)).toNat = digits v := bcd_toNat (clampTo99_le v)

/-- R144, R145: unpacking undoes packing. -/
theorem unbcd_bcd {v : Nat} (h : v ≤ 99) : unbcd (bcd v) = v := by
  rw [unbcd_eq, bcd_toNat h]; omega

/-- R155 as a number. -/
theorem senseByte_toNat (start size : Nat) : (senseByte start size).toNat = start % 16 * 16 + size % 16 := by
  have hlow : size % 16 < 2 ^ 4 := Nat.mod_lt _ (by decide)
  have hmask (n : Nat) : n &&& 0xF = n % 16 := Nat.and_two_pow_sub_one_eq_mod n 4
  rw [senseByte, hmask, hmask, ← Nat.shiftLeft_add_eq_or_of_lt hlow, byteOf, BitVec.toNat_ofNat, Nat.shiftLeft_eq]
  omega

/-- Settles O12: each answer is its helper's value, read as a number. -/
theorem bcdHelpersComputeTheirValues : Obligations.BcdHelpersComputeTheirValues := by
  refine ⟨fun v s h => ⟨bcd v, rfl, bcd_toNat h⟩, fun b s => ?_, fun v s => ?_⟩
  · rw [← unbcd_eq]; rfl
  · rw [← clampTo99_eq_ite]; rfl

/-- Settles O18: the two nibbles do not overlap, so OR-ing them is adding them. -/
theorem statusSenseBytePacksLowNibbles : Obligations.StatusSenseBytePacksLowNibbles := fun start size _ =>
  ⟨senseByte start size, rfl, senseByte_toNat start size⟩

/-! ### Timecode -/

/-- R147: the frames byte the encoder writes, as a number. -/
theorem encodeTimecode_f_toNat (tc : TimecodeInput) :
    (encodeTimecode tc).f.toNat =
      (digits tc.frames ||| (if tc.dropFrame then 0x40 else 0)) ||| (if tc.colorFrame then 0x80 else 0) := by
  have hflag (c : Bool) (b : Byte) : (if c then b else 0#8).toNat = if c then b.toNat else 0 := by
    cases c <;> rfl
  simp only [encodeTimecode, BitVec.toNat_or, bcd_clampTo99_toNat, hflag]
  rfl

/-- Settles O13: each byte is its field clamped and packed, and OR of bytes is OR of numbers. -/
theorem timecodeEncodeClampsAndMergesFlags : Obligations.TimecodeEncodeClampsAndMergesFlags := fun tc _ =>
  ⟨encodeTimecode tc, rfl, encodeTimecode_f_toNat tc, bcd_clampTo99_toNat _, bcd_clampTo99_toNat _,
    bcd_clampTo99_toNat _⟩

/-- The fields of a timecode as the encoder's operand. -/
def fieldsOf (tc : Timecode) : TimecodeInput :=
  ⟨tc.hours, tc.minutes, tc.seconds, tc.frames, tc.dropFrame, tc.colorFrame⟩

/-- R149: the validity check answers the timecode whose fields it was given. -/
theorem checkTimecode_ok_iff {t : TimecodeInput} {tc : Timecode} :
    checkTimecode t = .ok tc ↔ t = fieldsOf tc := by
  constructor
  · intro h
    unfold checkTimecode at h
    split at h
    · cases h; rfl
    · cases h
  · rintro rfl
    exact dif_pos ⟨tc.hours.isLt, tc.minutes.isLt, tc.seconds.isLt, tc.frames.isLt⟩

theorem checkTimecode_malformed {t : TimecodeInput} (h : 99 < t.hours ∨ 99 < t.minutes ∨ 99 < t.seconds) :
    checkTimecode t = .error .tcMalformed :=
  dif_neg (by omega)

/-- R148: the six fields of four wire bytes, as numbers and bits. -/
theorem decodeTimecodeFields_eq (w : TimecodeBytes) :
    decodeTimecodeFields w =
      { hours := twoDigits w.h.toNat, minutes := twoDigits w.m.toNat, seconds := twoDigits w.s.toNat,
        frames := twoDigits (w.f.toNat % 64), dropFrame := w.f.toNat.testBit 6,
        colorFrame := w.f.toNat.testBit 7 } := by
  have hframes : unbcd (w.f &&& 0x3F#8) = twoDigits (w.f.toNat % 64) := by
    rw [unbcd_frames, twoDigits]; omega
  have hflags : ∀ b : Byte, ((b &&& 0x40#8) != 0#8) = b.toNat.testBit 6 ∧
      ((b &&& 0x80#8) != 0#8) = b.toNat.testBit 7 := by decide
  obtain ⟨hdrop, hcolor⟩ := hflags w.f
  rw [decodeTimecodeFields, hframes, hdrop, hcolor]
  simp only [unbcd_eq, twoDigits]

/-- R148: TC_DECODE answers the result of the timecode decoder. -/
theorem answers_tcDecode {w : TimecodeBytes} {r : Except CodecError Timecode} (h : decodeTimecode w = r)
    (s : State) : answers (.tcDecode w) s (codecResult .timecode r) :=
  h ▸ congrArg Host.Outcome.next (answerOr_eq_answerCodec _ _ s)

/-- Settles O14: the decoder is the validity check of the six fields. -/
theorem timecodeDecodeGivesFieldsOrMalformed : Obligations.TimecodeDecodeGivesFieldsOrMalformed := by
  intro w s hh mm ss ff
  have hdecode : decodeTimecode w
      = checkTimecode ⟨hh, mm, ss, ff, w.f.toNat.testBit 6, w.f.toNat.testBit 7⟩ :=
    congrArg checkTimecode (decodeTimecodeFields_eq w)
  have hff : ff ≤ 45 := by simp only [ff, twoDigits]; omega
  refine ⟨hff, fun ⟨hh99, mm99, ss99⟩ => ?_, fun h => ?_⟩
  · refine ⟨⟨⟨hh, by omega⟩, ⟨mm, by omega⟩, ⟨ss, by omega⟩, ⟨ff, by omega⟩, _, _⟩, ?_, rfl, rfl, rfl, rfl, rfl, rfl⟩
    exact answers_tcDecode (hdecode.trans (checkTimecode_ok_iff.2 rfl)) s
  · exact answers_tcDecode (hdecode.trans (checkTimecode_malformed h)) s

/-- R157: up to 39 frames the encoder leaves bits 6 and 7 of the frames byte to the flags, and the decoder's masks
separate the three. -/
theorem encodeTimecode_f_separates {tc : TimecodeInput} (h : tc.frames ≤ 39) :
    (encodeTimecode tc).f &&& 0x3F#8 = bcd (clampTo99 tc.frames) ∧
      (((encodeTimecode tc).f &&& 0x40#8) != 0#8) = tc.dropFrame ∧
      (((encodeTimecode tc).f &&& 0x80#8) != 0#8) = tc.colorFrame := by
  have hmasks : ∀ b : Byte, b.toNat < 64 → ∀ df cf : Bool,
      let f := b ||| (if df then 0x40#8 else 0#8) ||| (if cf then 0x80#8 else 0#8)
      f &&& 0x3F#8 = b ∧ ((f &&& 0x40#8) != 0#8) = df ∧ ((f &&& 0x80#8) != 0#8) = cf := by
    decide
  have hsmall : (bcd (clampTo99 tc.frames)).toNat < 64 := by
    rw [bcd_clampTo99_toNat, digits]; omega
  exact hmasks _ hsmall tc.dropFrame tc.colorFrame

/-- R157: a timecode of at most 39 frames is read back from its encoding. -/
theorem decodeTimecodeFields_encodeTimecode {tc : Timecode} (h : tc.frames.val ≤ 39) :
    decodeTimecodeFields (encodeTimecode (fieldsOf tc)) = fieldsOf tc := by
  have hfield (v : Fin 100) : unbcd (bcd (clampTo99 v)) = v := by
    rw [clampTo99_of_le (by omega), unbcd_bcd (by omega)]
  obtain ⟨hframes, hdrop, hcolor⟩ := encodeTimecode_f_separates (tc := fieldsOf tc) h
  rw [decodeTimecodeFields, hframes, hdrop, hcolor]
  simp only [encodeTimecode, fieldsOf, hfield]

/-- R157: from 40 frames on the tens digit reaches bit 6 or 7, and the frames value read back is smaller. -/
theorem decoded_frames_lt {tc : Timecode} (h : 40 ≤ tc.frames.val) (hd : tc.dropFrame = false)
    (hc : tc.colorFrame = false) : (decodeTimecodeFields (encodeTimecode (fieldsOf tc))).frames < tc.frames := by
  have hlt := tc.frames.isLt
  have hf : (encodeTimecode (fieldsOf tc)).f.toNat = digits tc.frames := by
    rw [encodeTimecode_f_toNat]
    simp [fieldsOf, hd, hc]
  rw [decodeTimecodeFields_eq, hf]
  simp only [digits, twoDigits]
  omega

/-- Settles O15: decoding gives a timecode back exactly when its fields are read back. -/
theorem timecodeRoundTripUpTo39Frames : Obligations.TimecodeRoundTripUpTo39Frames := by
  intro hh mm ss ff df cf
  constructor
  · intro h
    exact checkTimecode_ok_iff.2 (decodeTimecodeFields_encodeTimecode (tc := ⟨hh, mm, ss, ff, df, cf⟩) h)
  · intro h hok
    have hlt := decoded_frames_lt (tc := ⟨hh, mm, ss, ff, false, false⟩) h rfl rfl
    exact hlt.ne (congrArg TimecodeInput.frames (checkTimecode_ok_iff.1 hok))

/-! ### NAK reasons and status flags -/

/-- Settles O16: a reason is in the set when its bit meets the byte, in every table. -/
theorem nakDecodeCollectsSignalledReasons : Obligations.NakDecodeCollectsSignalledReasons := by
  have hbit (t : NakTable) (b : Byte) (r : NakReason) :
      nakHas (decodeNak t b) r = b.toNat.testBit (nakBit t r) := by
    rw [nakHas_decodeNak, nakSignalled_eq]
  exact ⟨hbit, fun _ _ => rfl, fun b => hbit params.nakTable b .checksumError⟩

/-- R154: the table holds each flag at its place, and nothing else. -/
theorem mem_statusTable_iff_placeOf {l : StatusLayout} {f : StatusFlag} {p : BitPos} :
    (f, p) ∈ statusTable l ↔ placeOf l f = some p := by
  rw [mem_statusTable]
  cases f <;> simp [placeOf, eq_comm]

/-- R153: places are within the first five bytes. -/
theorem statusBit_take (data : Bytes) (p : BitPos) : statusBit (data.take 5) p = statusBit data p := by
  simp only [statusBit, List.getElem?_take_of_lt p.byte.isLt]

/-- Settles O17: membership goes through the table, whose places never reach past the fifth byte. -/
theorem statusDecodeCollectsSetFlags : Obligations.StatusDecodeCollectsSetFlags := by
  refine ⟨fun l data f => ?_, fun l data => ?_, fun _ _ => rfl⟩
  · simp only [mem_decodeStatus, mem_statusTable_iff_placeOf, statusBit_iff, exists_and_left]
  · simp only [decodeStatus, statusBit_take]

/-! ### The model's choices -/

/-- Log 20: INTERPRET of a string that is no packet answers the error of its PARSE. -/
theorem interpret_of_not_wellFormed {P : Params} {p : Bytes} (h : wellFormedPacket P p = false) :
    interpret P p = .error .notAPacket := by
  rw [interpret, parse_of_not_wellFormed h]; rfl

/-- Settles O20: BCD_PACK answers its helper's value whatever it is, and the other inputs end at the first test of
their meaning. -/
theorem modelsChoicesWhereTheSpecGivesNone : Obligations.ModelsChoicesWhereTheSpecGivesNone := by
  refine ⟨fun v => ⟨bcd v, fun _ => rfl⟩, fun p s h => ?_, fun s => ⟨fun hidle => ⟨?_, ?_⟩, rfl⟩⟩
  · rw [answers, ← execIn_params]
    exact execIn_interpret_error (interpret_of_not_wellFormed h) s
  · simp [exec, execWriteDone, hidle]
  · simp [exec, execWriteError, hidle]

end Sys2Proof.Machine
end

section
/-! The resynchronizer's replies: what DELIVER, the arbiter and each reply row do (O23 to O28). -/

namespace Sys2Proof.Machine

open Claims

/-! ### Delivering an event -/

/-- R195: an event that is no ACK or NAK is only put on the event port. -/
theorem publish_of_not_settling {e : Event} (h : settling e = none) (s : State) :
    publish e s = { s with events := s.events ++ [e] } := by
  simp [publish, h]

/-- R195: DELIVER as the cache and then the event and the arbiter. -/
theorem exec_deliver (e : Event) (s : State) : exec (.deliver e) s = .next (publish e (updateCache e s)) :=
  congrArg Host.Outcome.next (deliver_eq_publish e s)

/-- Settles O23: each form of event updates its own cache. -/
theorem deliverWritesCacheThenEventThenArbiter : Obligations.DeliverWritesCacheThenEventThenArbiter := fun s =>
  ⟨exec_deliver .ack s, fun rs => exec_deliver (.nak rs) s, fun v => exec_deliver (.deviceType v) s,
    fun fs => exec_deliver (.status fs) s, fun tc => exec_deliver (.timecode tc) s,
    fun h c d => exec_deliver (.raw h c d) s⟩

/-- Settles O28: both arbiter operations are `settle`, which DELIVER runs after the event. -/
theorem arbiterSettlesAnArmedWaitOnly : Obligations.ArbiterSettlesAnArmedWaitOnly := fun _ =>
  ⟨rfl, fun _ => rfl,
    fun haw => ⟨congrArg Host.Outcome.next (settle_idle _ haw),
      fun _ => congrArg Host.Outcome.next (settle_idle _ haw)⟩,
    fun _ _ haw => ⟨congrArg Host.Outcome.next (settle_armed _ haw),
      fun _ => congrArg Host.Outcome.next (settle_armed _ haw)⟩⟩

/-! ### The reply rows -/

/-- R188 to R195: a row delivers its event. -/
theorem exec_of_eventOf {i : Instr} {e : Event} (h : eventOf params i = some e) (s : State) :
    exec i s = .next (publish e (updateCache e s)) := by
  rw [← execIn_params, execIn_of_eventOf h, deliver_eq_publish]

/-- Settles O24: an empty NAK is read as the reason byte `0x00`, which signals nothing. -/
theorem ackAndNakRepliesArePublishedAndSettle : Obligations.AckAndNakRepliesArePublishedAndSettle := by
  refine fun data s => ⟨exec_of_eventOf (i := .ack data) rfl s, ?_, ?_⟩
  · rintro rfl
    have he : eventOf params (.nak []) = some (.nak {}) := by simp [eventOf, nakEvent]
    exact exec_of_eventOf he s
  · rintro r rest rfl
    exact exec_of_eventOf (i := .nak (r :: rest)) rfl s

/-- Settles O25: none of these events settles a wait. -/
theorem deviceTypeStatusAndRawRepliesUpdateTheirCache :
    Obligations.DeviceTypeStatusAndRawRepliesUpdateTheirCache := by
  refine fun s => ⟨fun d0 d1 rest => ⟨_, deviceTypeValue_toNat d0 d1, ?_⟩, fun data hlen => ?_,
    fun len data => ?_, fun hdr cmd2 data => ?_⟩
  · rw [exec_of_eventOf (e := .deviceType (deviceTypeValue d0 d1)) rfl, publish_of_not_settling rfl]; rfl
  · have he : eventOf params (.deviceTypeReply data) = some (.raw 0x12 0x11 data) := by
      match data, hlen with
      | [], _ => rfl
      | [_], _ => rfl
    rw [exec_of_eventOf he, publish_of_not_settling rfl]; rfl
  · rw [exec_of_eventOf (e := statusEvent params data) rfl, publish_of_not_settling rfl]; rfl
  · rw [exec_of_eventOf (e := .raw hdr cmd2 data) rfl, publish_of_not_settling rfl]; rfl

/-! ### The timecode rows -/

theorem senseReturnHeader_eq_byteOf (len : BitVec 4) : senseReturnHeader len = byteOf (0x70 + len.toNat) := by
  revert len; decide

/-- R193: what a timecode row does by its event, whose cache is `LAST_TC` and which settles no wait. -/
theorem exec_timecodeRow {i : Instr} {cmd2 : Byte} {len : BitVec 4} {data : Bytes}
    (hi : eventOf params i = some (timecodeEvent (senseReturnHeader len) cmd2 data)) (s : State) :
    (∀ f sec m h rest tc, data = f :: sec :: m :: h :: rest → decodeTimecode ⟨f, sec, m, h⟩ = .ok tc →
      exec i s = .next { s with lastTc := some tc, events := s.events ++ [.timecode tc] }) ∧
    (timecodeEvent (senseReturnHeader len) cmd2 data = .raw (senseReturnHeader len) cmd2 data →
      exec i s = .next { s with events := s.events ++ [.raw (byteOf (0x70 + len.toNat)) cmd2 data] }) := by
  constructor
  · rintro f sec m h rest tc rfl hd
    have he : eventOf params i = some (.timecode tc) := by simp [hi, timecodeEvent, timecodeBytes?, hd]
    rw [exec_of_eventOf he, publish_of_not_settling rfl]; rfl
  · intro hraw
    rw [exec_of_eventOf (hi.trans (congrArg some hraw)), publish_of_not_settling rfl,
      senseReturnHeader_eq_byteOf]; rfl

/-- Settles O26: the eight rows differ in `cmd2` only. -/
theorem timecodeRepliesUpdateTheTimecodeCache : Obligations.TimecodeRepliesUpdateTheTimecodeCache := by
  intro row hrow len data s
  have hi : eventOf params (row.1 len data) = some (timecodeEvent (senseReturnHeader len) row.2 data) := by
    simp only [List.mem_cons, List.not_mem_nil, or_false] at hrow
    rcases hrow with rfl | rfl | rfl | rfl | rfl | rfl | rfl | rfl <;> rfl
  obtain ⟨htc, hraw⟩ := exec_timecodeRow hi s
  match data with
  | [] | [_] | [_, _] | [_, _, _] => exact hraw rfl
  | f :: sec :: m :: h :: rest =>
    cases hd : decodeTimecode ⟨f, sec, m, h⟩ with
    | ok tc => simpa [hd] using htc f sec m h rest tc rfl hd
    | error e => simpa [hd] using hraw (by simp [timecodeEvent, timecodeBytes?, hd])

/-! ### INTERPRET and the reply rows -/

theorem interpret_wirePacket {P : Params} {data : Bytes} (hdr cmd2 : Byte) (hm : data.length + 3 ≤ P.maxLen) :
    interpret P (wirePacket hdr cmd2 data) = .ok (classify P ⟨hdr, classBits hdr, cmd2, data⟩) := by
  rw [interpret, parse_wirePacket P _ _ _ hm]; rfl

/-- R188: a packet of class `0x7` comes under the last three rows. -/
theorem classify_senseReturn {hdr : Byte} (hc : classBits hdr = 0x70#8) (P : Params) (cmd2 : Byte) (data : Bytes) :
    classify P ⟨hdr, classBits hdr, cmd2, data⟩ =
      if cmd2 = 0x20#8 then statusEvent P data
      else if cmd2 ∈ timecodeReplyCmd2 then timecodeEvent hdr cmd2 data
      else .raw hdr cmd2 data := by
  have h10 : hdr ≠ 0x10#8 := by rintro rfl; cases hc
  have h12 : hdr ≠ 0x12#8 := by rintro rfl; cases hc
  simp [classify, hc, h10, h12]

/-- R80, R188: the row that a packet's key selects has the event that INTERPRET gives the packet. -/
theorem eventOf_replyOf (P : Params) (hdr cmd2 : Byte) (data : Bytes) :
    eventOf P (replyOf hdr cmd2 data) = some (classify P ⟨hdr, classBits hdr, cmd2, data⟩) := by
  by_cases hc : classBits hdr = 0x70#8
  · rw [classify_senseReturn hc, ← senseReturnHeader_lengthNibble hdr hc, Laws.EncodedForm.replyOf_senseReturn]
    split
    case h_10 h20 h04 h06 h08 h10 h11 h14 h16 h31 =>
      have hne : cmd2 ≠ 0x20#8 := fun h => h20 (congrArg BitVec.toNat h)
      have hnot : cmd2 ∉ timecodeReplyCmd2 := by
        simp only [timecodeReplyCmd2, List.mem_cons, List.not_mem_nil, or_false]
        rintro (rfl | rfl | rfl | rfl | rfl | rfl | rfl | rfl) <;> contradiction
      rw [if_neg hne, if_neg hnot]; rfl
    all_goals
      next h =>
        have hcmd2 : BitVec.ofNat 8 cmd2.toNat = cmd2 := by simp
        rw [h] at hcmd2
        subst hcmd2
        simp [eventOf, timecodeReplyCmd2]
  · simp only [replyOf, classify, hc, if_false, false_and]
    split_ifs with hAck hNak hDev
    · rfl
    · rfl
    · obtain ⟨rfl, rfl⟩ := hDev; rfl
    · rfl

/-- Settles O27: a framed instruction is the row its packet's key selects. -/
theorem replyRowIsInterpretThenDeliver : Obligations.ReplyRowIsInterpretThenDeliver := by
  intro i hw hport
  have hdec : decodeReply params (encode i).bytes = .ok i := by
    have h := decodeIn_encode (P := params) hw
    rwa [decodeIn, hport] at h
  obtain ⟨hdr, cmd2, data, hb, hm, hi⟩ := decodeReply_ok hdec
  refine ⟨_, hb ▸ interpret_wirePacket hdr cmd2 hm, fun s => ?_⟩
  rw [← execIn_params, execIn_of_eventOf (hi ▸ eventOf_replyOf params hdr cmd2 data)]

end Sys2Proof.Machine
end

section
/-! Framing and the extraction loop: the smallest match, the loop's steps, what receiving delivers (O21, O29 to O32,
O37, O38). -/

namespace Sys2Proof.Machine

open Claims

/-! ### FRONT_MATCH -/

theorem checksum_eq_iff (b : Byte) (bs : Bytes) : b = checksum bs ↔ b.toNat = byteSum bs % 256 := by
  rw [← BitVec.toNat_inj, checksum_toNat, byteSum]

/-- R184: a candidate that ends in its checksum, in the model's terms. -/
theorem candidateMatches_iff {P : Params} {a : Bytes} {o l : Nat} :
    candidateMatches P a o l ↔
      3 ≤ l ∧ l ≤ P.maxLen ∧ l ≤ a.length - o ∧ matchesAt (a.drop o) l = true := by
  have hlast (h3 : 3 ≤ l) :
      (∃ b : Byte, a[o + l - 1]? = some b ∧ b.toNat = byteSum ((a.drop o).take (l - 1)) % 256) ↔
        matchesAt (a.drop o) l = true := by
    simp only [← checksum_eq_iff, matchesAt_iff, List.getElem?_drop, exists_eq_right,
      Nat.add_sub_assoc (show 1 ≤ l by omega)]
  unfold candidateMatches
  constructor
  · rintro ⟨h3, hmax, hlen, hb⟩
    exact ⟨h3, hmax, by omega, (hlast h3).1 hb⟩
  · rintro ⟨h3, hmax, hlen, hm⟩
    exact ⟨h3, hmax, by omega, (hlast h3).2 hm⟩

/-- Settles O21: the search goes up through the candidate lengths. -/
theorem frontMatchIsTheSmallestMatchingLength : Obligations.FrontMatchIsTheSmallestMatchingLength := by
  refine ⟨fun P a o l => ?_, fun P a o => ?_, fun _ _ => rfl⟩
  · rw [frontMatch_eq_some]
    constructor
    · rintro ⟨h3, hmax, hlen, hm, hleast⟩
      refine ⟨candidateMatches_iff.2 ⟨h3, hmax, hlen, hm⟩, fun k hk => ?_⟩
      obtain ⟨hk3, -, -, hkm⟩ := candidateMatches_iff.1 hk
      by_contra hlt
      simp [hleast k hk3 (by omega)] at hkm
    · rintro ⟨hl, hleast⟩
      obtain ⟨h3, hmax, hlen, hm⟩ := candidateMatches_iff.1 hl
      refine ⟨h3, hmax, hlen, hm, fun k hk3 hkl => ?_⟩
      by_contra hkm
      have := hleast k (candidateMatches_iff.2 ⟨hk3, by omega, by omega, by simpa using hkm⟩)
      omega
  · simp only [frontMatch_eq_none, candidateMatches_iff, not_and, Bool.not_eq_true]

/-! ### Steps of the loop -/

/-- R185: a later match is a match at one of the offsets the search tries. -/
theorem laterMatch_iff {P : Params} {a : Bytes} :
    laterMatch P a = true ↔ ∃ o, 1 ≤ o ∧ o ≤ a.length - 3 ∧ frontMatch P a o ≠ none := by
  simp only [laterMatch, List.any_eq_true, List.mem_range'_1, Option.isSome_iff_ne_none, and_assoc,
    Nat.add_comm 1, Nat.lt_succ_iff]

theorem turn_short {P : Params} {acc : Bytes} (h : acc.length < 3) : turn P acc = .stop := if_pos h

/-- R183 (c), (d). -/
theorem turn_drop {P : Params} {acc : Bytes} (h3 : 3 ≤ acc.length) (hf : frontMatch P acc 0 = none)
    (h : P.maxLen ≤ acc.length ∨ laterMatch P acc = true) : turn P acc = .drop := by
  rcases turn_cases P acc with ⟨-, _⟩ | ⟨l, -, hl, -⟩ | ⟨ht, -⟩ | ⟨-, -, -, hlen, hlater⟩
  · omega
  · simp [hf] at hl
  · exact ht
  · simp [hlater] at h; omega

/-- R183 (e). -/
theorem turn_stop {P : Params} {acc : Bytes} (hf : frontMatch P acc 0 = none) (hlen : acc.length < P.maxLen)
    (hlater : laterMatch P acc = false) : turn P acc = .stop := by
  rcases turn_cases P acc with ⟨ht, -⟩ | ⟨l, -, hl, -⟩ | ⟨-, -, -, h⟩ | ⟨ht, -⟩
  · exact ht
  · simp [hf] at hl
  · simp [hlater] at h; omega
  · exact ht

/-- R183 (b): a match at the front is removed, interpreted and delivered, and extraction goes on. -/
theorem extract_frontMatch {P : Params} {s : State} {l : Nat} {e : Event} (hf : frontMatch P s.acc 0 = some l)
    (he : interpret P (s.acc.take l) = .ok e) :
    extract P s = extract P (deliver e { s with acc := s.acc.drop l }) := by
  obtain ⟨h3, -, hlen, -⟩ := frontMatch_eq_some.1 hf
  rw [extract_accept (turn_of_frontMatch (by omega) hf), deliverPacket, he]

theorem exec_rx {chunk : Bytes} (hc : chunk ≠ []) (s : State) :
    exec (.rx chunk) s = .next (receive params chunk s) := by
  obtain ⟨b, bs, rfl⟩ := List.exists_cons_of_ne_nil hc
  rfl

theorem exec_rx_open {chunk : Bytes} (hc : chunk ≠ []) {s : State} (ho : s.sess = .opened) :
    exec (.rx chunk) s = .next (extract params { s with acc := s.acc ++ chunk }) := by
  rw [exec_rx hc, receive_noCap rfl _ ho]

/-- Settles O31: the loop's turns are (a) to (e), and the closed machine has no capacity. -/
theorem extractFollowsTheLoopOfTheSpec : Obligations.ExtractFollowsTheLoopOfTheSpec := by
  refine ⟨fun P s => ⟨fun h => ?_, fun l _ hf => ?_, fun h3 hf hor => ?_, fun _ hf hlen hnone => ?_⟩,
    fun _ => rfl, fun chunk s hc ho => exec_rx_open hc ho⟩
  · exact extract_stop (turn_short h)
  · obtain ⟨e, he⟩ := interpret_of_frontMatch hf
    exact ⟨e, he, extract_frontMatch hf he⟩
  · exact extract_drop (turn_drop h3 hf (hor.imp_right laterMatch_iff.2))
  · refine extract_stop (turn_stop hf hlen ?_)
    rw [← Bool.not_eq_true, laterMatch_iff]
    rintro ⟨o, h1, ho, hne⟩
    exact hne (hnone o h1 ho)

/-- Settles O29. -/
theorem receiveWhileClosedChangesNothing : Obligations.ReceiveWhileClosedChangesNothing := by
  intro chunk s hc hs
  rw [exec_rx hc, receive_closed hs]

/-- R187: receiving ends with an extraction, or changes nothing. -/
theorem receive_acc_length {P : Params} (hP : 3 ≤ P.maxLen) (chunk : Bytes) {s : State}
    (h : s.acc.length ≤ P.maxLen - 1) : (receive P chunk s).acc.length ≤ P.maxLen - 1 := by
  cases hs : s.sess with
  | closed => rwa [receive_closed hs]
  | opened =>
    rw [receive, hs]
    exact Nat.le_sub_one_of_lt (extract_acc_length hP _)

/-- Settles O32. -/
theorem accumulatorStaysBelowMaxLen : Obligations.AccumulatorStaysBelowMaxLen := by
  intro P hP s
  have h3 := legalParams_maxLen hP
  exact ⟨Nat.le_sub_one_of_lt (extract_acc_length h3 s), fun chunk => receive_acc_length h3 chunk⟩

/-! ### What extraction and receiving deliver -/

theorem deliversOnly_refl (s : State) : deliversOnly s s := by
  refine ⟨[], by simp, rfl, rfl, rfl, ?_, rfl, rfl, rfl, rfl, rfl, rfl⟩
  cases s.aw <;> exact ⟨rfl, rfl⟩

@[simp] theorem latest_append_singleton {α : Type} (kind : Event → Option α) (es : List Event) (e : Event)
    (old : Option α) : latest kind (es ++ [e]) old = (kind e).or (latest kind es old) := by
  simp [latest]

/-- R229, R230: an ACK or NAK settles an armed wait. -/
theorem deliver_settling {s : State} {l n : Nat} {e : Event} {r : Result} (haw : s.aw = .armed l n)
    (hr : settling e = some r) :
    (deliver e s).aw = .idle ∧ (deliver e s).results = s.results ++ [(.sendAwait, r)] := by
  rw [deliver_eq_publish]
  simp [publish, haw, hr]

/-- R195: no other event reaches the arbiter. -/
theorem deliver_not_settling {e : Event} (hr : settling e = none) (s : State) :
    (deliver e s).aw = s.aw ∧ (deliver e s).results = s.results := by
  rw [deliver_eq_publish, publish_of_not_settling hr]
  simp

/-- R195, R196, R232: a run of deliveries and one more. -/
theorem deliversOnly_deliver {s t : State} (h : deliversOnly s t) (e : Event) : deliversOnly s (deliver e t) := by
  obtain ⟨es, hev, hst, htc, hdt, haw, hsess, htx, hlink, hcodec, hheld, hin⟩ := h
  refine ⟨es ++ [e], by simp [hev], ?_, ?_, ?_, ?_, by simpa, by simpa, by simpa, by simpa, by simpa, by simpa⟩
  · rw [deliver_lastStatus, latest_append_singleton, ← hst]; cases e <;> rfl
  · rw [deliver_lastTc, latest_append_singleton, ← htc]; cases e <;> rfl
  · rw [deliver_lastDevType, latest_append_singleton, ← hdt]; cases e <;> rfl
  · simp only [List.findSome?_append, List.findSome?_singleton]
    cases hs : s.aw with
    | idle =>
      obtain ⟨hidle, hres⟩ : t.aw = .idle ∧ t.results = s.results := by simpa [hs] using haw
      simpa [hres] using deliver_of_idle (e := e) hidle
    | armed l n =>
      cases hes : es.findSome? settling with
      | some r =>
        obtain ⟨hidle, hres⟩ : t.aw = .idle ∧ t.results = s.results ++ [(.sendAwait, r)] := by
          simpa [hs, hes] using haw
        simpa [hres] using deliver_of_idle (e := e) hidle
      | none =>
        obtain ⟨harmed, hres⟩ : t.aw = .armed l n ∧ t.results = s.results := by simpa [hs, hes] using haw
        cases hr : settling e with
        | some r => simpa [hres] using deliver_settling harmed hr
        | none => simpa [harmed, hres] using deliver_not_settling hr t

/-- R180: extraction delivers events and writes `ACC`, which `deliversOnly` leaves aside. -/
theorem deliversOnly_extract (P : Params) (s : State) : deliversOnly s (extract P s) :=
  extract_induct (C := deliversOnly s)
    (fun t _ l h _ => deliversOnly_deliver (t := { t with acc := t.acc.drop l }) h _) (fun _ h => h) s
    (deliversOnly_refl s)

theorem deliversOnly_receive (P : Params) (chunk : Bytes) (s : State) : deliversOnly s (receive P chunk s) :=
  receive_induct (C := deliversOnly s) (fun _ _ h => h)
    (fun t _ l h _ => deliversOnly_deliver (t := { t with acc := t.acc.drop l }) h _) (fun _ h => h) chunk s
    (deliversOnly_refl s)

/-- Settles O30: each turn of the loop delivers one event or drops a byte. -/
theorem receiveAndExtractOnlyDeliverEvents : Obligations.ReceiveAndExtractOnlyDeliverEvents :=
  ⟨fun chunk s hc => ⟨_, exec_rx hc s, deliversOnly_receive params chunk s⟩,
    fun s => ⟨_, rfl, deliversOnly_extract params s⟩⟩

/-- Settles O37: extraction begins with the front match, and deliveries only append events. -/
theorem shortestMatchIsFramedFirst : Obligations.ShortestMatchIsFramedFirst := by
  refine ⟨fun P chunk s l hcap ho hacc hf => ?_, fun s ho hacc => ?_⟩
  · obtain ⟨e, he⟩ := interpret_of_frontMatch hf
    obtain ⟨es, hev, -⟩ := deliversOnly_extract P (deliver e { s with acc := chunk.drop l })
    refine ⟨e, es, he, ?_⟩
    rw [receive_noCap hcap _ ho, hacc, List.nil_append,
      extract_frontMatch (s := { s with acc := chunk }) hf he, hev]
    simp
  · have hf : frontMatch params [0x21, 0x01, 0x22, 0x44] 0 = some 3 := by decide
    have he : interpret params [0x21, 0x01, 0x22] = .ok (.raw 0x21 0x01 []) := by decide
    rw [exec_rx_open (by simp) ho, hacc, List.nil_append, extract_frontMatch hf he,
      extract_stop (turn_short (by simp)), deliver_eq_publish, publish_of_not_settling rfl]
    rfl

theorem frontMatch_ack_nak : frontMatch params [0x10, 0x01, 0x11, 0x10, 0x12, 0x04, 0x26] 0 = some 3 := by decide

theorem frontMatch_nak : frontMatch params [0x10, 0x12, 0x04, 0x26] 0 = some 4 := by decide

theorem interpret_nak : interpret params [0x10, 0x12, 0x04, 0x26] = .ok (.nak { checksumError := true }) := by decide

/-- Settles O38: the ACK settles the wait, so the NAK finds none armed. -/
theorem ackThenNakInOneChunkSettlesAsAcked : Obligations.AckThenNakInOneChunkSettlesAsAcked := by
  intro s l n ho hacc haw
  rw [exec_rx_open (by simp) ho, hacc, List.nil_append, extract_frontMatch frontMatch_ack_nak interpret_ack]
  have hack : deliver .ack { s with acc := [0x10, 0x12, 0x04, 0x26] } =
      { s with acc := [0x10, 0x12, 0x04, 0x26], aw := .idle, events := s.events ++ [.ack],
               results := s.results ++ [(.sendAwait, .acked)] } := by
    rw [deliver_eq_publish]; simp [publish, updateCache, haw, settling]
  change Host.Outcome.next (extract params (deliver .ack { s with acc := [0x10, 0x12, 0x04, 0x26] })) = _
  rw [hack, extract_frontMatch frontMatch_nak interpret_nak, extract_stop (turn_short (by simp)), deliver_eq_publish]
  simp [publish, updateCache]

end Sys2Proof.Machine
end

section
/-! A full accumulator as a chunk boundary (O33), and the source's algorithm on a whole buffer (O34). -/

namespace Sys2Proof.Machine

open Claims

/-! ### A full accumulator -/

/-- R181: an open session receives a chunk byte by byte and then extracts. -/
theorem receive_opened {P : Params} {s : State} (ho : s.sess = .opened) (chunk : Bytes) :
    receive P chunk s = extract P (chunk.foldl (receiveByte P) s) := by
  simp [receive, ho]

/-- R182: a byte received by a full accumulator. -/
theorem receiveByte_full {P : Params} {s : State} (h : P.accCap = some s.acc.length) (b : Byte) :
    receiveByte P s b = { extract P s with acc := (extract P s).acc ++ [b] } := by
  simp [receiveByte, h]

/-- R181: a byte received by any other. -/
theorem receiveByte_notFull {P : Params} {s : State} (h : P.accCap ≠ some s.acc.length) (b : Byte) :
    receiveByte P s b = { s with acc := s.acc ++ [b] } := by
  simp [receiveByte, h]

section

variable {P : Params} {cap : Nat} (h3 : 3 ≤ P.maxLen) (hle : P.maxLen ≤ cap) (hcap : P.accCap = some cap)
include h3 hle hcap

theorem receiveByte_acc_length {s : State} (h : s.acc.length ≤ cap) (b : Byte) :
    (receiveByte P s b).acc.length ≤ cap := by
  by_cases hfull : s.acc.length = cap
  · have := extract_acc_length h3 s
    rw [receiveByte_full (by rw [hcap, hfull])]
    simp only [List.length_append, List.length_singleton]
    omega
  · rw [receiveByte_notFull (by simpa [hcap, eq_comm] using hfull)]
    simp only [List.length_append, List.length_singleton]
    omega

/-- R182: no byte overflows. -/
theorem foldl_receiveByte_acc_length (bs : Bytes) {s : State} (h : s.acc.length ≤ cap) :
    (bs.foldl (receiveByte P) s).acc.length ≤ cap := by
  induction bs generalizing s with
  | nil => exact h
  | cons b bs ih => exact ih (receiveByte_acc_length h3 hle hcap h b)

/-- R182: `q` is the part of the chunk appended since the last extraction; a full accumulator ends it, and the rest
of the chunk goes on from what extraction leaves. -/
theorem exists_split_foldl_receiveByte (bs : Bytes) :
    ∀ (q : Bytes) (s : State), q ++ bs ≠ [] → s.sess = .opened → s.acc.length < P.maxLen →
      s.acc.length + q.length ≤ cap →
      ∃ chunks : List Bytes, (∀ c ∈ chunks, c ≠ []) ∧ chunks.flatten = q ++ bs ∧
        extract P (bs.foldl (receiveByte P) { s with acc := s.acc ++ q })
          = receiveAll { P with accCap := none } chunks s := by
  have hreceive (q : Bytes) {s : State} (ho : s.sess = .opened) :
      receive { P with accCap := none } q s = extract P { s with acc := s.acc ++ q } := by
    rw [receive_noCap rfl q ho, extract_setCap]
  induction bs with
  | nil =>
    intro q s hne ho _ _
    exact ⟨[q], by simpa using hne, by simp, (hreceive q ho).symm⟩
  | cons b bs ih =>
    intro q s _ ho hacc hlen
    by_cases hfull : s.acc.length + q.length = cap
    · have hq : q ≠ [] := by rintro rfl; simp at hfull; omega
      have hshort := extract_acc_length h3 { s with acc := s.acc ++ q }
      obtain ⟨chunks, hne, hflat, heq⟩ := ih [b] (extract P { s with acc := s.acc ++ q }) (by simp)
        (by simpa using ho) hshort (by simp; omega)
      refine ⟨q :: chunks, by simpa [hq] using hne, by simp [hflat], ?_⟩
      rw [List.foldl_cons, receiveByte_full (by simp [hcap, ← hfull]), heq, receiveAll, receiveAll,
        List.foldl_cons, hreceive q ho]
    · obtain ⟨chunks, hne, hflat, heq⟩ := ih (q ++ [b]) s (by simp) ho hacc (by simp; omega)
      refine ⟨chunks, hne, by simp [hflat], ?_⟩
      rw [List.foldl_cons, receiveByte_notFull (by simpa [hcap, eq_comm] using hfull), ← heq, List.append_assoc]

end

/-- R182: in a block of legal parameters a chunk acts as some split of it with no capacity. -/
theorem exists_split_receive {P : Params} (hP : legalParams P = true) {s : State} (ho : s.sess = .opened)
    (hacc : s.acc.length < P.maxLen) {chunk : Bytes} (hc : chunk ≠ []) :
    ∃ chunks : List Bytes, (∀ c ∈ chunks, c ≠ []) ∧ chunks.flatten = chunk ∧
      receive P chunk s = receiveAll { P with accCap := none } chunks s := by
  cases hcap : P.accCap with
  | none =>
    have hP' : { P with accCap := none } = P := by rw [← hcap]
    exact ⟨[chunk], by simpa using hc, by simp, by rw [hP']; rfl⟩
  | some cap =>
    have hle := legalParams_accCap hP hcap
    rw [receive_opened ho]
    simpa using exists_split_foldl_receiveByte (legalParams_maxLen hP) hle hcap chunk [] s hc ho hacc
      (by simp; omega)

/-- Settles O33. -/
theorem fullAccumulatorActsAsAChunkBoundary : Obligations.FullAccumulatorActsAsAChunkBoundary := by
  intro P cap hP hcap s ho hacc
  have h3 := legalParams_maxLen hP
  have hle := legalParams_accCap hP hcap
  exact ⟨fun bs => foldl_receiveByte_acc_length h3 hle hcap bs (by omega),
    fun chunk hc => exists_split_receive hP ho (by omega) hc⟩

/-! ### The source's algorithm -/

/-- Two states that differ only in `ACC`. -/
def SameButAcc (s t : State) : Prop := { s with acc := [] } = { t with acc := [] }

theorem SameButAcc.events {s t : State} (h : SameButAcc s t) : s.events = t.events := by
  simpa using congrArg State.events h

theorem literalTurn_short {P : Params} {acc : Bytes} (h : acc.length < 3) : literalTurn P acc = .stop := if_pos h

theorem literalTurn_accept {P : Params} {acc : Bytes} {l : Nat} (h3 : 3 ≤ acc.length)
    (hf : frontMatch P acc 0 = some l) : literalTurn P acc = .accept l := by
  rw [literalTurn, if_neg (by omega), hf]

theorem literalTurn_drop {P : Params} {acc : Bytes} (h3 : 3 ≤ acc.length) (hf : frontMatch P acc 0 = none) :
    literalTurn P acc = .drop := by
  rw [literalTurn, if_neg (by omega), hf]

theorem literalLoop_stop {P : Params} {s : State} (h : literalTurn P s.acc = .stop) (n : Nat) :
    literalLoop P n s = s := by
  cases n <;> simp [literalLoop, h]

/-- R199 (1): a buffer with no match anywhere is dropped down to two bytes, and no event is emitted. -/
theorem literalLoop_noMatch {P : Params} (n : Nat) (s : State) (hn : s.acc.length ≤ n)
    (hnone : ∀ o, frontMatch P s.acc o = none) :
    SameButAcc s (literalLoop P n s) ∧ (literalLoop P n s).acc.length ≤ 2 := by
  induction n generalizing s with
  | zero => exact ⟨rfl, by rw [literalLoop]; omega⟩
  | succ n ih =>
    by_cases hshort : s.acc.length < 3
    · rw [literalLoop_stop (literalTurn_short hshort)]
      exact ⟨rfl, by omega⟩
    · rw [literalLoop, literalTurn_drop (by omega) (hnone 0)]
      refine ih { s with acc := s.acc.drop 1 } (by simp; omega) fun o => ?_
      rw [← frontMatch_drop, List.drop_drop, frontMatch_drop]
      exact hnone _

/-- R199 (1): the two algorithms take the same turns until the block's stops with no match left. -/
theorem extract_literalLoop (P : Params) (n : Nat) (s : State) (hn : s.acc.length ≤ n) :
    SameButAcc (extract P s) (literalLoop P n s) ∧ (literalLoop P n s).acc.length ≤ 2 := by
  induction n generalizing s with
  | zero =>
    rw [extract_stop (turn_short (by omega))]
    exact ⟨rfl, by rw [literalLoop]; omega⟩
  | succ n ih =>
    rcases turn_cases P s.acc with ⟨ht, hlen⟩ | ⟨l, ht, hf, h3, hlen, -⟩ | ⟨ht, h3, hf, -⟩
      | ⟨ht, h3, hf, -, hlater⟩
    · rw [extract_stop ht, literalLoop_stop (literalTurn_short hlen)]
      exact ⟨rfl, by omega⟩
    · rw [extract_accept ht, literalLoop, literalTurn_accept (by omega) hf]
      exact ih _ (by simp; omega)
    · rw [extract_drop ht, literalLoop, literalTurn_drop h3 hf]
      exact ih _ (by simp; omega)
    · rw [extract_stop ht]
      refine literalLoop_noMatch _ s hn fun o => ?_
      rcases Nat.eq_zero_or_pos o with rfl | ho
      · exact hf
      · exact laterMatch_eq_false.1 hlater o ho

/-- Settles O34: a string within the capacity is appended whole. -/
theorem sameEventsAsTheSourceAlgorithm : Obligations.SameEventsAsTheSourceAlgorithm := by
  intro P _ bs s ho hacc hcap
  have hreceive : receive P bs s = extract P { s with acc := bs } := by
    rw [receive_opened ho, foldl_receiveByte bs s, hacc, List.nil_append]
    intro k hk hfull
    have := hcap _ hfull
    rw [hacc, List.length_nil] at this
    omega
  obtain ⟨hsame, hshort⟩ := extract_literalLoop P bs.length { s with acc := bs } le_rfl
  rw [← hreceive] at hsame
  exact ⟨hsame.events, hsame, hshort⟩

end Sys2Proof.Machine
end

section
/-! A packet that holds the only match of its stream, however the stream is split (O35, O36). -/

namespace Sys2Proof.Machine

open Claims

/-! ### A stream with one match, at its end -/

/-- R199: the stream ends in `p`, and no part of it of 3 bytes or more but that one ends in its checksum. -/
def OnlyMatch (p w : Bytes) : Prop :=
  p <:+ w ∧ ∀ o l, 3 ≤ l → o + l ≤ w.length → matchesAt (w.drop o) l = true → o + l = w.length ∧ l = p.length

theorem onlyMatch_of_clean {p : Bytes} (h : Clean p) : OnlyMatch p p := by
  refine ⟨List.suffix_rfl, fun o l h3 hlen hm => ?_⟩
  by_cases hl : l < p.length
  · simp [h o l h3 hlen hl] at hm
  · omega

/-- R199 (3): one more byte before the stream, with which nothing matches at the front. -/
theorem OnlyMatch.cons {p w : Bytes} (h : OnlyMatch p w) {b : Byte}
    (hb : ∀ l, 3 ≤ l → matchesAt (b :: w) l = false) : OnlyMatch p (b :: w) := by
  obtain ⟨hsuf, hm⟩ := h
  refine ⟨hsuf.trans (List.suffix_cons b w), fun o l h3 hlen hmatch => ?_⟩
  cases o with
  | zero => simp [hb l h3] at hmatch
  | succ o =>
    have := hm o l h3 (by simp at hlen; omega) hmatch
    simp; omega

/-- R183 (c), (d): the stream without its first byte. -/
theorem OnlyMatch.tail {p w : Bytes} {b : Byte} (h : OnlyMatch p (b :: w)) (hlen : p.length ≤ w.length) :
    OnlyMatch p w := by
  obtain ⟨hsuf, hm⟩ := h
  refine ⟨?_, fun o l h3 hol hmatch => ?_⟩
  · rcases List.suffix_cons_iff.1 hsuf with rfl | hsuf
    · simp at hlen
    · exact hsuf
  · have := hm (o + 1) l h3 (by simp; omega) hmatch
    simp at this; omega

/-- Whether a part matches does not depend on the bytes after it (R184). -/
theorem matchesAt_append {a : Bytes} {l : Nat} (h3 : 3 ≤ l) (hl : l ≤ a.length) (b : Bytes) :
    matchesAt (a ++ b) l = matchesAt a l := by
  rw [matchesAt, matchesAt, List.getElem?_append_left (by omega), List.take_append_of_le_length (by omega)]

/-- While the last bytes of the stream are still to come nothing matches. -/
theorem OnlyMatch.frontMatch_none {p a rest : Bytes} (h : OnlyMatch p (a ++ rest)) (hrest : rest ≠ [])
    (P : Params) (o : Nat) : frontMatch P a o = none := by
  refine frontMatch_eq_none.2 fun l h3 _ hl => ?_
  have hpos := List.length_pos_iff.2 hrest
  by_contra hm
  have hmatch : matchesAt ((a ++ rest).drop o) l = true := by
    rw [List.drop_append_of_le_length (by omega), matchesAt_append h3 (by simp; omega)]
    simpa using hm
  obtain ⟨hend, -⟩ := h.2 o l h3 (by simp; omega) hmatch
  simp at hend
  omega

/-- Before the end of the stream extraction only drops bytes that come before the packet. -/
theorem OnlyMatch.extract_partial {P : Params} {p rest : Bytes} (hp : p.length ≤ P.maxLen) (hrest : rest ≠ []) :
    ∀ (a : Bytes) (s : State), OnlyMatch p (a ++ rest) →
      ∃ a', extract P { s with acc := a } = { s with acc := a' } ∧ OnlyMatch p (a' ++ rest) := by
  intro a
  induction a with
  | nil => exact fun s h => ⟨[], extract_stop (turn_short (by simp)), h⟩
  | cons b a ih =>
    intro s h
    have hnone := h.frontMatch_none hrest P
    rcases turn_cases P (b :: a) with ⟨ht, -⟩ | ⟨l, -, hf, -⟩ | ⟨ht, -, -, hfull | hlater⟩ | ⟨ht, -⟩
    · exact ⟨b :: a, extract_stop ht, h⟩
    · simp [hnone] at hf
    · have hpos := List.length_pos_iff.2 hrest
      obtain ⟨a', he, h'⟩ := ih s (OnlyMatch.tail h (by simp at hfull ⊢; omega))
      exact ⟨a', (extract_drop ht).trans he, h'⟩
    · simp [laterMatch_eq_false.2 fun o _ => hnone o] at hlater
    · exact ⟨b :: a, extract_stop ht, h⟩

/-- R76 in the terms of R184: a well-formed packet is a match of its own length. -/
theorem matchesAt_of_wellFormed {P : Params} {p : Bytes} (hw : wellFormedPacket P p = true) :
    3 ≤ p.length ∧ p.length ≤ P.maxLen ∧ matchesAt p p.length = true := by
  obtain ⟨h3, hmax, hlast⟩ := of_decide_eq_true hw
  exact ⟨h3, hmax, matchesAt_iff.2 hlast⟩

/-- The packet at the end of a stream is found at its offset. -/
theorem frontMatch_suffix {P : Params} {p w : Bytes} (hw : wellFormedPacket P p = true) (hsuf : p <:+ w) :
    frontMatch P w (w.length - p.length) ≠ none := by
  obtain ⟨h3, hmax, hm⟩ := matchesAt_of_wellFormed hw
  have hle := hsuf.length_le
  intro hnone
  have := frontMatch_eq_none.1 hnone p.length h3 hmax (by omega)
  rw [← List.suffix_iff_eq_drop.1 hsuf, hm] at this
  cases this

/-- At the front of the stream only the packet itself matches. -/
theorem OnlyMatch.frontMatch_eq {P : Params} {p w : Bytes} (h : OnlyMatch p w) (hw : wellFormedPacket P p = true) :
    frontMatch P w 0 = if w = p then some p.length else none := by
  obtain ⟨hsuf, honly⟩ := h
  obtain ⟨h3, hmax, hm⟩ := matchesAt_of_wellFormed hw
  split_ifs with hwp
  · subst hwp
    refine frontMatch_eq_some.2 ⟨h3, hmax, le_rfl, hm, fun k hk3 hk => ?_⟩
    by_contra hmk
    have := honly 0 k hk3 (by omega) (by simpa using hmk)
    omega
  · refine frontMatch_eq_none.2 fun l hl3 _ hl => ?_
    by_contra hml
    obtain ⟨hend, hlp⟩ := honly 0 l hl3 (by omega) (by simpa using hml)
    exact hwp (hsuf.eq_of_length (by omega)).symm

/-- At the end of the stream extraction drops what comes before the packet and delivers the packet. -/
theorem OnlyMatch.extract_whole {P : Params} {p : Bytes} {e : Event} (hw : wellFormedPacket P p = true)
    (he : interpret P p = .ok e) (w : Bytes) (s : State) (h : OnlyMatch p w) :
    extract P { s with acc := w } = deliver e { s with acc := [] } := by
  obtain ⟨h3, -, -⟩ := matchesAt_of_wellFormed hw
  induction w with
  | nil => simp [List.suffix_nil.1 h.1] at h3
  | cons b w ih =>
    have hfront := h.frontMatch_eq hw
    by_cases hwp : b :: w = p
    · subst hwp
      rw [if_pos rfl] at hfront
      rw [extract_frontMatch (s := { s with acc := b :: w }) hfront (by simpa using he), List.drop_length,
        extract_stop (turn_short (by simp))]
    · rw [if_neg hwp] at hfront
      have hlen : p.length ≤ w.length :=
        ((List.suffix_cons_iff.1 h.1).resolve_left (Ne.symm hwp)).length_le
      have hlater : laterMatch P (b :: w) = true :=
        laterMatch_iff.2 ⟨_, by simp; omega, by omega, frontMatch_suffix hw h.1⟩
      rw [extract_drop (s := { s with acc := b :: w }) (turn_drop (by simp; omega) hfront (.inr hlater))]
      exact ih (h.tail hlen)

/-- R188: INTERPRET does not fail on a well-formed packet. -/
theorem interpret_of_wellFormed {P : Params} {p : Bytes} (hw : wellFormedPacket P p = true) :
    ∃ e, interpret P p = .ok e := by
  obtain ⟨hdr, cmd2, data, rfl, hm⟩ := (wellFormedPacket_iff P p).1 hw
  exact ⟨_, interpret_wirePacket hdr cmd2 hm⟩

/-- R199: the packet's event is all that comes of the stream, in whatever chunks it is received. -/
theorem OnlyMatch.receiveAll_noCap {P : Params} {p : Bytes} {e : Event} (hcap : P.accCap = none)
    (hw : wellFormedPacket P p = true) (he : interpret P p = .ok e) :
    ∀ (chunks : List Bytes) (s : State), (∀ c ∈ chunks, c ≠ []) → chunks ≠ [] → s.sess = .opened →
      OnlyMatch p (s.acc ++ chunks.flatten) → receiveAll P chunks s = deliver e { s with acc := [] } := by
  intro chunks
  induction chunks with
  | nil => intro s _ h; exact absurd rfl h
  | cons c cs ih =>
    intro s hne _ ho h
    have hc : receiveAll P (c :: cs) s = receiveAll P cs (extract P { s with acc := s.acc ++ c }) := by
      rw [receiveAll, List.foldl_cons, receive_noCap hcap c ho, receiveAll]
    rw [hc]
    by_cases hcs : cs = []
    · subst hcs
      exact OnlyMatch.extract_whole hw he _ s (by simpa using h)
    · obtain ⟨c', hc'⟩ := List.exists_mem_of_ne_nil cs hcs
      have hrest : cs.flatten ≠ [] := List.flatten_ne_nil_iff.2 ⟨c', hc', hne c' (by simp [hc'])⟩
      obtain ⟨-, hp, -⟩ := matchesAt_of_wellFormed hw
      obtain ⟨a', ha', h'⟩ := OnlyMatch.extract_partial hp hrest (s.acc ++ c) s (by simpa using h)
      rw [ha', ih _ (fun c hc => hne c (by simp [hc])) hcs (by exact ho) h']

/-! ### Chunks in a block with a capacity -/

/-- R182: chunks received with a capacity act as some split of the same bytes with none. -/
theorem exists_split_receiveAll {P : Params} (hP : legalParams P = true) :
    ∀ (chunks : List Bytes) (s : State), (∀ c ∈ chunks, c ≠ []) → s.sess = .opened → s.acc.length < P.maxLen →
      ∃ split : List Bytes, (∀ c ∈ split, c ≠ []) ∧ split.flatten = chunks.flatten ∧
        receiveAll P chunks s = receiveAll { P with accCap := none } split s := by
  intro chunks
  induction chunks with
  | nil => exact fun s _ _ _ => ⟨[], by simp, rfl, rfl⟩
  | cons c cs ih =>
    intro s hne ho hacc
    have h3 := legalParams_maxLen hP
    obtain ⟨split, hsplit, hflat, heq⟩ := exists_split_receive hP ho hacc (hne c (by simp))
    obtain ⟨hsess, -⟩ := receive_sameOutside P c s
    have hshort := receive_acc_length h3 c (s := s) (by omega)
    obtain ⟨split', hsplit', hflat', heq'⟩ :=
      ih (receive P c s) (fun c hc => hne c (by simp [hc])) (hsess.trans ho) (by omega)
    refine ⟨split ++ split', ?_, by simp [hflat, hflat'], ?_⟩
    · intro c hc
      exact (List.mem_append.1 hc).elim (hsplit c) (hsplit' c)
    · change receiveAll P cs (receive P c s) = _
      rw [heq', heq]
      simp only [receiveAll, List.foldl_append]

/-- R199 (2), (3): a stream whose one match is its last packet gives that packet's event and leaves `ACC` empty. -/
theorem OnlyMatch.receiveAll_eq_deliver {P : Params} (hP : legalParams P = true) {p : Bytes}
    (hw : wellFormedPacket P p = true) {chunks : List Bytes} (hne : ∀ c ∈ chunks, c ≠ [])
    (h : OnlyMatch p chunks.flatten) {s : State} (ho : s.sess = .opened) (hacc : s.acc = []) :
    ∃ e, interpret P p = .ok e ∧ receiveAll P chunks s = deliver e s := by
  have h3 := legalParams_maxLen hP
  obtain ⟨split, hsplit, hflat, heq⟩ := exists_split_receiveAll hP chunks s hne ho (by simp [hacc]; omega)
  rw [← hflat] at h
  obtain ⟨e, he⟩ := interpret_of_wellFormed hw
  obtain ⟨hp3, -, -⟩ := matchesAt_of_wellFormed hw
  have hsplit0 : split ≠ [] := by
    rintro rfl
    simp [List.suffix_nil.1 h.1] at hp3
  have hs : { s with acc := [] } = s := by rw [← hacc]
  refine ⟨e, he, ?_⟩
  rw [heq, OnlyMatch.receiveAll_noCap (P := { P with accCap := none }) rfl hw he split s hsplit hsplit0 ho
    (by rwa [hacc, List.nil_append]), hs]

/-- Settles O35: a clean packet is the one match of the stream that it is. -/
theorem cleanPacketSurvivesEverySplit : Obligations.CleanPacketSurvivesEverySplit := by
  rintro P hP p hw hclean chunks hne rfl s ho hacc
  exact (onlyMatch_of_clean hclean).receiveAll_eq_deliver hP hw hne ho hacc

/-- Settles O36: the two bytes give no match of their own, so the packet stays the one match. -/
theorem leadingJunkIsDropped : Obligations.LeadingJunkIsDropped := by
  intro P hP p hw hclean h2 h1 s ho hacc
  have honly : OnlyMatch p [0xFF#8 :: 0xFF#8 :: p].flatten := by
    simpa using ((onlyMatch_of_clean hclean).cons h1).cons h2
  exact honly.receiveAll_eq_deliver hP hw (by simp) ho hacc

end Sys2Proof.Machine
end

section
/-! The session: what each host request, a write answer and a tick do, when a wait ends, and which results an operation
gives (O39 to O46, O48). -/

namespace Sys2Proof.Machine

open Claims

/-! ### Requests on the host port -/

/-- R222 to R225: a request that is ready is taken in its own step. -/
theorem exec_of_ready {i : Instr} {r : Request} {s : State} (hi : requestOf i = some r) (hr : ready s r = true) :
    exec i s = .next (take r s) := by
  rw [exec_of_requestOf hi, present_ready hr]

/-- R32: a request that is not ready waits. -/
theorem exec_of_not_ready {i : Instr} {r : Request} {s : State} (hi : requestOf i = some r)
    (hr : ready s r = false) : exec i s = .next { s with held := s.held ++ [r] } := by
  rw [exec_of_requestOf hi, present_held hr, hold]

/-- Settles O43. -/
theorem requestThatIsNotReadyIsHeld : Obligations.RequestThatIsNotReadyIsHeld := by
  refine fun s => ⟨fun htx a => exec_of_not_ready rfl ?_, fun htx bs => exec_of_not_ready rfl ?_,
    fun hbusy bs t => exec_of_not_ready rfl ?_⟩
  · simpa [ready] using htx
  · simpa [ready] using htx
  · rcases hbusy with htx | haw
    · simp [ready, htx]
    · simp [ready, haw]

/-! ### Taking a request -/

section
variable {s : State}

theorem take_open_opened (cfg : LinkConfig) (a : LinkAnswer) (h : s.sess = .opened) :
    take (.openLink cfg a) s
      = { s with results := s.results ++ [(.openLink, .errTransport .alreadyOpen)] } := by
  simp [take, takeOpen, h, emitResult]

theorem take_open_fail (cfg : LinkConfig) (h : s.sess = .closed) :
    take (.openLink cfg .fail) s
      = { s with link := s.link ++ [.openLink cfg],
                 results := s.results ++ [(.openLink, .errTransport .openFailed)] } := by
  simp [take, takeOpen, h, emitResult, askLink]

theorem take_open_ok (cfg : LinkConfig) (h : s.sess = .closed) :
    take (.openLink cfg .ok) s
      = { s with sess := .opened, acc := [], lastStatus := none, lastTc := none, lastDevType := none,
                 link := s.link ++ [.openLink cfg], results := s.results ++ [(.openLink, .ok)] } := by
  simp [take, takeOpen, h, emitResult, askLink]

theorem take_close_closed (a : LinkAnswer) (h : s.sess = .closed) :
    take (.closeLink a) s = { s with results := s.results ++ [(.closeLink, .errTransport .notOpen)] } := by
  simp [take, takeClose, h, emitResult]

theorem take_close_fail (h : s.sess = .opened) :
    take (.closeLink .fail) s
      = { s with link := s.link ++ [.closeLink],
                 results := s.results ++ [(.closeLink, .errTransport .closeFailed)] } := by
  simp [take, takeClose, h, emitResult, askLink]

theorem take_close_ok (h : s.sess = .opened) :
    take (.closeLink .ok) s
      = { s with sess := .closed, link := s.link ++ [.closeLink],
                 results := s.results ++ [(.closeLink, .ok)] } := by
  simp [take, takeClose, h, emitResult, askLink]

theorem take_send_closed (bs : Bytes) (h : s.sess = .closed) :
    take (.send bs) s = { s with results := s.results ++ [(.send, .errTransport .notOpen)] } := by
  simp [take, takeSend, h, emitResult]

theorem take_send_opened (bs : Bytes) (h : s.sess = .opened) :
    take (.send bs) s = { s with tx := .busyPlain, link := s.link ++ [.write bs] } := by
  simp [take, takeSend, h, askLink]

theorem take_sendAwait_closed (bs : Bytes) (t : Nat) (h : s.sess = .closed) :
    take (.sendAwait bs t) s = { s with results := s.results ++ [(.sendAwait, .errTransport .notOpen)] } := by
  simp [take, takeSendAwait, h, emitResult]

theorem take_sendAwait_opened (bs : Bytes) (t : Nat) (h : s.sess = .opened) :
    take (.sendAwait bs t) s = { s with tx := .busyAwait, aw := .armed t 0, link := s.link ++ [.write bs] } := by
  simp [take, takeSendAwait, h, askLink]

end

/-- Settles O39: OPEN is always ready. -/
theorem openAnswersInItsOwnStep : Obligations.OpenAnswersInItsOwnStep := by
  intro cfg s
  have htake : ∀ a, exec (.openLink cfg a) s = .next (take (.openLink cfg a) s) := fun _ => exec_of_ready rfl rfl
  exact ⟨fun a h => by rw [htake, take_open_opened cfg a h], fun h => by rw [htake, take_open_fail cfg h],
    fun h => by rw [htake, take_open_ok cfg h]⟩

/-- Settles O40: with an idle transmitter CLOSE is ready. -/
theorem closeAnswersInItsOwnStep : Obligations.CloseAnswersInItsOwnStep := by
  intro s htx
  have htake : ∀ a, exec (.closeLink a) s = .next (take (.closeLink a) s) :=
    fun _ => exec_of_ready rfl (by simp [ready, htx])
  exact ⟨fun a h => by rw [htake, take_close_closed a h], fun h => by rw [htake, take_close_fail h],
    fun h => by rw [htake, take_close_ok h]⟩

/-- Settles O41: with an idle transmitter SEND is ready. -/
theorem sendWritesTheBytesUnchanged : Obligations.SendWritesTheBytesUnchanged := by
  intro bytes s htx
  have htake : exec (.send bytes) s = .next (take (.send bytes) s) := exec_of_ready rfl (by simp [ready, htx])
  exact ⟨fun h => by rw [htake, take_send_closed bytes h], fun h => by rw [htake, take_send_opened bytes h]⟩

/-- Settles O42: with an idle transmitter and no wait armed SEND_AWAIT is ready. -/
theorem sendAwaitArmsTheWaitAndWrites : Obligations.SendAwaitArmsTheWaitAndWrites := by
  intro bytes t s htx haw
  have htake : exec (.sendAwait bytes t) s = .next (take (.sendAwait bytes t) s) :=
    exec_of_ready rfl (by simp [ready, htx, haw])
  exact ⟨fun h => by rw [htake, take_sendAwait_closed bytes t h],
    fun h => by rw [htake, take_sendAwait_opened bytes t h]⟩

/-! ### Write answers -/

/-- R227: when the wait has settled before, a write error of its SEND_AWAIT only ends the write. -/
theorem execWriteError_settled {s : State} (htx : s.tx = .busyAwait) (haw : s.aw = .idle) :
    execWriteError s = .next { s with tx := .idle } := by
  simp [execWriteError, htx, settle_idle, haw]

/-- R227: a write error of a SEND_AWAIT settles a wait that is still armed. -/
theorem execWriteError_armed {s : State} {l e : Nat} (htx : s.tx = .busyAwait) (haw : s.aw = .armed l e) :
    execWriteError s = .next { s with tx := .idle, aw := .idle,
                                      results := s.results ++ [(.sendAwait, .errTransport .writeFailed)] } := by
  simp [execWriteError, htx, settle_armed (s := { s with tx := .idle }) _ haw]

/-- Settles O44. -/
theorem writeAnswersEndTheWrite : Obligations.WriteAnswersEndTheWrite := by
  intro s
  refine ⟨fun h => ?_, fun h => ?_, fun h => ?_, fun htx haw => execWriteError_settled htx haw,
    fun l e htx haw => execWriteError_armed htx haw⟩
  · simpa [exec, h] using execWriteDone_cases s
  · simpa [exec, h] using execWriteDone_cases s
  · simpa [exec, h] using execWriteError_cases s

/-! ### Ticks -/

theorem countTick_idle {s : State} (h : s.aw = .idle) : countTick s = s := by simp [countTick, h]

theorem countTick_counts {s : State} {l e : Nat} (h : s.aw = .armed l e) (hl : e + 1 < waitTicks l) :
    countTick s = { s with aw := .armed l (e + 1) } := by
  simp [countTick, h, hl]

theorem countTick_expires {s : State} {l e : Nat} (h : s.aw = .armed l e) (hl : waitTicks l ≤ e + 1) :
    countTick s = { s with aw := .idle, results := s.results ++ [(.sendAwait, .timedOut)] } := by
  simp [countTick, h, hl, settle_armed _ h]

/-- Settles O45. -/
theorem tickCountsTheArmedWait : Obligations.TickCountsTheArmedWait := fun _ =>
  ⟨fun h => congrArg Host.Outcome.next (countTick_idle h),
    fun _ _ h hl => congrArg Host.Outcome.next (countTick_counts h hl),
    fun _ _ h hl => congrArg Host.Outcome.next (countTick_expires h hl)⟩

/-! ### The end of a wait -/

/-- R228: before its last tick a wait only counts. -/
theorem countTicks_counts {s : State} {limit k : Nat} (h : s.aw = .armed limit 0) (hk : k < max limit 1) :
    countTicks k s = { s with aw := .armed limit k } := by
  induction k with
  | zero => rw [countTicks, ← h]
  | succ k ih =>
    rw [countTicks_succ, ih (by omega)]
    exact countTick_counts rfl hk

/-- R228, R231: the wait ends at its `max(limit, 1)`-th tick. -/
theorem countTicks_expires {s : State} {limit : Nat} (h : s.aw = .armed limit 0) :
    countTicks (max limit 1) s
      = { s with aw := .idle, results := s.results ++ [(.sendAwait, .timedOut)] } := by
  obtain ⟨k, hk⟩ : ∃ k, max limit 1 = k + 1 := ⟨max limit 1 - 1, by omega⟩
  rw [hk, countTicks_succ, countTicks_counts h (by omega)]
  exact countTick_expires rfl hk.le

/-- R231: with the first tick at most one `P_TICK` after the acceptance, the `k`-th comes within one `P_TICK` before
`k * P_TICK`. -/
theorem timeOfTick_mem_Ioc {P : Params} {first k : Nat} (hpos : 0 < first) (hle : first ≤ P.tick) (hk : 1 ≤ k) :
    timeOfTick P first k ∈ Set.Ioc ((k - 1) * P.tick) (k * P.tick) := by
  obtain ⟨k, rfl⟩ := Nat.exists_eq_add_of_le' hk
  simp only [timeOfTick, Nat.add_sub_cancel, Nat.add_one_mul, Set.mem_Ioc]
  omega

/-- R231: a width that holds the limit holds every count below `max(limit, 1)`. -/
theorem limitFits_of_lt_max {P : Params} {limit k : Nat} (h : limitFits P limit = true) (hk : k < max limit 1) :
    limitFits P k = true := by
  unfold limitFits at h ⊢
  cases hw : P.timeoutBits with
  | none => rfl
  | some w =>
    have hlimit : limit < 2 ^ w := by simpa [hw] using h
    exact decide_eq_true (by omega)

/-- Settles O46: the count goes up by one at each tick until the last. -/
theorem waitEndsAtItsLimitAndNotBefore : Obligations.WaitEndsAtItsLimitAndNotBefore :=
  ⟨fun _ => rfl, fun _ limit haw =>
    ⟨fun _ => countTicks_counts haw, countTicks_expires haw,
      fun _ _ hpos hle => timeOfTick_mem_Ioc hpos hle (le_max_right limit 1),
      fun _ hfits _ => limitFits_of_lt_max hfits⟩⟩

/-! ### Results of their operation -/

/-- R237: from `s` to `t` the result port gets only results of the operations they name. -/
def AddsOwnResults (s t : State) : Prop :=
  ∃ rs, t.results = s.results ++ rs ∧ ∀ q ∈ rs, resultOf q.1 q.2

namespace AddsOwnResults

theorem of_eq {s t : State} (h : t.results = s.results) : AddsOwnResults s t := ⟨[], by simp [h], by simp⟩

theorem of_append {s t : State} {op : HostOp} {r : Result} (h : t.results = s.results ++ [(op, r)])
    (hr : resultOf op r) : AddsOwnResults s t :=
  ⟨[(op, r)], h, by simpa using hr⟩

theorem trans {s t u : State} (hst : AddsOwnResults s t) (htu : AddsOwnResults t u) : AddsOwnResults s u := by
  obtain ⟨rs, ht, hrs⟩ := hst
  obtain ⟨rs', hu, hrs'⟩ := htu
  exact ⟨rs ++ rs', by rw [hu, ht, List.append_assoc],
    fun q hq => (List.mem_append.1 hq).elim (hrs q) (hrs' q)⟩

theorem settle {r : Result} (hr : resultOf .sendAwait r) (s : State) : AddsOwnResults s (settle r s) := by
  rcases settle_cases r s with ⟨-, h⟩ | ⟨_, _, -, h⟩ <;> rw [h]
  · exact of_eq rfl
  · exact of_append rfl hr

/-- R229, R230: an event can only give a wait ACKED or NAKKED. -/
theorem resultOf_of_settling {e : Event} {r : Result} (h : settling e = some r) : resultOf .sendAwait r := by
  cases e with
  | ack => cases h; exact .inl rfl
  | nak rs => cases h; exact .inr (.inl ⟨rs, rfl⟩)
  | deviceType | status | timecode | raw => cases h

theorem deliver (e : Event) (s : State) : AddsOwnResults s (deliver e s) := by
  rcases deliver_aw_results s e with ⟨-, h⟩ | ⟨_, _, r, -, hr, -, h⟩
  · exact of_eq h
  · exact of_append h (resultOf_of_settling hr)

theorem extract (P : Params) (s : State) : AddsOwnResults s (extract P s) :=
  extract_induct (C := AddsOwnResults s) (fun _ _ _ h _ => h.trans (deliver _ _)) (fun _ h => h) s (of_eq rfl)

theorem receive (P : Params) (chunk : Bytes) (s : State) : AddsOwnResults s (receive P chunk s) :=
  receive_induct (C := AddsOwnResults s) (fun _ _ h => h) (fun _ _ _ h _ => h.trans (deliver _ _))
    (fun _ h => h) chunk s (of_eq rfl)

theorem take (r : Request) (s : State) : AddsOwnResults s (take r s) := by
  cases r with
  | openLink cfg a =>
    cases h : s.sess with
    | opened => rw [take_open_opened cfg a h]; exact of_append rfl (by simp [resultOf])
    | closed =>
      cases a with
      | ok => rw [take_open_ok cfg h]; exact of_append rfl (by simp [resultOf])
      | fail => rw [take_open_fail cfg h]; exact of_append rfl (by simp [resultOf])
  | closeLink a =>
    cases h : s.sess with
    | closed => rw [take_close_closed a h]; exact of_append rfl (by simp [resultOf])
    | opened =>
      cases a with
      | ok => rw [take_close_ok h]; exact of_append rfl (by simp [resultOf])
      | fail => rw [take_close_fail h]; exact of_append rfl (by simp [resultOf])
  | send bs =>
    cases h : s.sess with
    | closed => rw [take_send_closed bs h]; exact of_append rfl (by simp [resultOf])
    | opened => rw [take_send_opened bs h]; exact of_eq rfl
  | sendAwait bs t =>
    cases h : s.sess with
    | closed => rw [take_sendAwait_closed bs t h]; exact of_append rfl (by simp [resultOf])
    | opened => rw [take_sendAwait_opened bs t h]; exact of_eq rfl

theorem present (r : Request) (s : State) : AddsOwnResults s (present r s) := by
  cases hr : ready s r with
  | true => rw [present_ready hr]; exact take r s
  | false => rw [present_held hr]; exact of_eq rfl

theorem countTick (s : State) : AddsOwnResults s (countTick s) := by
  rcases countTick_cases s with ⟨-, h⟩ | ⟨_, _, -, -, h⟩ | ⟨_, _, -, -, h⟩ <;> rw [h]
  · exact of_eq rfl
  · exact of_eq rfl
  · exact of_append rfl (by simp [resultOf])

theorem execWriteDone {s t : State} (h : execWriteDone s = .next t) : AddsOwnResults s t := by
  rcases execWriteDone_cases s with ⟨-, he⟩ | ⟨-, he⟩ | ⟨-, he⟩ <;> rw [he] at h <;> cases h
  · exact of_append rfl (by simp [resultOf])
  · exact of_eq rfl

theorem execWriteError {s t : State} (h : execWriteError s = .next t) : AddsOwnResults s t := by
  rcases execWriteError_cases s with ⟨-, he⟩ | ⟨-, he⟩ | ⟨-, he⟩ <;> rw [he] at h <;> cases h
  · exact of_append rfl (by simp [resultOf])
  · exact settle (by simp [resultOf]) { s with tx := .idle }

theorem execIn {P : Params} {i : Instr} {s t : State} (h : execIn P i s = .next t) : AddsOwnResults s t := by
  rcases execIn_next h with ⟨r, -, rfl⟩ | ⟨v, rfl⟩ | ⟨e, rfl, -⟩ | ⟨c, -, rfl⟩ | ⟨-, rfl⟩ | ⟨r, rfl, hr⟩ |
    ⟨-, -, ht⟩ | ⟨-, -, ht⟩ | ⟨-, rfl⟩
  · exact present r s
  · exact of_eq rfl
  · exact deliver e s
  · exact receive P c s
  · exact extract P s
  · rcases hr with ⟨-, rfl⟩ | ⟨rs, -, rfl⟩ <;> exact settle (by simp [resultOf]) s
  · exact execWriteDone ht
  · exact execWriteError ht
  · exact countTick s

end AddsOwnResults

/-- Settles O48: each shared operation adds only results of the operation it names. -/
theorem resultsAreOfTheirOperation : Obligations.ResultsAreOfTheirOperation :=
  ⟨fun _ _ _ h => AddsOwnResults.execIn (P := params) (by rwa [execIn_params]), AddsOwnResults.take⟩

end Sys2Proof.Machine
end

section
/-! Inputs at one instant: the order they are taken in, and the rule's consequences for an armed wait (O60). -/

namespace Sys2Proof.Machine

open Claims

/-! ### The places of the ports -/

theorem instantRank_le_zero_iff (p : Port) : instantRank p ≤ 0 ↔ p = .reset := by
  cases p <;> decide

theorem instantRank_le_one_iff (p : Port) : instantRank p ≤ 1 ↔ p ∈ [.reset, .linkRx, .framed, .internal] := by
  cases p <;> decide

theorem instantRank_le_two_iff (p : Port) :
    instantRank p ≤ 2 ↔ p ∈ [.reset, .linkRx, .framed, .internal, .linkTx] := by
  cases p <;> decide

theorem instantRank_le_three_iff (p : Port) :
    instantRank p ≤ 3 ↔ p ∈ [.reset, .linkRx, .framed, .internal, .linkTx, .timeBase] := by
  cases p <;> decide

theorem instantRank_lt_four_iff (p : Port) : instantRank p < 4 ↔ p ∉ [.host, .codec, .command] := by
  cases p <;> decide

theorem instantRank_mem (p : Port) : instantRank p ∈ [0, 1, 2, 3, 4] := by
  cases p <;> decide

/-- R278: what stands before an input of a given port, said by the ports. -/
theorem places_of_instantRank_le {x y : Input} (h : instantRank x.port ≤ instantRank y.port) :
    (y.port = .reset → x.port = .reset) ∧
    (y.port ∈ [.linkRx, .framed, .internal] → x.port ∈ [.reset, .linkRx, .framed, .internal]) ∧
    (y.port = .linkTx → x.port ∈ [.reset, .linkRx, .framed, .internal, .linkTx]) ∧
    (y.port = .timeBase → x.port ∈ [.reset, .linkRx, .framed, .internal, .linkTx, .timeBase]) := by
  rw [← instantRank_le_zero_iff, ← instantRank_le_zero_iff, ← instantRank_le_one_iff, ← instantRank_le_two_iff,
    ← instantRank_le_three_iff]
  refine ⟨h.trans, fun hy => ?_, fun hy => ?_, fun hy => ?_⟩
  · exact h.trans ((instantRank_le_one_iff _).2 (List.mem_cons_of_mem _ hy))
  · rwa [hy] at h
  · rwa [hy] at h

/-! ### A batch in its order -/

theorem serialise_pairwise_instantRank (batch : List Input) :
    (serialise batch).Pairwise fun x y => instantRank x.port ≤ instantRank y.port := by
  have hrank : ∀ r, ∀ x ∈ ((batch.filter fun x => instantRank x.port == r).map
      fun x => { x with beforeHeld := decide (r < 4) }), instantRank x.port = r := by
    intro r x hx
    obtain ⟨y, hy, rfl⟩ := List.mem_map.1 hx
    simpa using (List.mem_filter.1 hy).2
  refine List.pairwise_flatMap.2 ⟨fun r _ => ?_, ?_⟩
  · exact List.pairwise_of_forall_mem_list fun x hx y hy => by rw [hrank r x hx, hrank r y hy]
  · refine List.Pairwise.imp (R := (· ≤ ·)) (fun {r q} hrq x hx y hy => ?_) (by decide)
    rwa [hrank r x hx, hrank q y hy]

/-- Grouping a list by a key rearranges it, when each key is taken once and none is left out. -/
theorem flatMap_filter_perm {α κ : Type} [DecidableEq κ] (key : α → κ) {ks : List κ} (hnd : ks.Nodup) :
    ∀ {l : List α}, (∀ x ∈ l, key x ∈ ks) → (ks.flatMap fun k => l.filter fun x => key x == k).Perm l := by
  induction hnd with
  | nil =>
    intro l hl
    have : l = [] := List.eq_nil_iff_forall_not_mem.2 fun x hx => by simpa using hl x hx
    simp [this]
  | @cons k ks hk _ ih =>
    intro l hl
    have hrest : (ks.flatMap fun k' => l.filter fun x => key x == k')
        = ks.flatMap fun k' => (l.filter fun x => !(key x == k)).filter fun x => key x == k' := by
      refine List.flatMap_congr fun k' hk' => ?_
      rw [List.filter_filter]
      refine List.filter_congr fun x _ => ?_
      have hne : k' ≠ k := (hk k' hk').symm
      by_cases hx : key x = k'
      · simp [hx, hne]
      · simp [hx]
    rw [List.flatMap_cons, hrest]
    refine (List.Perm.append_left _ (ih fun x hx => ?_)).trans (List.filter_append_perm _ l)
    obtain ⟨hx, hne⟩ := List.mem_filter.1 hx
    exact (List.mem_cons.1 (hl x hx)).resolve_left (by simpa using hne)

theorem serialise_perm (batch : List Input) :
    ((serialise batch).map fun x => { x with beforeHeld := false }).Perm
      (batch.map fun x => { x with beforeHeld := false }) := by
  have hgroups : ((serialise batch).map fun x => { x with beforeHeld := false })
      = ([0, 1, 2, 3, 4].flatMap fun r => batch.filter fun x => instantRank x.port == r).map
          fun x => { x with beforeHeld := false } := by
    simp only [serialise, List.map_flatMap, List.map_map]
    rfl
  rw [hgroups]
  exact (flatMap_filter_perm _ (by decide) fun x _ => instantRank_mem x.port).map _

/-! ### Two inputs at one instant -/

/-- R6: an instruction's input is looked at next when it goes before what waits, or nothing that waits is ready. -/
theorem step_encode {s : State} {i : Instr} {b : Bool} {rest : List Input} (hw : wellFormed i = true)
    (hin : s.inputs = { encode i with beforeHeld := b } :: rest)
    (hlook : b = true ∨ ∀ r ∈ s.held, ready s r = false) : step s = exec i { s with inputs := rest } := by
  have hdec : decode { encode i with beforeHeld := b } = .ok i := decodeIn_encode hw
  have hport : (encode i).port ≠ .reset := by
    intro h
    simp [decode, decodeIn, h] at hdec
  exact (stepRunsTheDecodedInstruction.1 s _ rest hin hport hlook).1 i hdec

/-- A batch of two: the first goes before what waits; the second is run from the state `t` that the first leaves. -/
theorem step_step_arriveTogether {s u : State} {batch : List Input} {i j : Instr} {b : Bool} (t : State)
    (hbatch : serialise batch = [{ encode i with beforeHeld := true }, { encode j with beforeHeld := b }])
    (hwi : wellFormed i = true) (hwj : wellFormed j = true) (hs : s.inputs = []) (ht : t.inputs = [])
    (hi : ∀ rest, exec i { s with inputs := rest } = .next { t with inputs := rest })
    (hlook : b = true ∨ ∀ r ∈ t.held, ready t r = false) (hj : exec j t = .next u) :
    ∃ s1, step (s.arriveTogether batch) = .next s1 ∧ step s1 = .next u := by
  have hin : (s.arriveTogether batch).inputs
      = [{ encode i with beforeHeld := true }, { encode j with beforeHeld := b }] := by
    rw [← hbatch, State.arriveTogether, hs, List.nil_append]
  refine ⟨{ t with inputs := [{ encode j with beforeHeld := b }] }, ?_, ?_⟩
  · rw [step_encode hwi hin (.inl rfl)]
    exact hi _
  · have hsecond : step { t with inputs := [{ encode j with beforeHeld := b }] } = exec j { t with inputs := [] } :=
      step_encode hwj rfl (hlook.imp_right fun h r hr => (ready_congr rfl rfl r).trans (h r hr))
    rw [hsecond, ← hj, ← ht]

/-! ### A wait that an ACK or its last tick ends -/

/-- The state after an ACK has settled the wait (R229). -/
def acked (s : State) : State :=
  { s with aw := .idle, events := s.events ++ [.ack], results := s.results ++ [(.sendAwait, .acked)] }

theorem deliver_ack_armed {s : State} {l n : Nat} (haw : s.aw = .armed l n) : deliver .ack s = acked s := by
  simp [deliver_eq_publish, publish, updateCache, settling, haw, acked]

/-- R183, R229: the three bytes of an ACK in one chunk. -/
theorem exec_rx_ack {s : State} {l n : Nat} (ho : s.sess = .opened) (hacc : s.acc = []) (haw : s.aw = .armed l n) :
    exec (.rx [0x10, 0x01, 0x11]) s = .next (acked s) := by
  rw [exec_rx_open (by simp) ho, hacc, List.nil_append, extract_frontMatch frontMatch_ack interpret_ack]
  have hs : { s with acc := [] } = s := by rw [← hacc]
  change Host.Outcome.next (extract params (deliver .ack { s with acc := [] })) = _
  rw [hs, deliver_ack_armed haw, extract_stop (turn_short (by simp [acked, hacc]))]

/-- The state after the last tick has ended the wait (R228). -/
def timedOut (s : State) : State :=
  { s with aw := .idle, results := s.results ++ [(.sendAwait, .timedOut)] }

/-- Settles O60: serialising groups the batch by its ports' places; of two inputs at one instant the first leaves the
state that the second is run from. -/
theorem simultaneousInputsAreOrdered : Obligations.SimultaneousInputsAreOrdered := by
  refine ⟨fun batch => ⟨(serialise_pairwise_instantRank batch).imp places_of_instantRank_le, fun x hx => ?_,
    serialise_perm batch⟩, fun s l n hin haw => ?_⟩
  · rw [beforeHeld_of_mem_serialise hx, decide_eq_true_iff, instantRank_lt_four_iff]
  have hrx (ho : s.sess = .opened) (hacc : s.acc = []) (rest : List Input) :
      exec (.rx [0x10, 0x01, 0x11]) { s with inputs := rest } = .next { acked s with inputs := rest } :=
    exec_rx_ack ho hacc haw
  have hack (rest : List Input) :
      exec (.ack []) { s with inputs := rest } = .next { acked s with inputs := rest } :=
    congrArg Host.Outcome.next (deliver_ack_armed haw)
  have htick : exec .tick (acked s) = .next (acked s) := congrArg Host.Outcome.next (countTick_idle rfl)
  refine ⟨fun ho hacc => ?_, ?_, fun ho hacc htx => ?_, fun bs t ho htx hheld hl => ?_⟩
  · exact step_step_arriveTogether (acked s) rfl rfl rfl hin hin (hrx ho hacc) (.inl rfl) htick
  · exact step_step_arriveTogether (acked s) rfl rfl rfl hin hin hack (.inl rfl) htick
  · exact step_step_arriveTogether (acked s) rfl rfl rfl hin hin (hrx ho hacc) (.inl rfl)
      (execWriteError_settled (s := acked s) htx rfl)
  · have hexpire (rest : List Input) :
        exec .tick { s with inputs := rest } = .next { timedOut s with inputs := rest } :=
      congrArg Host.Outcome.next (countTick_expires haw hl)
    have hsend := execIn_sendAwait_open params (s := timedOut s) bs t ho htx rfl
    rw [execIn_params] at hsend
    exact step_step_arriveTogether (timedOut s) rfl rfl rfl hin hin hexpire (.inr (by simp [timedOut, hheld])) hsend

end Sys2Proof.Machine
end

section
/-! The duties of the agents around the block decide alone whether an instruction goes on (O50). -/

namespace Sys2Proof.Machine

/-- R226, R287 (a): a write completion goes on exactly when a write is outstanding. -/
theorem execWriteDone_goesOn_iff (s : State) :
    (∃ t, execWriteDone s = .next t) ↔ dutiful s .writeDone = true := by
  rcases execWriteDone_cases s with ⟨htx, he⟩ | ⟨htx, he⟩ | ⟨htx, he⟩ <;> simp [dutiful, htx, he]

/-- R227, R287 (a): a write error goes on exactly when a write is outstanding. -/
theorem execWriteError_goesOn_iff (s : State) :
    (∃ t, execWriteError s = .next t) ↔ dutiful s .writeError = true := by
  rcases execWriteError_cases s with ⟨htx, he⟩ | ⟨htx, he⟩ | ⟨htx, he⟩ <;> simp [dutiful, htx, he]

/-- R181, R287 (c): RX goes on exactly when the chunk is not empty, whatever the session. -/
theorem execRxIn_goesOn_iff (P : Params) (chunk : Bytes) (s : State) :
    (∃ t, execRxIn P chunk s = .next t) ↔ dutiful s (.rx chunk) = true := by
  cases chunk <;> simp [execRxIn, dutiful]

/-- R188: INTERPRET goes on for every string, one that is no packet included (log 20). -/
theorem execIn_interpret_goesOn (P : Params) (packet : Bytes) (s : State) :
    ∃ t, execIn P (.interpret packet) s = .next t := by
  cases h : interpret P packet with
  | ok e => exact ⟨_, execIn_interpret_ok h s⟩
  | error e => exact ⟨_, execIn_interpret_error h s⟩

/-- R270, R287: the three inputs with a duty are split by it; of the others only INTERPRET looks at a result before
it answers, and the rest answer `.next` as they are defined. -/
theorem execIn_goesOn_iff (P : Params) (i : Instr) (s : State) :
    (∃ t, execIn P i s = .next t) ↔ dutiful s i = true := by
  cases i
  case writeDone => exact execWriteDone_goesOn_iff s
  case writeError => exact execWriteError_goesOn_iff s
  case rx chunk => exact execRxIn_goesOn_iff P chunk s
  case interpret packet => exact iff_of_true (execIn_interpret_goesOn P packet s) rfl
  all_goals exact iff_of_true ⟨_, rfl⟩ rfl

/-- Settles O50: the block is the member of the family at its default parameters. -/
theorem everyDutifulInstructionGoesOn : Obligations.EveryDutifulInstructionGoesOn :=
  fun i s => ⟨execIn_params i s ▸ execIn_goesOn_iff params i s, fun P => execIn_goesOn_iff P i s⟩

end Sys2Proof.Machine
end

section
/-! The first inputs after reset (O54). -/

namespace Sys2Proof.Machine

/-- R221: with an idle transmitter and no wait armed, no ready condition is false. -/
theorem ready_of_idle {s : State} (htx : s.tx = .idle) (haw : s.aw = .idle) (r : Request) : ready s r = true := by
  cases r <;> simp [ready, htx, haw]

/-- Settles O54: reset leaves the session closed, the transmitter and the wait idle, and what each input does in such
a state is O40 to O42 for the requests, O29 for RX and O45 for TICK. -/
theorem resetStateAnswersAsTheSpecSays : Obligations.ResetStateAnswersAsTheSpecSays := by
  have hsess : State.reset.sess = .closed := rfl
  have htx : State.reset.tx = .idle := rfl
  have haw : State.reset.aw = .idle := rfl
  refine ⟨hsess, htx, rfl, haw, rfl, rfl, rfl, rfl, rfl, rfl, fun a => ?close, fun bs => ?send,
    fun bs t => ?sendAwait, fun c hc => ?rx, ?tick, ready_of_idle htx haw⟩
  case close => exact (closeAnswersInItsOwnStep _ htx).1 a hsess
  case send => exact (sendWritesTheBytesUnchanged bs _ htx).1 hsess
  case sendAwait => exact (sendAwaitArmsTheWaitAndWrites bs t _ htx haw).1 hsess
  case rx => exact receiveWhileClosedChangesNothing c _ hc hsess
  case tick => exact (tickCountsTheArmedWait _).1 haw

end Sys2Proof.Machine
end
